-- ==== Sys2Proof/Word.lean ====
section
/-! DEFINITION. The word types of the engine: 64-bit words (spec/00_scope.md R7, WORD_BITS and VALUE_BITS) and the
bytes of a platform's byte view (spec/20_memory.md R54 (b)). -/

namespace Sys2Proof

/-- A 64-bit unsigned word: a register, an operand, or one word of STORE, PFX, SCR or SMALL (R7, R9). -/
abbrev Word := BitVec 64

/-- One byte lane of a word (R54 (b)). -/
abbrev Byte := BitVec 8

/-- `ONES` of R9: the all-ones word. -/
abbrev ones : Word := BitVec.allOnes 64

end Sys2Proof
end

