-- ==== Sys2Proof/Syntax.lean ====
section
/-! DEFINITION. The commands of SIEVE-CMD v1 (spec/30_encoding.md R73), one constructor per row of
spec/opcode_table.json. A command word carries no operand field (R72): operands are the latched LARG0 and LARG1. -/

namespace Sys2Proof

/-- The 23 commands of R73, in the table's order. -/
inductive Instr where
  | nop
  | codecMap
  | storeGet
  | scrFill
  | scrGet
  | scrSetOn
  | scrSetOff
  | scrReadWord
  | scrWriteWord
  | wheelNew
  | wheelNext
  | iterStart
  | iterSeek
  | iterNext
  | buildLimit
  | buildNprimes
  | qLimit
  | qNumPrimes
  | isPrime
  | nthPrime
  | rankFind
  | storeWord
  | clear
  deriving DecidableEq, Repr

end Sys2Proof
end

