-- ==== Sys2Proof/WellFormed.lean ====
section
/-! DEFINITION. Well-formedness: of a command word (format C, spec/30_encoding.md R70, R71), of a command, and of a
host access to the register space (spec/20_memory.md R51, R52). -/

namespace Sys2Proof

/-- The 23 opcodes of R73. -/
def assignedOpcodes : List Nat :=
  [0x00, 0x10, 0x11, 0x12, 0x13, 0x14, 0x15, 0x16, 0x17, 0x20, 0x21, 0x30, 0x31, 0x32, 0x40, 0x41,
   0x50, 0x51, 0x52, 0x53, 0x54, 0x55, 0x5F]

/-- The OPC field, bits 7:0 of a command word (R70). -/
def opcField (c : Word) : Nat := c.toNat % 256

/-- The RSV field, bits 63:8 of a command word (R70). -/
def rsvField (c : Word) : Nat := c.toNat / 256

/-- A command word is legal iff RSV is 0 and OPC is assigned (R71). -/
def commandWordWf (c : Word) : Bool := rsvField c == 0 && assignedOpcodes.contains (opcField c)

/-- Every command is well-formed: it has no operand field that could be out of range (R72). -/
def Instr.wf (_ : Instr) : Bool := true

/-- The one kind of access R52 gives a meaning: 8 bytes at an 8-byte-aligned offset. -/
def aligned64 (offset size : Nat) : Bool := size == 8 && offset % 8 == 0

/-- The register space is the 256 bytes from `REG_BASE` (R51). -/
def inRegisterSpace (regBase addr : Nat) : Bool := decide (regBase ≤ addr) && decide (addr < regBase + 256)

/-- A host access that the engine answers (R51, R52). -/
def hostAccessWf (regBase addr size : Nat) : Bool :=
  inRegisterSpace regBase addr && aligned64 (addr - regBase) size

end Sys2Proof
end

