-- ==== Sys2Proof/Decode.lean ====
section
/-! DEFINITION. Decoding a command word (spec/30_encoding.md R70, R71, R73, R74), total, rejecting by name; then the
encoder, and the byte view of a word (spec/20_memory.md R54 (b)). -/

namespace Sys2Proof

/-- Why a command word, or the bytes of one, is no command. Both kinds of illegal word complete with ERR = ILLEGAL
(R74); `truncated` is of the byte view alone: fewer than eight bytes are no command word (R76). -/
inductive DecodeError where
  | reservedBits
  | unassignedOpcode
  | truncated
  deriving DecidableEq, Repr

/-- The opcode map of R73. -/
def instrOfOpcode (opc : Nat) : Option Instr :=
  match opc with
  | 0x00 => some .nop
  | 0x10 => some .codecMap
  | 0x11 => some .storeGet
  | 0x12 => some .scrFill
  | 0x13 => some .scrGet
  | 0x14 => some .scrSetOn
  | 0x15 => some .scrSetOff
  | 0x16 => some .scrReadWord
  | 0x17 => some .scrWriteWord
  | 0x20 => some .wheelNew
  | 0x21 => some .wheelNext
  | 0x30 => some .iterStart
  | 0x31 => some .iterSeek
  | 0x32 => some .iterNext
  | 0x40 => some .buildLimit
  | 0x41 => some .buildNprimes
  | 0x50 => some .qLimit
  | 0x51 => some .qNumPrimes
  | 0x52 => some .isPrime
  | 0x53 => some .nthPrime
  | 0x54 => some .rankFind
  | 0x55 => some .storeWord
  | 0x5F => some .clear
  | _ => none

/-- Decoding a command word (R71): total, every word is a command or rejected. -/
def decode (c : Word) : Except DecodeError Instr :=
  if rsvField c ≠ 0 then .error .reservedBits
  else
    match instrOfOpcode (opcField c) with
    | some i => .ok i
    | none => .error .unassignedOpcode

/-- Byte `k` of a word: bits 8k+7 : 8k (R54 (b), little-endian). -/
def byteLane (w : Word) (k : Nat) : Byte := w.extractLsb' (8 * k) 8

/-- The eight bytes of a word, byte 0 first (R54 (b)). -/
def bytesOfWord (w : Word) : List Byte := (List.range 8).map (byteLane w)

/-- The word of its bytes, byte 0 first (R54 (b)). -/
def wordOfBytes (bytes : List Byte) : Word :=
  BitVec.ofNat 64 (bytes.foldr (fun b acc => b.toNat + 256 * acc) 0)

/-- Decoding from the byte view: one command word is always eight bytes (R76); the rest of the bytes is given back. -/
def decodeBytes (bytes : List Byte) : Except DecodeError (Instr × List Byte) :=
  if bytes.length < 8 then .error .truncated
  else (decode (wordOfBytes (bytes.take 8))).map (fun i => (i, bytes.drop 8))

/-- The command the decoder reads from an instruction whose bits are `w` (bit 0 least significant), bits from `nbits`
on being 0, laid out as the eight bytes of a command word. -/
def decodeTableWord (nbits w : Nat) : Option Instr :=
  if nbits ≤ 64 then
    match decodeBytes (bytesOfWord (BitVec.ofNat 64 (w % 2 ^ nbits))) with
    | .ok (i, _) => some i
    | .error _ => none
  else none

/-- The opcode of a command (R73). -/
def opcodeOf (i : Instr) : Nat :=
  match i with
  | .nop => 0x00
  | .codecMap => 0x10
  | .storeGet => 0x11
  | .scrFill => 0x12
  | .scrGet => 0x13
  | .scrSetOn => 0x14
  | .scrSetOff => 0x15
  | .scrReadWord => 0x16
  | .scrWriteWord => 0x17
  | .wheelNew => 0x20
  | .wheelNext => 0x21
  | .iterStart => 0x30
  | .iterSeek => 0x31
  | .iterNext => 0x32
  | .buildLimit => 0x40
  | .buildNprimes => 0x41
  | .qLimit => 0x50
  | .qNumPrimes => 0x51
  | .isPrime => 0x52
  | .nthPrime => 0x53
  | .rankFind => 0x54
  | .storeWord => 0x55
  | .clear => 0x5F

/-- The command word of a command: OPC in bits 7:0, RSV 0 (R70). -/
def encode (i : Instr) : Word := BitVec.ofNat 64 (opcodeOf i)

/-- The families of R70, named by bits 7:4 of OPC. -/
def familyNibble (i : Instr) : Nat :=
  match i with
  | .nop => 0x0
  | .codecMap | .storeGet | .scrFill | .scrGet | .scrSetOn | .scrSetOff | .scrReadWord | .scrWriteWord => 0x1
  | .wheelNew | .wheelNext => 0x2
  | .iterStart | .iterSeek | .iterNext => 0x3
  | .buildLimit | .buildNprimes => 0x4
  | .qLimit | .qNumPrimes | .isPrime | .nthPrime | .rankFind | .storeWord | .clear => 0x5

/-- How many of LARG0, LARG1 a command reads (R72, the Operands column of R73). -/
def operandCount (i : Instr) : Nat :=
  match i with
  | .nop | .wheelNext | .iterStart | .iterNext | .qLimit | .qNumPrimes | .clear => 0
  | .codecMap | .storeGet | .scrFill | .scrGet | .scrSetOn | .scrSetOff | .scrReadWord | .iterSeek
  | .buildLimit | .buildNprimes | .isPrime | .nthPrime | .rankFind | .storeWord => 1
  | .scrWriteWord | .wheelNew => 2

end Sys2Proof
end

