-- ==== Sys2Proof/Machine/Bits.lean ====
section
/-! DEFINITION. The word and number primitives of spec/00_scope.md R9 and R11. -/

namespace Sys2Proof.Machine

/-- `tz(w)`: the number of trailing zero bits (R11); used only when `w ≠ 0`, and 64 at 0. -/
def tz (w : Word) : Nat := (List.range 64).findIdx (fun b => w.getLsbD b)

/-- `popcount(w)`: the number of set bits (R11). -/
def popcount (w : Word) : Nat := (List.range 64).countP (fun b => w.getLsbD b)

/-- `clear_lowest(w) = w AND (w - 1)`, in 64 bits (R11). -/
def clearLowest (w : Word) : Word := w &&& (w - 1)

/-- `select(w, r) = tz(clear_lowest^r(w))`: the position of the r-th set bit, counting from 0 (R11). -/
def select (w : Word) : Nat → Nat
  | 0 => tz w
  | r + 1 => select (clearLowest w) r

/-- `ceil_div(a, b) = (a + b - 1) div b` (R9). -/
def ceilDiv (a b : Nat) : Nat := (a + b - 1) / b

/-- The root of `n` digit pair by digit pair; `fuel` bounds the number of base-4 digits. -/
def isqrtAux : Nat → Nat → Nat
  | 0, _ => 0
  | fuel + 1, n =>
    if n = 0 then 0
    else
      let r := 2 * isqrtAux fuel (n / 4)
      if (r + 1) * (r + 1) ≤ n then r + 1 else r

/-- `isqrt(n)`: the largest `s` with `s² ≤ n` (R9). -/
def isqrt (n : Nat) : Nat := isqrtAux n n

/-- `isPrime(n)` of R9, as a computation: n ≥ 2 with no divisor in 2..n-1. -/
def isPrimeNumber (n : Nat) : Bool :=
  decide (2 ≤ n) && (List.range n).all (fun d => decide (d < 2) || n % d != 0)

/-- The least prime among `v`, `v + 1`, ..., looking at `fuel` numbers. -/
def primeFrom : Nat → Nat → Nat
  | 0, v => v
  | fuel + 1, v => if isPrimeNumber v then v else primeFrom fuel (v + 1)

/-- The n-th prime counted from 0, by going from one prime `p` to the next, which lies in p+1..2p. -/
def primeAt : Nat → Nat
  | 0 => 2
  | n + 1 => primeFrom (primeAt n) (primeAt n + 1)

end Sys2Proof.Machine
end

