-- ==== Sys2Proof/Config.lean ====
section
/-! DEFINITION. The parameters of an engine (spec/00_scope.md R7, R8; log 5) and the free values: what the spec calls
unspecified (U1) or leaves to the implementation (U5, U7). No opaque constant here has a body, so nothing can be
proved of the value it stands for. -/

namespace Sys2Proof

/-- The parameters of R7 that an engine fixes: `SEGMENT_LEN` words per segment, `MAX_WORDS` words of prime store, the
platform's `REG_BASE` (R51), and the configuration function `NPRIMES_BOUND` (R7, R186, U5), given as the counts for
which this engine's bound is another number than the reference definition's, each with that number (the first entry of
a count holds; log 11). They never change; State carries them so that a statement about every state is one about every
engine (log 5). -/
structure Config where
  segmentLen : Nat
  maxWords : Nat
  regBase : Nat
  boundOverrides : List (Nat × Nat)
  deriving DecidableEq, Repr

/-- The largest allowed `MAX_WORDS`: floor((2^64 - 1) / 240) (R7). -/
abbrev maxWordsCap : Nat := 76861433640456465

/-- R7's bounds on the parameters, with `SEGMENT_LEN` fitting CFG_SEGLEN (R26; log 5, DEDUCED). -/
def Config.wf (c : Config) : Bool :=
  decide (1 ≤ c.segmentLen) && decide (c.segmentLen < 2 ^ 64) &&
    decide (1 ≤ c.maxWords) && decide (c.maxWords ≤ maxWordsCap)

/-- The items whose value the spec calls unspecified at some point (R41, R189, R222, R282; U1, U4, U6), and the STATUS
value a host looks at that has read none (R77; log 14). -/
inductive Item where
  | store | pfx | scr | small | ntrack | wnum | widx | itph | itw | itcur
  | res0 | res1 | status | hostStatus
  deriving DecidableEq, Repr

/-- The free draw of U1: the value of word `index` of `item` in the period that `occasion` numbers. It is fixed until
the item is next written (log 3, log 4). -/
opaque Config.draw (item : Item) (occasion index : Nat) : Word

/-- How many host steps pass between the acceptance that `occasion` numbers and its completion (R240, R290, R291, U7):
any finite number (log 2). -/
opaque Config.completionDelay (occasion : Nat) : Nat

/-- Which of the floors that the integer logarithms leave possible is the exact floor of `n·(ln n + ln ln n)`: free
(R186; log 11). -/
opaque Config.undecidedFloor (n : Nat) : Nat

/-- `SEGMENT_LEN - 1` of the engine that `State.reset` describes (R7, U9; log 5). -/
opaque Config.segmentLenLess : Fin 18446744073709551615

/-- `MAX_WORDS - 1` of the engine that `State.reset` describes (R7, U9; log 5). -/
opaque Config.maxWordsLess : Fin 76861433640456465

/-- `REG_BASE` of the engine that `State.reset` describes (R51, U8; log 5). -/
opaque Config.platformBase : Nat

/-- The counts for which the engine that `State.reset` describes departs from the reference `NPRIMES_BOUND`, with its
bounds there (R7, R186, U5; log 5, log 11). -/
opaque Config.engineOverrides : List (Nat × Nat)

/-- The parameters of the engine that `State.reset` describes: any that R7 allows. -/
def Config.engine : Config where
  segmentLen := Config.segmentLenLess.val + 1
  maxWords := Config.maxWordsLess.val + 1
  regBase := Config.platformBase
  boundOverrides := Config.engineOverrides

end Sys2Proof
end

