-- ==== Sys2Proof/Machine/State.lean ====
section
/-! DEFINITION. The state of the machine as plain data (spec/10_state.md R20-R44), the modelled host (spec/00_scope.md
R6, spec/30_encoding.md R77), the reasons a step can stop, and reset (R41, R270). -/

namespace Sys2Proof.Machine

/-- The error codes of STATUS.ERR (spec/60_exceptions.md R244); no other code is ever produced. -/
inductive Err where
  | none | illegal | noStore | state | operand | range | capacity
  deriving DecidableEq, Repr

/-- The registers of the register map (R21); `reserved` is any offset of 0x48-0xF8. -/
inductive Reg where
  | id | cmd | status | arg0 | arg1 | res0 | res1 | cfgSeglen | cfgMaxwords | reserved
  deriving DecidableEq, Repr

/-- One tracked prime (R35): the prime, its next multiple as an index local to the current segment, its wheel index. -/
structure Tracked where
  p : Nat
  nxt : Nat
  widx : BitVec 3
  deriving DecidableEq, Repr

/-- What the host is still going to do (R6, R55, R77; log 1): register writes and reads at platform addresses with a
size in bytes, WAIT, REPEAT, DO ... WHILE RV (`whileRv` stands after a body that has run once), and reset (R270). The
last argument is what follows. -/
inductive HostProg where
  | done
  | wr (addr size : Nat) (value : Word) (rest : HostProg)
  | rd (addr size : Nat) (rest : HostProg)
  | wait (rest : HostProg)
  | rep (count : Nat) (body rest : HostProg)
  | doWhileRv (body rest : HostProg)
  | whileRv (body rest : HostProg)
  | reset (rest : HostProg)
  deriving DecidableEq, Repr

/-- The machine's state: R20's items, the parameters it is about (log 5), and the model's own fields at the end. -/
structure State where
  /-- The engine's parameters (R7, R26, R51); never written. -/
  cfg : Config
  /-- STATUS.BUSY (R23, R28): the engine phase. -/
  busy : Bool
  /-- The facade register READY (R30), mirrored by STATUS.READY. -/
  ready : Bool
  /-- STATUS.RV, result valid (R23). -/
  rv : Bool
  /-- STATUS.ITV, decoder cursor valid (R37). -/
  itv : Bool
  /-- STATUS.WV, wheel unit valid (R36). -/
  wv : Bool
  /-- STATUS.OVR, sticky command overrun (R241). -/
  ovr : Bool
  /-- STATUS.FATAL, sticky (R247). -/
  fatal : Bool
  /-- STATUS.ERR (R244). -/
  err : Err
  /-- Operand registers (R22). -/
  arg0 : Word
  arg1 : Word
  /-- Result registers (R24). -/
  res0 : Word
  res1 : Word
  /-- The command latch (R29). -/
  lcmd : Word
  larg0 : Word
  larg1 : Word
  /-- Facade registers (R30). -/
  limit : Word
  nwords : Word
  /-- STORE (R31): the words held, word `i` at position `i` (log 6). -/
  store : List Word
  /-- PFX (R32): the entries held (log 6). -/
  pfx : List Word
  /-- SCR (R33): all `SEGMENT_LEN` words. -/
  scr : List Word
  /-- SMALL (R34): the words held, none between commands (log 7). -/
  small : List Word
  /-- TRACK (R35): the entries held, none between commands (log 7). -/
  track : List Tracked
  /-- NTRACK (R35). -/
  ntrack : Nat
  /-- The host wheel unit (R36). -/
  wnum : Word
  widx : BitVec 3
  /-- The decoder cursor (R37). -/
  itph : BitVec 2
  itw : Word
  itcur : Word
  /-- The model's own: host steps still to pass before the command in flight completes (U7; log 2). -/
  delay : Nat
  /-- The model's own: numbers the next occasion on which items become unspecified (U1; log 3). -/
  draws : Nat
  /-- The model's own: what the host still does (log 1). -/
  host : HostProg
  /-- The model's own: every register read the host has made, the latest first, by the name of its register, with the
  value read (R77; log 14). -/
  reads : List (Reg × Word)
  deriving DecidableEq, Repr

/-- Why the machine stops with a fault. -/
inductive Fault where
  /-- Raised by a host access whose address lies outside the 256 bytes at REG_BASE (R51): it is no access to the
  engine, and the spec gives it no outcome. Safe: the model stops where the platform would go on. -/
  | outsideRegisterSpace (addr : Nat)
  deriving DecidableEq, Repr

/-- Why the model has no transition. -/
inductive Refusal where
  /-- Raised by an arm of `exec` for a command that has no meaning yet. Safe. -/
  | notModelled (mnemonic : String)
  /-- Raised by a host access that is not 8 bytes at an 8-byte-aligned offset, which R52 and U2 refuse. Safe. -/
  | notAligned64 (offset size : Nat)
  deriving DecidableEq, Repr

/-- The free draws of `n` words of an array (U1). -/
def drawWords (item : Item) (occasion n : Nat) : List Word := (List.range n).map (Config.draw item occasion)

/-- The state right after a reset (R41, R270): every item the table names at its value, every unspecified one a free
draw of `occasion` (log 3); `host` and `reads` belong to the host, which this reset does not touch. -/
def State.afterReset (cfg : Config) (occasion : Nat) (host : HostProg) (reads : List (Reg × Word)) : State where
  cfg := cfg
  busy := false
  ready := false
  rv := false
  itv := false
  wv := false
  ovr := false
  fatal := false
  err := .none
  arg0 := 0
  arg1 := 0
  res0 := 0
  res1 := 0
  lcmd := 0
  larg0 := 0
  larg1 := 0
  limit := 0
  nwords := 0
  store := []
  pfx := []
  scr := drawWords .scr occasion cfg.segmentLen
  small := []
  track := []
  ntrack := (Config.draw .ntrack occasion 0).toNat
  wnum := Config.draw .wnum occasion 0
  widx := (Config.draw .widx occasion 0).setWidth 3
  itph := (Config.draw .itph occasion 0).setWidth 2
  itw := Config.draw .itw occasion 0
  itcur := Config.draw .itcur occasion 0
  delay := 0
  draws := occasion + 1
  host := host
  reads := reads

/-- The machine right after reset, for the engine that `Config.engine` describes, with a host that does nothing. -/
def State.reset : State := State.afterReset Config.engine 0 .done []

end Sys2Proof.Machine
end

