-- ==== Sys2Proof/Machine/Flags.lean ====
section
/-! DEFINITION. The STATUS register: its fields, its layout, its one writable bit (spec/10_state.md R23, R39, R44;
spec/60_exceptions.md R244; spec/70_reset_and_hazards.md R282). -/

namespace Sys2Proof.Machine

/-- The code of an error (R244). -/
def Err.code (e : Err) : Nat :=
  match e with
  | .none => 0x00
  | .illegal => 0x01
  | .noStore => 0x02
  | .state => 0x03
  | .operand => 0x04
  | .range => 0x05
  | .capacity => 0x06

/-- The STATUS layout of R23: bit 7 and bits 63:16 are 0 (R44). -/
def packStatus (busy ready rv itv wv ovr fatal : Bool) (err : Nat) : Word :=
  BitVec.ofNat 64 (busy.toNat + 2 * ready.toNat + 4 * rv.toNat + 8 * itv.toNat + 16 * wv.toNat +
    32 * ovr.toNat + 64 * fatal.toNat + 256 * (err % 256))

/-- What a read of STATUS returns (R23). While BUSY = 1, RV, ITV, WV and ERR are free draws of the command in flight
(R282, U1; log 4), READY is still its value before the command, OVR and FATAL are current. -/
def statusWord (s : State) : Word :=
  if s.busy then
    let d := Config.draw .status s.draws 0
    packStatus true s.ready (d.getLsbD 2) (d.getLsbD 3) (d.getLsbD 4) s.ovr s.fatal (d.toNat / 256)
  else packStatus false s.ready s.rv s.itv s.wv s.ovr s.fatal s.err.code

/-- A host write of STATUS: bit 5 = 1 clears OVR, nothing else is writable (R23, R53). -/
def writeStatus (s : State) (v : Word) : State :=
  if v.getLsbD 5 then { s with ovr := false } else s

end Sys2Proof.Machine
end

