-- ==== Sys2Proof/Machine/Operands.lean ====
section
/-! DEFINITION. The operand forms (spec/30_encoding.md R72): full 64-bit unsigned values from the latch, never from
ARG0 and ARG1 (spec/10_state.md R29). -/

namespace Sys2Proof.Machine

/-- The first operand as a number (R9: unsigned). -/
def operand0 (s : State) : Nat := s.larg0.toNat

/-- The second operand as a number. -/
def operand1 (s : State) : Nat := s.larg1.toNat

/-- The first operand as a word. -/
def operandWord0 (s : State) : Word := s.larg0

/-- The second operand as a word. -/
def operandWord1 (s : State) : Word := s.larg1

end Sys2Proof.Machine
end

