-- ==== Sys2Proof/Machine/Ops.lean ====
section
/-! DEFINITION. The shared operations: how a command completes, and how it ends in an error (spec/60_exceptions.md
R240, R242, R244, R250); the codec (spec/40_codec.md R101-R106); the wheel generator (spec/41_wheel.md R131, R132,
R136); the decoder (spec/42_decoder.md R151); the facade's primality and rank functions (spec/44_facade.md R214-R217,
R221, R223). -/

namespace Sys2Proof.Machine

/-! ## Completion and errors -/

/-- `raise Error(code)` (R242, R244, R250): the one shared way to end in an error. ERR takes the code, RV and BUSY
fall, nothing else changes; there is no saved state, no vector and no return (R251). -/
def raise (e : Err) (s : State) : State := { s with err := e, rv := false, busy := false }

/-- Completion without error of a command that names no result: RV ← 0, RES0 and RES1 unchanged (R24, R39, R240). -/
def finish (s : State) : State := { s with err := .none, rv := false, busy := false }

/-- Completion with a determined result (R24, R39). -/
def finishWith (r0 r1 : Word) (s : State) : State :=
  { s with res0 := r0, res1 := r1, err := .none, rv := true, busy := false }

/-- `INDET`: completion with an indeterminate result, or of an exhausted iterator (R24, R248). -/
def finishIndet (s : State) : State :=
  { s with res0 := 0, res1 := 0, err := .none, rv := false, busy := false }

/-- The check `if READY = 0: raise Error(NOSTORE)` (R210, R244). -/
def withStore (s : State) (go : State) : State := if s.ready then go else raise .noStore s

/-- A number as a result word; every result a rule names is below 2^64 where the machine's invariants hold (log 16). -/
def word (n : Nat) : Word := BitVec.ofNat 64 n

/-- A truth value as the result 0 or 1 (R104, R215). -/
def bitWord (b : Bool) : Word := if b then 1 else 0

/-! ## Word arrays -/

/-- Word `i` of an array: the word held there, or else the free draw of a word that no rule reads (log 6). -/
def wordAt (item : Item) (a : List Word) (i : Nat) : Word := a.getD i (Config.draw item 0 i)

/-! ## The codec -/

/-- `RESID` (R102): the residues mod 30 coprime to 30, ascending. -/
def residTable : List Nat := [1, 7, 11, 13, 17, 19, 23, 29]

/-- `OFFSET[b] = 30·(b div 8) + RESID[b mod 8]` (R102). -/
def offset (b : Nat) : Nat := 30 * (b / 8) + residTable.getD (b % 8) 0

/-- `BITMAP[r]` (R102): `2^b` when `r = OFFSET[b]`, 0 when r is not coprime to 30. -/
def bitmap (r : Nat) : Word :=
  match residTable.findIdx? (fun x => x == r % 30) with
  | some k => 1#64 <<< (8 * (r / 30) + k)
  | none => 0

/-- `representable(idx)` (R101). -/
def representable (idx : Nat) : Bool := Nat.gcd (idx % 240) 30 == 1

/-- `map(idx)` (R103): word index and bit mask. -/
def codecMap (idx : Nat) : Nat × Word := (idx / 240, bitmap (idx % 240))

/-- `get(A, idx)` (R104). -/
def codecGet (item : Item) (a : List Word) (idx : Nat) : Bool :=
  if (codecMap idx).2 = 0 then false else wordAt item a (codecMap idx).1 &&& (codecMap idx).2 != 0

/-- `set_on(A, idx)` (R105). -/
def codecSetOn (a : List Word) (idx : Nat) : List Word :=
  if (codecMap idx).2 = 0 then a else a.modify (codecMap idx).1 (fun w => w ||| (codecMap idx).2)

/-- `set_off(A, idx)` (R106). -/
def codecSetOff (a : List Word) (idx : Nat) : List Word :=
  if (codecMap idx).2 = 0 then a else a.modify (codecMap idx).1 (fun w => w &&& ~~~(codecMap idx).2)

/-! ## The wheel generator -/

/-- `GAP` (R131). -/
def gapTable : List Nat := [6, 4, 2, 4, 2, 4, 6, 2]

/-- `GAP[wi]`. -/
def gap (wi : BitVec 3) : Nat := gapTable.getD wi.toNat 0

/-- `pos(k)` (R132), for k coprime to 30: the index of `k mod 30` in RESID. -/
def wheelPos (k : Nat) : BitVec 3 := BitVec.ofNat 3 (residTable.findIdx (fun x => x == k % 30))

/-- `wheel_init(p, m) = pos((m div p) mod 30)` (R136). -/
def wheelInit (p m : Nat) : BitVec 3 := wheelPos (m / p % 30)

/-- `wheel_step(p, wi) = (GAP[wi]·p, (wi + 1) mod 8)` (R136). -/
def wheelStep (p : Nat) (wi : BitVec 3) : Nat × BitVec 3 := (gap wi * p, wi + 1)

/-- `floor((2^64 - 1) / 6)`, the largest base of the host wheel unit (R133). -/
def wheelBaseCap : Nat := 3074457345618258602

/-! ## The decoder -/

/-- What a decode step returns (R151): `VALUE(v, w', cur')` or `END(w', cur')`. -/
inductive Decoded where
  | value (v w : Nat) (cur : Word)
  | ended (w : Nat) (cur : Word)
  deriving DecidableEq, Repr

/-- `dec_next` (R151) with `fuel` words still allowed to be skipped. -/
def decNextFrom (item : Item) (a : List Word) (n : Nat) : Nat → Nat → Word → Decoded
  | 0, w, cur =>
    if cur = 0 then .ended n 0 else .value (240 * w + offset (tz cur)) w (clearLowest cur)
  | fuel + 1, w, cur =>
    if cur = 0 then
      if w + 1 ≥ n then .ended n 0
      else decNextFrom item a n fuel (w + 1) (wordAt item a (w + 1))
    else .value (240 * w + offset (tz cur)) w (clearLowest cur)

/-- `dec_next(A, N, w, cur)` (R151); its loop runs at most `N - w` times. -/
def decNext (item : Item) (a : List Word) (n w : Nat) (cur : Word) : Decoded :=
  decNextFrom item a n (n - w) w cur

/-- The values a decoder yields from a cursor on, at most `fuel` of them. -/
def decodeFrom (item : Item) (a : List Word) (n : Nat) : Nat → Nat → Word → List Nat
  | 0, _, _ => []
  | fuel + 1, w, cur =>
    match decNext item a n w cur with
    | .value v w' cur' => v :: decodeFrom item a n fuel w' cur'
    | .ended _ _ => []

/-- The cursor's unconsumed bits at the start of word `i`: 0 at `i = N` (R151, R152, R153). -/
def cursorWord (item : Item) (a : List Word) (n i : Nat) : Word := if i < n then wordAt item a i else 0

/-- The whole sequence a decoder over `N` words yields from word 0 (R150, R159): at most 64 values a word. -/
def decodeAll (item : Item) (a : List Word) (n : Nat) : List Nat :=
  decodeFrom item a n (64 * n) 0 (cursorWord item a n 0)

/-! ## The facade's functions -/

/-- `IMPLICIT` (R223). -/
def implicitPrimes : List Nat := [2, 3, 5]

/-- `TOTAL` (R32). -/
def totalPrimes (s : State) : Nat :=
  if 0 < s.nwords.toNat then (wordAt .pfx s.pfx (s.nwords.toNat - 1)).toNat else 0

/-- The trial-division loop of R216 over a sequence of divisors. -/
def trialBy (n : Nat) : List Nat → Bool
  | [] => true
  | p :: ps => if p * p > n then true else if n % p = 0 then false else trialBy n ps

/-- `trial(n)` (R216): over 2, 3, 5 and then the store's values, by a private cursor. -/
def trial (s : State) (n : Nat) : Bool :=
  if n < 2 then false else trialBy n (implicitPrimes ++ decodeAll .store s.store s.nwords.toNat)

/-- `isp(n)` (R214): `some b` is DET(b), `none` is INDET. -/
def primality (s : State) (n : Nat) : Option Bool :=
  if implicitPrimes.contains n then some true
  else if n < s.limit.toNat then some (codecGet .store s.store n)
  else if n ≤ s.limit.toNat * s.limit.toNat then some (trial s n)
  else none

/-- The least `i < n` with `PFX[i] > m` (R217). -/
def rankIndex (pfx : List Word) (n m : Nat) : Option Nat :=
  (List.range n).find? (fun i => decide (m < (wordAt .pfx pfx i).toNat))

/-- `rank_find(m)` (R217); there is an answer whenever `m < TOTAL`. -/
def rankFind (s : State) (m : Nat) : Option (Nat × Nat) :=
  match rankIndex s.pfx s.nwords.toNat m with
  | some i => some (i, m - (if 0 < i then (wordAt .pfx s.pfx (i - 1)).toNat else 0))
  | none => none

/-- The loop of the reference binary search (R221), `fuel` bounding its probes. -/
def rankSearchLoop (pfx : List Word) (m : Nat) : Nat → Nat → Nat → Nat
  | 0, lo, _ => lo
  | fuel + 1, lo, hi =>
    if lo < hi then
      if m < (wordAt .pfx pfx ((lo + hi) / 2)).toNat then rankSearchLoop pfx m fuel lo ((lo + hi) / 2)
      else rankSearchLoop pfx m fuel ((lo + hi) / 2 + 1) hi
    else lo

/-- The reference binary search of R221 (informative: only its result counts). -/
def rankSearch (pfx : List Word) (n m : Nat) : Nat := rankSearchLoop pfx m n 0 (n - 1)

end Sys2Proof.Machine
end

