-- ==== Sys2Proof/Machine/Construction.lean ====
section
/-! DEFINITION. The segmented sieve constructor and the prefix-count index (spec/43_sieve_build.md R172-R185), step by
step in the source's order (R184). -/

namespace Sys2Proof.Machine

/-! ## Sizes -/

/-- `W` of R172. -/
def storeWords (limit : Nat) : Nat := ceilDiv limit 240

/-- `S` of R173 and R174, from the number of store words: `isqrt(240·W) div 240 + 1`. -/
def smallWords (w : Nat) : Nat := isqrt (240 * w) / 240 + 1

/-- `SMALL_MAX` (R8). -/
def smallMax (c : Config) : Nat := isqrt (240 * c.maxWords) / 240 + 1

/-- `TRACK_MAX` (R8). -/
def trackMax (c : Config) : Nat := 64 * smallMax c

/-- `L` of R177: numbers per segment, which is also SCR_NUMS of R112. -/
def segmentNumbers (c : Config) : Nat := 240 * c.segmentLen

/-- `NSEG` of R177. -/
def segmentCount (c : Config) (w : Nat) : Nat := ceilDiv w c.segmentLen

/-! ## Crossing off -/

/-- The crossing loop of R175 and R179, bound tested before every write: from `nxt` and wheel index `wi`, clear the
multiples of `p` below `bound`. Gives the array, and where the loop stopped. `fuel` bounds its turns. -/
def crossOff (bound p : Nat) : Nat → Nat → BitVec 3 → List Word → List Word × Nat × BitVec 3
  | 0, nxt, wi, a => (a, nxt, wi)
  | fuel + 1, nxt, wi, a =>
    if nxt < bound then
      crossOff bound p fuel (nxt + (wheelStep p wi).1) (wheelStep p wi).2 (codecSetOff a nxt)
    else (a, nxt, wi)

/-- An array of `n` words reset to all-ones, the value 1 force-cleared where `first` says so (R175, R180). -/
def freshWords (n : Nat) (first : Bool) : List Word :=
  if first then (List.replicate n ones).modify 0 (fun w => w &&& ~~~1#64) else List.replicate n ones

/-! ## The small sieve -/

/-- The ascending pass of R175: read cursor `v`, crossings from `v²` on. -/
def smallPass (hi : Nat) : Nat → Nat → List Word → List Word
  | 0, _, a => a
  | fuel + 1, v, a =>
    if v * v < hi then
      smallPass hi fuel (v + 1)
        (if codecGet .small a v then (crossOff hi v hi (v * v) (wheelInit v (v * v)) a).1 else a)
    else a

/-- The small sieve over `n` words (R175). -/
def smallSieve (n : Nat) : List Word := smallPass (240 * n) (240 * n) 7 (freshWords n true)

/-- R175 as a write of SMALL. -/
def buildSmall (w : Nat) (s : State) : State := { s with small := smallSieve (smallWords w) }

/-- `SP` (R176): the small primes, decoded from SMALL. -/
def smallPrimes (w : Nat) (s : State) : List Nat := decodeAll .small s.small (smallWords w)

/-! ## Segments -/

/-- Step 3a (R178): pull every small prime with `p² < hi`, seeded at `p²`. `sp` is the part of SP from the private
index `k` on; what is left of it comes back with the table. -/
def pullPrimes (lo hi : Nat) : List Nat → List Tracked → List Nat × List Tracked
  | [], track => ([], track)
  | p :: sp, track =>
    if p * p < hi then
      pullPrimes lo hi sp (track ++ [Tracked.mk p (p * p - lo) (wheelInit p (p * p))])
    else (p :: sp, track)

/-- Step 3b (R179) for one tracked prime: cross off, then rebase for the next segment. -/
def crossTracked (len : Nat) (t : Tracked) (scr : List Word) : List Word × Tracked :=
  let r := crossOff len t.p len t.nxt t.widx scr
  (r.1, Tracked.mk t.p (r.2.1 - len) r.2.2)

/-- Step 3b (R179), in table order. -/
def crossAll (len : Nat) : List Tracked → List Word → List Word × List Tracked
  | [], scr => (scr, [])
  | t :: ts, scr =>
    let r := crossTracked len t scr
    let rest := crossAll len ts r.1
    (rest.1, r.2 :: rest.2)

/-- One segment (R184): reset SCR (R180), pull (R178), cross (R179), append (R181). Gives the rest of SP. -/
def buildSegment (w seg : Nat) (sp : List Nat) (s : State) : List Nat × State :=
  let len := segmentNumbers s.cfg
  let pulled := pullPrimes (seg * len) (seg * len + len) sp s.track
  let crossed := crossAll len pulled.2 (freshWords s.cfg.segmentLen (seg == 0))
  (pulled.1,
    { s with
      scr := crossed.1
      track := crossed.2
      ntrack := crossed.2.length
      store := s.store ++ crossed.1.take (min s.cfg.segmentLen (w - seg * s.cfg.segmentLen)) })

/-- Segments `seg`, `seg + 1`, ..., `count` of them, in increasing order (R177). -/
def buildSegments (w : Nat) : Nat → Nat → List Nat → State → State
  | 0, _, _, s => s
  | count + 1, seg, sp, s =>
    buildSegments w count (seg + 1) (buildSegment w seg sp s).1 (buildSegment w seg sp s).2

/-! ## The index and the whole build -/

/-- The prefix counts of R182 from a running count on. -/
def prefixCounts : Nat → List Word → List Word
  | _, [] => []
  | acc, x :: xs => word (acc + popcount x) :: prefixCounts (acc + popcount x) xs

/-- R182 as a write of PFX. -/
def buildIndex (s : State) : State := { s with pfx := prefixCounts 0 s.store }

/-- Before segment 0: no store word yet, NTRACK ← 0 (R177). -/
def startBuild (s : State) : State := { s with store := [], pfx := [], track := [], ntrack := 0 }

/-- Steps R175-R182 in order (R184). -/
def constructStore (w : Nat) (s : State) : State :=
  let s1 := buildSmall w (startBuild s)
  buildIndex (buildSegments w (segmentCount s.cfg w) 0 (smallPrimes w s1) s1)

/-- Completion of a successful build (R183), after which SCR, SMALL, TRACK and NTRACK are unspecified (R189; U6;
log 3, log 7). -/
def publishStore (w : Nat) (s : State) : State :=
  finish { s with
    limit := word (240 * w)
    nwords := word w
    ready := true
    scr := drawWords .scr s.draws s.cfg.segmentLen
    small := []
    track := []
    ntrack := (Config.draw .ntrack s.draws 0).toNat
    draws := s.draws + 1 }

/-- `build(limit)` (R171-R183): the CAPACITY check before any write, then the steps. -/
def build (limit : Nat) (s : State) : State :=
  if storeWords limit > s.cfg.maxWords then raise .capacity s
  else publishStore (storeWords limit) (constructStore (storeWords limit) s)

end Sys2Proof.Machine
end

