-- ==== Sys2Proof/Machine/NprimesBound.lean ====
section
/-! DEFINITION. `NPRIMES_BOUND` (spec/43_sieve_build.md R186): a configuration function (R7), which is its
reference definition but for the counts that an engine overrides (U5; log 11). The reference is evaluated in integer
arithmetic between a lower and an upper bound, with logarithms scaled by 2^192. -/

namespace Sys2Proof.Machine

/-- That `f` is the reference definition of R186, over the reals. -/
def isReferenceBound (f : Nat → Nat) : Prop :=
  ∀ n, f n = if n ≤ 5 then 11 else ⌊(n : ℝ) * (Real.log n + Real.log (Real.log n))⌋₊

/-! ## Logarithms between integers

`ln n = 2·k·artanh(1/3) + 2·artanh((n - 2^k)/(n + 2^k))` for `k = log2 n`, and `artanh x = x + x³/3 + x⁵/5 + ...`. -/

/-- The first terms of the series at `a/b`, each rounded down. -/
def seriesLo (a b : Nat) : Nat → Nat
  | 0 => 0
  | i + 1 => seriesLo a b i + 2 ^ 192 * a ^ (2 * i + 1) / ((2 * i + 1) * b ^ (2 * i + 1))

/-- The first terms of the series at `a/b`, each rounded up. -/
def seriesHi (a b : Nat) : Nat → Nat
  | 0 => 0
  | i + 1 => seriesHi a b i + (2 ^ 192 * a ^ (2 * i + 1) / ((2 * i + 1) * b ^ (2 * i + 1)) + 1)

/-- At most `2^192 · artanh(a/b)`, for `a < b`: sixty-one terms. -/
def artanhLo (a b : Nat) : Nat := seriesLo a b 61

/-- At least `2^192 · artanh(a/b)`, for `a < b`: sixty-one terms and a bound on all the others. -/
def artanhHi (a b : Nat) : Nat := seriesHi a b 61 + (2 ^ 192 * a ^ 123 / (b ^ 121 * (b ^ 2 - a ^ 2)) + 1)

/-- At most `2^192 · ln n`, for n ≥ 1. -/
def lnLo (n : Nat) : Nat :=
  2 * (n.log2 * artanhLo 1 3 + artanhLo (n - 2 ^ n.log2) (n + 2 ^ n.log2))

/-- At least `2^192 · ln n`, for n ≥ 1. -/
def lnHi (n : Nat) : Nat :=
  2 * (n.log2 * artanhHi 1 3 + artanhHi (n - 2 ^ n.log2) (n + 2 ^ n.log2))

/-- At most `2^192 · ln ln n`, for n ≥ 3: the logarithm of the scaled one, less that of the scale. -/
def lnLnLo (n : Nat) : Nat := lnLo (lnLo n) - 192 * lnHi 2

/-- At least `2^192 · ln ln n`, for n ≥ 3. -/
def lnLnHi (n : Nat) : Nat := lnHi (lnHi n) - 192 * lnLo 2

/-! ## The bound -/

/-- At most `n·(ln n + ln ln n)`, rounded down. -/
def boundLo (n : Nat) : Nat := n * (lnLo n + lnLnLo n) / 2 ^ 192

/-- At least `n·(ln n + ln ln n)`, rounded down. -/
def boundHi (n : Nat) : Nat := n * (lnHi n + lnLnHi n) / 2 ^ 192

/-- The reference floor for n ≥ 6 (R186): the one floor that the two bounds leave, or a free number between them where
they leave more than one (log 11). -/
def referenceFloor (n : Nat) : Nat :=
  if boundLo n = boundHi n then boundLo n
  else boundLo n + Config.undecidedFloor n % (boundHi n - boundLo n + 1)

/-- The reference definition of `NPRIMES_BOUND` (R186). -/
def referenceBound (n : Nat) : Nat := if n ≤ 5 then 11 else referenceFloor n

/-- The required property of R186: for n ≥ 1 no bound lies below the n-th prime counted from 1. -/
def atLeastNthPrime (n b : Nat) : Nat := if n = 0 then b else max (primeAt (n - 1)) b

/-- `NPRIMES_BOUND(n)` of the engine with parameters `c` (R7, R186, U5): its own number for the counts it overrides,
the reference definition for all others, and never below the n-th prime (log 11). -/
def nprimesBound (c : Config) (n : Nat) : Nat :=
  atLeastNthPrime n ((c.boundOverrides.lookup n).getD (referenceBound n))

end Sys2Proof.Machine
end

