-- ==== Sys2Proof/Machine/Build.lean ====
section
/-! DEFINITION. The construction family (spec/43_sieve_build.md R171, R187). -/

namespace Sys2Proof.Machine

/-- BUILD_LIMIT (R171): only from EMPTY. -/
def execBuildLimit (s : State) : Host.Outcome State Fault Refusal :=
  .next (if s.ready then raise .state s else build (operand0 s) s)

/-- BUILD_NPRIMES (R187): as BUILD_LIMIT, to the unbounded number `NPRIMES_BOUND(n)`. -/
def execBuildNprimes (s : State) : Host.Outcome State Fault Refusal :=
  .next (if s.ready then raise .state s else build (nprimesBound s.cfg (operand0 s)) s)

end Sys2Proof.Machine
end

