-- ==== Sys2Proof/Machine/Codec.lean ====
section
/-! DEFINITION. The codec family (spec/40_codec.md R109-R118). -/

namespace Sys2Proof.Machine

/-- CODEC_MAP (R109). -/
def execCodecMap (s : State) : Host.Outcome State Fault Refusal :=
  .next (finishWith (word (codecMap (operand0 s)).1) (codecMap (operand0 s)).2 s)

/-- STORE_GET (R110). -/
def execStoreGet (s : State) : Host.Outcome State Fault Refusal :=
  .next (withStore s
    (if operand0 s ≥ s.limit.toNat then raise .range s
     else finishWith (bitWord (codecGet .store s.store (operand0 s))) 0 s))

/-- SCR_FILL (R113). -/
def execScrFill (s : State) : Host.Outcome State Fault Refusal :=
  .next (finish { s with scr := List.replicate s.cfg.segmentLen (operandWord0 s) })

/-- The check of a scratch number index: RANGE when `idx ≥ SCR_NUMS` (R112, R245). -/
def withScratchIndex (s : State) (go : State) : State :=
  if operand0 s ≥ segmentNumbers s.cfg then raise .range s else go

/-- The check of a scratch word index: RANGE when `j ≥ SEGMENT_LEN` (R112, R245). -/
def withScratchWord (s : State) (go : State) : State :=
  if operand0 s ≥ s.cfg.segmentLen then raise .range s else go

/-- SCR_GET (R114). -/
def execScrGet (s : State) : Host.Outcome State Fault Refusal :=
  .next (withScratchIndex s (finishWith (bitWord (codecGet .scr s.scr (operand0 s))) 0 s))

/-- SCR_SET_ON (R115). -/
def execScrSetOn (s : State) : Host.Outcome State Fault Refusal :=
  .next (withScratchIndex s (finish { s with scr := codecSetOn s.scr (operand0 s) }))

/-- SCR_SET_OFF (R116). -/
def execScrSetOff (s : State) : Host.Outcome State Fault Refusal :=
  .next (withScratchIndex s (finish { s with scr := codecSetOff s.scr (operand0 s) }))

/-- SCR_READ_WORD (R117). -/
def execScrReadWord (s : State) : Host.Outcome State Fault Refusal :=
  .next (withScratchWord s (finishWith (wordAt .scr s.scr (operand0 s)) 0 s))

/-- SCR_WRITE_WORD (R118). -/
def execScrWriteWord (s : State) : Host.Outcome State Fault Refusal :=
  .next (withScratchWord s (finish { s with scr := s.scr.set (operand0 s) (operandWord1 s) }))

end Sys2Proof.Machine
end

