-- ==== Sys2Proof/Machine/Control.lean ====
section
/-! DEFINITION. The control family: NOP (spec/44_facade.md R211). -/

namespace Sys2Proof.Machine

/-- NOP (R211): completes with RV = 0 and ERR = 0. -/
def execNop (s : State) : Host.Outcome State Fault Refusal := .next (finish s)

end Sys2Proof.Machine
end

