-- ==== Sys2Proof/Machine/Decoder.lean ====
section
/-! DEFINITION. The decoder and iterator family (spec/42_decoder.md R152-R156). -/

namespace Sys2Proof.Machine

/-- ITER_START (R152). -/
def execIterStart (s : State) : Host.Outcome State Fault Refusal :=
  .next (withStore s (finish { s with
    itph := 0
    itw := 0
    itcur := cursorWord .store s.store s.nwords.toNat 0
    itv := true }))

/-- ITER_SEEK (R153). -/
def execIterSeek (s : State) : Host.Outcome State Fault Refusal :=
  .next (withStore s
    (if operand0 s > s.nwords.toNat then raise .range s
     else finish { s with
       itph := 3
       itw := operandWord0 s
       itcur := cursorWord .store s.store s.nwords.toNat (operand0 s)
       itv := true }))

/-- The decode step of ITER_NEXT (R155). -/
def iterDecode (s : State) : State :=
  match decNext .store s.store s.nwords.toNat s.itw.toNat s.itcur with
  | .value v w cur => finishWith (word v) 0 { s with itw := word w, itcur := cur }
  | .ended w cur => finishIndet { s with itw := word w, itcur := cur }

/-- ITER_NEXT (R154): phases 0 to 2 give the implicit primes, phase 3 decodes. -/
def execIterNext (s : State) : Host.Outcome State Fault Refusal :=
  .next (withStore s
    (if s.itv then
      if s.itph.toNat < 3 then
        finishWith (word (implicitPrimes.getD s.itph.toNat 0)) 0 { s with itph := s.itph + 1 }
      else iterDecode s
    else raise .state s))

end Sys2Proof.Machine
end

