-- ==== Sys2Proof/Machine/Facade.lean ====
section
/-! DEFINITION. The facade queries and lifecycle (spec/44_facade.md R212-R222). -/

namespace Sys2Proof.Machine

/-- Q_LIMIT (R212). -/
def execQLimit (s : State) : Host.Outcome State Fault Refusal :=
  .next (withStore s (finishWith s.limit s.nwords s))

/-- Q_NUM_PRIMES (R213). -/
def execQNumPrimes (s : State) : Host.Outcome State Fault Refusal :=
  .next (withStore s (finishWith (word (3 + totalPrimes s)) (word (totalPrimes s)) s))

/-- IS_PRIME (R215). -/
def execIsPrime (s : State) : Host.Outcome State Fault Refusal :=
  .next (withStore s
    (match primality s (operand0 s) with
     | some b => finishWith (bitWord b) 0 s
     | none => finishIndet s))

/-- The value NTH_PRIME computes from a rank (R218). -/
def primeAtRank (s : State) (r : Nat × Nat) : Nat := 240 * r.1 + offset (select (wordAt .store s.store r.1) r.2)

/-- NTH_PRIME (R218), counting from 0. -/
def execNthPrime (s : State) : Host.Outcome State Fault Refusal :=
  .next (withStore s
    (if operand0 s < 3 then finishWith (word (implicitPrimes.getD (operand0 s) 0)) 0 s
     else if operand0 s - 3 ≥ totalPrimes s then finishIndet s
     else
       match rankFind s (operand0 s - 3) with
       | some r => finishWith (word (primeAtRank s r)) 0 s
       | none => finishIndet s))

/-- RANK_FIND (R219). -/
def execRankFind (s : State) : Host.Outcome State Fault Refusal :=
  .next (withStore s
    (if operand0 s ≥ totalPrimes s then finishIndet s
     else
       match rankFind s (operand0 s) with
       | some r => finishWith (word r.1) (word r.2) s
       | none => finishIndet s))

/-- STORE_WORD (R220). -/
def execStoreWord (s : State) : Host.Outcome State Fault Refusal :=
  .next (withStore s
    (if operand0 s ≥ s.nwords.toNat then raise .range s
     else finishWith (wordAt .store s.store (operand0 s)) (wordAt .pfx s.pfx (operand0 s)) s))

/-- CLEAR (R222): back to EMPTY. STORE and PFX become unspecified: no word of them is held (U4; log 6). -/
def execClear (s : State) : Host.Outcome State Fault Refusal :=
  .next (finish { s with ready := false, limit := 0, nwords := 0, itv := false, store := [], pfx := [] })

end Sys2Proof.Machine
end

