-- ==== Sys2Proof/Machine/Wheel.lean ====
section
/-! DEFINITION. The wheel family (spec/41_wheel.md R133, R134). -/

namespace Sys2Proof.Machine

/-- The operand checks of WHEEL_NEW that need `num ≠ 0` first: the generator's domain (R133). -/
def wheelOperandsOk (num mult : Nat) : Bool :=
  decide (num ≠ 0) && decide (num ≤ wheelBaseCap) && decide (mult % num = 0) &&
    decide (Nat.gcd (mult / num) 30 = 1)

/-- WHEEL_NEW (R133): the start index is that of the multiplier `mult div num` (R132, 90_conflicts.md C1). -/
def execWheelNew (s : State) : Host.Outcome State Fault Refusal :=
  .next
    (if wheelOperandsOk (operand0 s) (operand1 s) then
      finish { s with wnum := operandWord0 s, widx := wheelPos (operand1 s / operand0 s), wv := true }
    else raise .operand s)

/-- WHEEL_NEXT (R134): the gap at the current index, then the index advances mod 8. -/
def execWheelNext (s : State) : Host.Outcome State Fault Refusal :=
  .next
    (if s.wv then
      finishWith (word (gap s.widx * s.wnum.toNat)) (s.widx.setWidth 64) { s with widx := s.widx + 1 }
    else raise .state s)

end Sys2Proof.Machine
end

