-- ==== Sys2Proof/Machine/Dispatch.lean ====
section
/-! DEFINITION. The completion of a command, dispatched to its meaning (spec/30_encoding.md R73, spec/60_exceptions.md
R240 (b)). -/

namespace Sys2Proof.Machine

def exec (i : Instr) (s : State) : Host.Outcome State Fault Refusal :=
  match i with
  | .nop => Sys2Proof.Machine.execNop s
  | .codecMap => Sys2Proof.Machine.execCodecMap s
  | .storeGet => Sys2Proof.Machine.execStoreGet s
  | .scrFill => Sys2Proof.Machine.execScrFill s
  | .scrGet => Sys2Proof.Machine.execScrGet s
  | .scrSetOn => Sys2Proof.Machine.execScrSetOn s
  | .scrSetOff => Sys2Proof.Machine.execScrSetOff s
  | .scrReadWord => Sys2Proof.Machine.execScrReadWord s
  | .scrWriteWord => Sys2Proof.Machine.execScrWriteWord s
  | .wheelNew => Sys2Proof.Machine.execWheelNew s
  | .wheelNext => Sys2Proof.Machine.execWheelNext s
  | .iterStart => Sys2Proof.Machine.execIterStart s
  | .iterSeek => Sys2Proof.Machine.execIterSeek s
  | .iterNext => Sys2Proof.Machine.execIterNext s
  | .buildLimit => Sys2Proof.Machine.execBuildLimit s
  | .buildNprimes => Sys2Proof.Machine.execBuildNprimes s
  | .qLimit => Sys2Proof.Machine.execQLimit s
  | .qNumPrimes => Sys2Proof.Machine.execQNumPrimes s
  | .isPrime => Sys2Proof.Machine.execIsPrime s
  | .nthPrime => Sys2Proof.Machine.execNthPrime s
  | .rankFind => Sys2Proof.Machine.execRankFind s
  | .storeWord => Sys2Proof.Machine.execStoreWord s
  | .clear => Sys2Proof.Machine.execClear s

end Sys2Proof.Machine
end

