-- ==== Sys2Proof/Machine/RegisterSpace.lean ====
section
/-! DEFINITION. The register space as the host sees it: reads, writes, acceptance of a command (spec/10_state.md
R21-R29, spec/20_memory.md R50-R56, spec/60_exceptions.md R240 (a), R241, R247, spec/70_reset_and_hazards.md R270,
R280-R283), and the two agents' steps. -/

namespace Sys2Proof.Machine

/-- ID (R27). -/
def idWord : Word := 0x5052494D45530001#64

/-- The register map of R21, by byte offset in the register space. -/
def regAt (off : Nat) : Reg :=
  match off with
  | 0x00 => .id
  | 0x08 => .cmd
  | 0x10 => .status
  | 0x18 => .arg0
  | 0x20 => .arg1
  | 0x28 => .res0
  | 0x30 => .res1
  | 0x38 => .cfgSeglen
  | 0x40 => .cfgMaxwords
  | _ => .reserved

/-- The offset of a register (R21); `reserved` stands for the first reserved offset. -/
def regOffset (r : Reg) : Nat :=
  match r with
  | .id => 0x00
  | .cmd => 0x08
  | .status => 0x10
  | .arg0 => 0x18
  | .arg1 => 0x20
  | .res0 => 0x28
  | .res1 => 0x30
  | .cfgSeglen => 0x38
  | .cfgMaxwords => 0x40
  | .reserved => 0x48

/-- What a read of a register returns (R21, R23, R26, R27, R53). While BUSY = 1, RES0 and RES1 are free draws of the
command in flight (R282, U1; log 4). -/
def readReg (s : State) (r : Reg) : Word :=
  match r with
  | .id => idWord
  | .cmd => 0
  | .status => statusWord s
  | .arg0 => s.arg0
  | .arg1 => s.arg1
  | .res0 => if s.busy then Config.draw .res0 s.draws 0 else s.res0
  | .res1 => if s.busy then Config.draw .res1 s.draws 0 else s.res1
  | .cfgSeglen => word s.cfg.segmentLen
  | .cfgMaxwords => word s.cfg.maxWords
  | .reserved => 0

/-- A host write of `c` to CMD (R25): dropped while FATAL = 1 (R247), dropped with OVR ← 1 while BUSY = 1 (R241),
otherwise the acceptance of R240 (a), at which the items of R282 become unspecified and the delay of U7 is drawn. -/
def writeCmd (s : State) (c : Word) : State :=
  if s.fatal then s
  else if s.busy then { s with ovr := true }
  else
    { s with
      lcmd := c
      larg0 := s.arg0
      larg1 := s.arg1
      busy := true
      delay := Config.completionDelay s.draws
      draws := s.draws + 1 }

/-- A host write of a register (R21, R22, R53). -/
def writeReg (s : State) (r : Reg) (v : Word) : State :=
  match r with
  | .cmd => writeCmd s v
  | .status => writeStatus s v
  | .arg0 => { s with arg0 := v }
  | .arg1 => { s with arg1 := v }
  | .id | .res0 | .res1 | .cfgSeglen | .cfgMaxwords | .reserved => s

/-- The value a read returned reaches the host, named by its register (R77; log 14). -/
def deliver (r : Reg) (v : Word) (s : State) : State := { s with reads := (r, v) :: s.reads }

/-- What the end state names `<reg>` (R77): the value of the host's last read of the register, `none` before any. -/
def lastRead (s : State) (r : Reg) : Option Word := (s.reads.find? (fun x => x.1 == r)).map Prod.snd

/-- All values the host has read from a register, in order (R77; P1 of 95_test_vectors.md lists three of RES0). -/
def valuesRead (s : State) (r : Reg) : List Word := ((s.reads.filter (fun x => x.1 == r)).map Prod.snd).reverse

/-- The last STATUS value read, which DO ... WHILE RV looks at (R77); a free draw for a host that has read none
(log 14). -/
def lastStatus (s : State) : Word := (lastRead s .status).getD (Config.draw .hostStatus 0 0)

/-- Only an aligned 64-bit access inside the register space has a meaning (R51, R52, U2; log 9, log 10). An access is
inside or outside by its first address alone: one that starts below REG_BASE and reaches into the window (8 bytes at
REG_BASE - 4) is the fault outsideRegisterSpace, not the refusal of R52 (log 9, DESIGN CHOICE; both stop). -/
def withAccess (s : State) (addr size : Nat) (go : Reg → State) : Host.Outcome State Fault Refusal :=
  if inRegisterSpace s.cfg.regBase addr then
    if aligned64 (addr - s.cfg.regBase) size then .next (go (regAt (addr - s.cfg.regBase)))
    else .refused (.notAligned64 (addr - s.cfg.regBase) size)
  else .fault (.outsideRegisterSpace addr)

/-- `MemRead(addr, size)` by the host (R52, R56). -/
def hostRead (addr size : Nat) (s : State) : Host.Outcome State Fault Refusal :=
  withAccess s addr size (fun r => deliver r (readReg s r) s)

/-- `MemWrite(addr, size, v)` by the host (R52). -/
def hostWrite (addr size : Nat) (v : Word) (s : State) : Host.Outcome State Fault Refusal :=
  withAccess s addr size (fun r => writeReg s r v)

/-- Reset (R270): in one step, a command in flight has no further effect; the host goes on with `rest`. -/
def resetEngine (s : State) (rest : HostProg) : State :=
  State.afterReset s.cfg s.draws rest s.reads

/-- One program after another. -/
def HostProg.append : HostProg → HostProg → HostProg
  | .done, q => q
  | .wr a n v r, q => .wr a n v (append r q)
  | .rd a n r, q => .rd a n (append r q)
  | .wait r, q => .wait (append r q)
  | .rep k b r, q => .rep k b (append r q)
  | .doWhileRv b r, q => .doWhileRv b (append r q)
  | .whileRv b r, q => .whileRv b (append r q)
  | .reset r, q => .reset (append r q)

/-- One host step (R55, R77): the next statement of the host's program. WAIT is one read of STATUS, repeated while the
value read has BUSY = 1; REPEAT and DO ... WHILE RV issue no access of their own (log 19). -/
def hostStep (s : State) : Host.Outcome State Fault Refusal :=
  match s.host with
  | .done => .next s
  | .wr addr size v rest => hostWrite addr size v { s with host := rest }
  | .rd addr size rest => hostRead addr size { s with host := rest }
  | .wait rest =>
    if (statusWord s).getLsbD 0 then hostRead (s.cfg.regBase + regOffset .status) 8 s
    else hostRead (s.cfg.regBase + regOffset .status) 8 { s with host := rest }
  | .rep 0 _ rest => .next { s with host := rest }
  | .rep (k + 1) body rest => .next { s with host := body.append (.rep k body rest) }
  | .doWhileRv body rest => .next { s with host := body.append (.whileRv body rest) }
  | .whileRv body rest =>
    if (lastStatus s).getLsbD 2 then .next { s with host := body.append (.whileRv body rest) }
    else .next { s with host := rest }
  | .reset rest => .next (resetEngine s rest)

/-- The engine's step (R240 (b), R71, R243): decode the latched word and perform its command, or raise ILLEGAL. -/
def engineStep (s : State) : Host.Outcome State Fault Refusal :=
  match decode s.lcmd with
  | .ok i => exec i s
  | .error _ => .next (raise .illegal s)

/-- One host step of the free delay passes (U7; log 2). -/
def tick (s : State) : State := if s.busy then { s with delay := s.delay - 1 } else s

/-- The engine moves when a command is in flight and its delay has passed (R240, R291; log 2). -/
def engineMoves (s : State) : Bool := s.busy && s.delay == 0

/-- The state in which `c` has been accepted and completes in the very next step (log 1). -/
def latchCommand (s : State) (c : Word) : State :=
  { s with lcmd := c, larg0 := s.arg0, larg1 := s.arg1, busy := true, delay := 0 }

end Sys2Proof.Machine
end

