-- ==== Sys2Proof/Machine/Step.lean ====
section
/-! DEFINITION. One step of the machine: of the engine, if a command is in flight and its delay has passed, of the host
otherwise (spec/60_exceptions.md R240, spec/70_reset_and_hazards.md R291). -/

namespace Sys2Proof.Machine

/-- One step (R6, R55, R61, R240). -/
def step (s : State) : Host.Outcome State Fault Refusal :=
  if engineMoves s then engineStep s else hostStep (tick s)

/-- `s` with the command word of value `w` (its bits from `nbits` on being 0) accepted and due to complete in the very
next step: the engine fetches nothing (R28), so this stands for the host's write of CMD (log 1). -/
def State.withFetchWord (s : State) (nbits w : Nat) : State :=
  latchCommand s (BitVec.ofNat 64 (w % 2 ^ nbits))

end Sys2Proof.Machine
end

