-- ==== Sys2Proof/Machine/HostSyntax.lean ====
section
/-! DEFINITION. The host's assembler (spec/30_encoding.md R77-R79): pseudo-instructions as host programs, and the
encoding of a program as its list of register writes. -/

namespace Sys2Proof.Machine

/-- `WR <reg>, <value>` (R77). -/
def wrReg (base : Nat) (r : Reg) (v : Word) (rest : HostProg) : HostProg := .wr (base + regOffset r) 8 v rest

/-- `RD <reg>` (R77), which `GET <reg>` expands to (R78). -/
def rdReg (base : Nat) (r : Reg) (rest : HostProg) : HostProg := .rd (base + regOffset r) 8 rest

/-- `<MNEMONIC> [a [, b]]` (R78): only the operand registers the command reads are written. -/
def issue (base : Nat) (i : Instr) (a b : Word) (rest : HostProg) : HostProg :=
  match operandCount i with
  | 0 => wrReg base .cmd (encode i) (.wait rest)
  | 1 => wrReg base .arg0 a (wrReg base .cmd (encode i) (.wait rest))
  | _ => wrReg base .arg0 a (wrReg base .arg1 b (wrReg base .cmd (encode i) (.wait rest)))

/-- `CLR_OVR` (R78). -/
def clrOvr (base : Nat) (rest : HostProg) : HostProg := wrReg base .status 0x20 rest

/-- `SCR_ONES` (R78). -/
def scrOnes (base : Nat) (rest : HostProg) : HostProg := issue base .scrFill ones 0 rest

/-- The encoding of a program that has no DO ... WHILE RV (R78), read off its text: the `(offset, value)` register writes
in order. `none` where a DO ... WHILE RV makes the number of turns depend on the run: `hasEncoding` then says it. -/
def registerWrites (base : Nat) : HostProg → Option (List (Nat × Word))
  | .done => some []
  | .wr addr _ v rest => (registerWrites base rest).map (fun ws => (addr - base, v) :: ws)
  | .rd _ _ rest => registerWrites base rest
  | .wait rest => registerWrites base rest
  | .rep k body rest =>
    match registerWrites base body, registerWrites base rest with
    | some bs, some ws => some ((List.replicate k bs).flatten ++ ws)
    | _, _ => none
  | .doWhileRv _ _ => none
  | .whileRv _ _ => none
  | .reset rest => registerWrites base rest

/-- The register write of one step, as `(offset, value)`: at most one, none where the engine moves. -/
def writtenNext (s : State) : List (Nat × Word) :=
  if engineMoves s then []
  else
    match s.host with
    | .wr addr _ v _ => [(addr - s.cfg.regBase, v)]
    | _ => []

/-- The register writes that the host's program performs from `s` until it is done, in order; `none` where it is not
done within `fuel` steps, or stops. -/
def runWrites : Nat → State → Option (List (Nat × Word))
  | 0, s => if s.host = .done then some [] else none
  | fuel + 1, s =>
    if s.host = .done then some []
    else
      match step s with
      | .next t => (runWrites fuel t).map (writtenNext s ++ ·)
      | .fault _ => none
      | .refused _ => none

/-- `ws` is the encoding of the program that the host runs from `s` (R78): the register writes after expansion, every
turn of every loop with its own (P1b of 95_test_vectors.md; log 21). -/
def hasEncoding (s : State) (ws : List (Nat × Word)) : Prop := ∃ fuel, runWrites fuel s = some ws

end Sys2Proof.Machine
end

