-- ==== Sys2Proof/Safety.lean ====
section
/-! DEFINITION. The terms statements are made in: the invariants of the machine (spec/10_state.md R30-R32, R42, R43),
which states are final (spec/60_exceptions.md R247, U3), and who moves. -/

namespace Sys2Proof.Machine

/-- The arrays are in their one form (log 8): SCR lists exactly `SEGMENT_LEN` words, STORE and PFX exactly `NWORDS`. -/
def Memory.wf (s : State) : Bool :=
  s.scr.length == s.cfg.segmentLen && s.store.length == s.nwords.toNat && s.pfx.length == s.nwords.toNat

/-- The structural invariant: what every step keeps whatever the store's contents. -/
structure Inv (s : State) : Prop where
  /-- The parameters are ones R7 allows. -/
  cfgWf : s.cfg.wf = true
  /-- The arrays are in their one form. -/
  memory : Memory.wf s = true
  /-- `LIMIT = 240·NWORDS` (R30, R42). -/
  limitIs : s.limit.toNat = 240 * s.nwords.toNat
  /-- `NWORDS ≤ MAX_WORDS` (R42). -/
  nwordsLe : s.nwords.toNat ≤ s.cfg.maxWords
  /-- When READY = 0, NWORDS = 0 (R30). -/
  emptyIs : s.ready = false → s.nwords = 0
  /-- PFX is the running popcount of STORE (R32). -/
  pfxIs : s.pfx = prefixCounts 0 s.store
  /-- ITV = 1 implies READY = 1 (R43). -/
  itvReady : s.itv = true → s.ready = true
  /-- When ITV = 1, ITW ≤ NWORDS (R43). -/
  itwLe : s.itv = true → s.itw.toNat ≤ s.nwords.toNat
  /-- When ITV = 1 and ITW = NWORDS, ITCUR = 0 (R43). -/
  itwEnd : s.itv = true → s.itw = s.nwords → s.itcur = 0
  /-- When ITV = 1 and ITW < NWORDS, the set bits of ITCUR are a subset of those of STORE[ITW] (R43). -/
  itcurSub : s.itv = true → s.itw.toNat < s.nwords.toNat →
    ∀ b, s.itcur.getLsbD b = true → (wordAt .store s.store s.itw.toNat).getLsbD b = true
  /-- WV = 1 implies 1 ≤ WNUM ≤ floor((2^64 - 1)/6) (R43). -/
  wheelRange : s.wv = true → 1 ≤ s.wnum.toNat ∧ s.wnum.toNat ≤ wheelBaseCap

/-- `STORE[i][b] = 1 iff isPrime(240·i + OFFSET[b])` for every valid word (R42). -/
def StoreExact (s : State) : Prop :=
  ∀ i b, i < s.nwords.toNat → b < 64 →
    ((wordAt .store s.store i).getLsbD b = true ↔ Nat.Prime (240 * i + offset b))

/-- The whole invariant: the structural one, and the store holds exactly the primes ≥ 7 below LIMIT (R42). -/
def InvExact (s : State) : Prop := Inv s ∧ StoreExact s

/-- A state a run may end in: IDLE, and not the fault state FATAL = 1, which is never final (R247, U3). -/
def isFinal (s : State) : Bool := !s.busy && !s.fatal

/-- The next step is the engine's completion of command `i` (R240 (b)). -/
def completesNext (s : State) (i : Instr) : Prop := engineMoves s = true ∧ decode s.lcmd = .ok i

/-- The next step is a reset (R270). -/
def resetsNext (s : State) : Prop := engineMoves s = false ∧ ∃ rest, s.host = .reset rest

/-- The next step is an aligned 64-bit host write of `v` at byte offset `off` of the register space. -/
def writesNext (s : State) (off : Nat) (v : Word) : Prop :=
  engineMoves s = false ∧ ∃ rest, s.host = .wr (s.cfg.regBase + off) 8 v rest

/-- How many lanes are set in the first `i` store words (R32). -/
def storedBelow (s : State) (i : Nat) : Nat :=
  ((List.range i).map (fun j => popcount (wordAt .store s.store j))).sum

/-- `TOTAL` counted in the store itself (R32). -/
def storedPrimes (s : State) : Nat := storedBelow s s.nwords.toNat

/-- The state an outcome gives, or `d` where it stops. -/
def stateOr (d : State) (o : Host.Outcome State Fault Refusal) : State :=
  match o with
  | .next t => t
  | .fault _ => d
  | .refused _ => d

/-- The state after `n` completions of command `i`, one after another. -/
def repeatCommand (i : Instr) : Nat → State → State
  | 0, s => s
  | n + 1, s => repeatCommand i n (stateOr s (exec i s))

/-- The sum of the RES0 values of `n` successive WHEEL_NEXT (R135). -/
def wheelSum (s : State) : Nat → Nat
  | 0 => 0
  | n + 1 => wheelSum s n + (repeatCommand .wheelNext (n + 1) s).res0.toNat

end Sys2Proof.Machine
end

