-- ==== Sys2Proof/Certificates/Slice0/Obligations.lean ====
section
/-! DEFINITION. The statements about the model, for the provers: nothing is proved here. Where a record update below
names `delay`, `draws`, `host` or `reads`, these are the model's own fields (log 1, 2, 3, 14), and what
it says of them is the model's choice, not the spec's. -/

open Sys2Proof Sys2Proof.Machine

/-! ## Encoding -/

/-- R71: a command word is legal iff `c[63:8] = 0` and `c[7:0]` is one of the 23 opcodes; any other word completes
with ILLEGAL and no other effect. -/
def Obligations.WordIsLegalIffReservedZeroAndOpcodeAssigned : Prop :=
  ∀ c : Word,
    ((∃ i, decode c = .ok i) ↔
      (c.extractLsb' 8 56 = 0 ∧
        (c.extractLsb' 0 8).toNat ∈
          [0x00, 0x10, 0x11, 0x12, 0x13, 0x14, 0x15, 0x16, 0x17, 0x20, 0x21, 0x30, 0x31, 0x32, 0x40, 0x41,
           0x50, 0x51, 0x52, 0x53, 0x54, 0x55, 0x5F])) ∧
    ((¬ ∃ i, decode c = .ok i) → ∀ s : State, engineMoves s = true → s.lcmd = c →
      step s = .next { s with err := .illegal, rv := false, busy := false })

/-- The decoder reads from a command word exactly the command whose word it is (R70, R73), also from its eight bytes
(R54 (b), R76). -/
def Obligations.DecodeAndEncodeAgree : Prop :=
  (∀ (i : Instr) (c : Word), decode c = .ok i ↔ c = encode i) ∧
  (∀ (i : Instr) (rest : List Byte), decodeBytes (bytesOfWord (encode i) ++ rest) = .ok (i, rest))

/-- R54 (b): byte k of a word is its bits 8k+7 : 8k, and the eight bytes give the word back. -/
def Obligations.ByteLanesAreLittleEndian : Prop :=
  ∀ w : Word,
    (bytesOfWord w).length = 8 ∧
    (∀ k j, k < 8 → j < 8 → ((bytesOfWord w).getD k 0).getLsbD j = w.getLsbD (8 * k + j)) ∧
    wordOfBytes (bytesOfWord w) = w

/-- Words written out from R70 and R73 decode to their commands; R74's 233 opcode values do not decode. -/
def Obligations.SampleWordsDecode : Prop :=
  decode 0x0000000000000000#64 = .ok .nop ∧
  decode 0x0000000000000017#64 = .ok .scrWriteWord ∧
  decode 0x0000000000000020#64 = .ok .wheelNew ∧
  decode 0x0000000000000032#64 = .ok .iterNext ∧
  decode 0x0000000000000041#64 = .ok .buildNprimes ∧
  decode 0x000000000000005F#64 = .ok .clear ∧
  decode 0x0000000000000100#64 = .error .reservedBits ∧
  decode 0x0000000000000033#64 = .error .unassignedOpcode ∧
  ((List.range 256).filter (fun n => !(decode (BitVec.ofNat 64 n)).toBool)).length = 233

/-- R79: the register writes of `BUILD_LIMIT 1000` and of `WHEEL_NEW 7, 77`, each followed by the poll. -/
def Obligations.PseudoInstructionsExpandToTheirWrites : Prop :=
  ∀ base : Nat,
    issue base .buildLimit 1000 0 .done =
      .wr (base + 0x18) 8 1000 (.wr (base + 0x08) 8 0x40 (.wait .done)) ∧
    registerWrites base (issue base .buildLimit 1000 0 .done) = some [(0x18, 1000), (0x08, 0x40)] ∧
    issue base .wheelNew 7 77 .done =
      .wr (base + 0x18) 8 7 (.wr (base + 0x20) 8 77 (.wr (base + 0x08) 8 0x20 (.wait .done))) ∧
    registerWrites base (issue base .wheelNew 7 77 .done) = some [(0x18, 7), (0x20, 77), (0x08, 0x20)]

/-! ## Who moves, acceptance and completion -/

/-- R240 (b): with a command in flight whose delay has passed, a step is the completion of the decoded command; and
`withFetchWord` puts a command in that place. -/
def Obligations.StepRunsTheDecodedCommand : Prop :=
  (∀ (s : State) (i : Instr), s.busy = true → s.delay = 0 → decode s.lcmd = .ok i → step s = exec i s) ∧
  (∀ (s : State) (i : Instr),
    step (s.withFetchWord 64 (encode i).toNat) =
      exec i { s with lcmd := encode i, larg0 := s.arg0, larg1 := s.arg1, busy := true, delay := 0 })

/-- CMD reads as 0 (R21, R53); a write of `c` latches `c`, ARG0 and ARG1 and sets BUSY when BUSY = 0 and FATAL = 0 (R25,
R29, R240), is dropped and sets OVR when BUSY = 1 (R241), and is dropped with no other effect when FATAL = 1 (R247).
The model's choices: the drawn `delay` and its counting (log 2), `draws` (log 3). BUSY = 1 with FATAL = 1, which R247
excludes and log 12 settles, is left out. -/
def Obligations.CmdWriteIssuesOrIsDropped : Prop :=
  (∀ s : State, readReg s .cmd = 0) ∧
  ∀ (s : State) (c : Word) (rest : HostProg),
    engineMoves s = false → s.host = .wr (s.cfg.regBase + 0x08) 8 c rest →
    (s.busy = false → s.fatal = false →
      step s = .next { s with
        host := rest
        lcmd := c
        larg0 := s.arg0
        larg1 := s.arg1
        busy := true
        delay := Config.completionDelay s.draws
        draws := s.draws + 1 }) ∧
    (s.busy = true → s.fatal = false →
      step s = .next { s with host := rest, delay := s.delay - 1, ovr := true }) ∧
    (s.busy = false → s.fatal = true → step s = .next { s with host := rest })

/-- R240, R291: under every host, a step while a command is in flight with a delay left keeps the command and takes one
off the delay, unless it is a reset; with no delay left the step is the engine's completion, which leaves BUSY = 0; and
so, under a host that does nothing more, the command completes after its delay. That the delay is counted in host steps
is the model's choice (log 2). -/
def Obligations.AcceptedCommandCompletes : Prop :=
  (∀ (n : Nat) (s t : State), s.busy = true → s.delay = n + 1 → ¬ resetsNext s → step s = .next t →
    t.busy = true ∧ t.lcmd = s.lcmd ∧ t.larg0 = s.larg0 ∧ t.larg1 = s.larg1 ∧ t.delay = n) ∧
  (∀ s : State, s.busy = true → s.delay = 0 → step s = engineStep s) ∧
  (∀ (n : Nat) (s : State), s.busy = true → s.delay = n → s.host = .done →
    core.run (n + 1) s = engineStep { s with delay := 0 }) ∧
  (∀ s : State, ∃ t, engineStep s = .next t ∧ t.busy = false)

/-- R77: WAIT is a read of STATUS, repeated while the value read has BUSY = 1; the value read is named STATUS (log 14). -/
def Obligations.WaitPollsStatusUntilIdle : Prop :=
  ∀ (s : State) (rest : HostProg), engineMoves s = false → s.host = .wait rest →
    (s.busy = true →
      step s = .next { s with delay := s.delay - 1, reads := (.status, statusWord s) :: s.reads } ∧
      (statusWord s).getLsbD 0 = true) ∧
    (s.busy = false →
      step s = .next { s with host := rest, reads := (.status, statusWord s) :: s.reads } ∧
      (statusWord s).getLsbD 0 = false)

/-! ## The register space -/

/-- R21, R26, R27, R53: what an aligned read of each offset returns while BUSY = 0; a read changes nothing of the
engine (R56). -/
def Obligations.IdleReadsReturnTheRegisters : Prop :=
  ∀ (s : State) (off : Nat) (rest : HostProg),
    s.busy = false → s.host = .rd (s.cfg.regBase + off) 8 rest → off < 256 → off % 8 = 0 →
    ∃ v, step s = .next { s with
        host := rest
        reads := (regAt off, v) :: s.reads } ∧
      (off = 0x00 → v = 0x5052494D45530001#64) ∧
      (off = 0x08 → v = 0) ∧
      (off = 0x10 → v.getLsbD 0 = false ∧ v.getLsbD 1 = s.ready ∧ v.getLsbD 2 = s.rv ∧ v.getLsbD 3 = s.itv ∧
        v.getLsbD 4 = s.wv ∧ v.getLsbD 5 = s.ovr ∧ v.getLsbD 6 = s.fatal ∧
        (v.extractLsb' 8 8).toNat = s.err.code) ∧
      (off = 0x18 → v = s.arg0) ∧
      (off = 0x20 → v = s.arg1) ∧
      (off = 0x28 → v = s.res0) ∧
      (off = 0x30 → v = s.res1) ∧
      (off = 0x38 → v = BitVec.ofNat 64 s.cfg.segmentLen) ∧
      (off = 0x40 → v = BitVec.ofNat 64 s.cfg.maxWords) ∧
      (0x48 ≤ off → v = 0)

/-- R282: a read while BUSY = 1 has no effect on the command; STATUS shows BUSY, READY as before the command, OVR and
FATAL; ID, CFG_SEGLEN, CFG_MAXWORDS, ARG0 and ARG1 read normally. -/
def Obligations.BusyReadsAreHarmless : Prop :=
  ∀ (s : State) (off : Nat) (rest : HostProg),
    s.busy = true → s.delay ≠ 0 → s.host = .rd (s.cfg.regBase + off) 8 rest → off < 256 → off % 8 = 0 →
    ∃ v, step s = .next { s with
        delay := s.delay - 1
        host := rest
        reads := (regAt off, v) :: s.reads } ∧
      (off = 0x00 → v = 0x5052494D45530001#64) ∧
      (off = 0x10 → v.getLsbD 0 = true ∧ v.getLsbD 1 = s.ready ∧ v.getLsbD 5 = s.ovr ∧ v.getLsbD 6 = s.fatal) ∧
      (off = 0x18 → v = s.arg0) ∧
      (off = 0x20 → v = s.arg1) ∧
      (off = 0x38 → v = BitVec.ofNat 64 s.cfg.segmentLen) ∧
      (off = 0x40 → v = BitVec.ofNat 64 s.cfg.maxWords)

/-- R44: the reserved bits of STATUS read 0 in every state, and so does every bit of the reserved offsets. -/
def Obligations.ReservedBitsReadZero : Prop :=
  ∀ s : State,
    (statusWord s).getLsbD 7 = false ∧
    (∀ k, 16 ≤ k → (statusWord s).getLsbD k = false) ∧
    (∀ off, 0x48 ≤ off → readReg s (regAt off) = 0)

/-- R22, R53, R283: an aligned write of each offset but CMD's: ARG0 and ARG1 take the value at once, STATUS only
clears OVR by bit 5, every other register and reserved offset ignores it; also while BUSY = 1. -/
def Obligations.RegisterWritesHaveTheirEffect : Prop :=
  ∀ (s : State) (off : Nat) (v : Word) (rest : HostProg),
    engineMoves s = false → s.host = .wr (s.cfg.regBase + off) 8 v rest → off < 256 → off % 8 = 0 →
    (off = 0x10 → step s = .next { tick s with host := rest, ovr := s.ovr && !v.getLsbD 5 }) ∧
    (off = 0x18 → step s = .next { tick s with host := rest, arg0 := v }) ∧
    (off = 0x20 → step s = .next { tick s with host := rest, arg1 := v }) ∧
    (off ≠ 0x08 → off ≠ 0x10 → off ≠ 0x18 → off ≠ 0x20 → step s = .next { tick s with host := rest })

/-- R52: an access of the register space that is not 8 bytes at an 8-byte-aligned offset is refused; and, the model's
choice (log 9), one outside the register space is a fault. -/
def Obligations.OtherAccessesHaveNoMeaning : Prop :=
  ∀ (s : State) (addr size : Nat) (v : Word) (rest : HostProg),
    engineMoves s = false → (s.host = .wr addr size v rest ∨ s.host = .rd addr size rest) →
    (s.cfg.regBase ≤ addr → addr < s.cfg.regBase + 256 → (size ≠ 8 ∨ (addr - s.cfg.regBase) % 8 ≠ 0) →
      step s = .refused (.notAligned64 (addr - s.cfg.regBase) size)) ∧
    ((addr < s.cfg.regBase ∨ s.cfg.regBase + 256 ≤ addr) → step s = .fault (.outsideRegisterSpace addr))

/-- R41, R270: reset sets every host register and STATUS field to 0, leaves the engine EMPTY with no valid cursor and
no valid wheel, and ends a command in flight. -/
def Obligations.ResetSetsTheTable : Prop :=
  ∀ (s : State) (rest : HostProg), engineMoves s = false → s.host = .reset rest →
    ∃ t, step s = .next t ∧ t.cfg = s.cfg ∧ t.host = rest ∧
      t.arg0 = 0 ∧ t.arg1 = 0 ∧ t.res0 = 0 ∧ t.res1 = 0 ∧
      t.busy = false ∧ t.ready = false ∧ t.rv = false ∧ t.itv = false ∧ t.wv = false ∧ t.ovr = false ∧
      t.fatal = false ∧ t.err = .none ∧
      t.lcmd = 0 ∧ t.larg0 = 0 ∧ t.larg1 = 0 ∧ t.limit = 0 ∧ t.nwords = 0 ∧
      t.scr.length = t.cfg.segmentLen

/-! ## STATUS and errors over all steps -/

/-- R39: OVR is set only by a CMD write while BUSY = 1, and cleared only by a host write of 1 to STATUS bit 5 or by
reset. -/
def Obligations.OvrHasOnlyItsWriters : Prop :=
  ∀ s t : State, step s = .next t →
    (s.ovr = false → t.ovr = true → s.busy = true ∧ ∃ c, writesNext s 0x08 c) ∧
    (s.ovr = true → t.ovr = false → resetsNext s ∨ ∃ v, writesNext s 0x10 v ∧ v.getLsbD 5 = true)

/-- R39, R240, R247: which event changes each of the other STATUS fields; no step sets FATAL. -/
def Obligations.StatusFieldsHaveOnlyTheirWriters : Prop :=
  ∀ s t : State, step s = .next t →
    (s.ready = false → t.ready = true → completesNext s .buildLimit ∨ completesNext s .buildNprimes) ∧
    (s.ready = true → t.ready = false → completesNext s .clear ∨ resetsNext s) ∧
    (s.itv = false → t.itv = true → completesNext s .iterStart ∨ completesNext s .iterSeek) ∧
    (s.itv = true → t.itv = false → completesNext s .clear ∨ resetsNext s) ∧
    (s.wv = false → t.wv = true → completesNext s .wheelNew) ∧
    (s.wv = true → t.wv = false → resetsNext s) ∧
    (s.busy = false → t.busy = true → ∃ c, writesNext s 0x08 c) ∧
    (s.busy = true → t.busy = false → engineMoves s = true ∨ resetsNext s) ∧
    ((t.rv ≠ s.rv ∨ t.err ≠ s.err) → engineMoves s = true ∨ resetsNext s) ∧
    (t.fatal = true → s.fatal = true) ∧
    (s.fatal = true → t.fatal = false → resetsNext s)

/-- R242: a command that ends in an error, or a word that is no command, changes nothing but ERR, RV and BUSY. -/
def Obligations.ErrorsArePrecise : Prop :=
  (∀ (i : Instr) (s t : State), exec i s = .next t → t.err ≠ .none →
    t = { s with err := t.err, rv := false, busy := false }) ∧
  (∀ s t : State, engineStep s = .next t → t.err ≠ .none →
    t = { s with err := t.err, rv := false, busy := false })

/-- R244: the codes, and which commands raise each, exactly under which condition (R133, R171, R187, R245, R246). NPRIMES_BOUND
is the engine's (R7; log 11). -/
def Obligations.ErrorsComeFromTheirCommands : Prop :=
  (Err.none.code = 0x00 ∧ Err.illegal.code = 0x01 ∧ Err.noStore.code = 0x02 ∧ Err.state.code = 0x03 ∧
    Err.operand.code = 0x04 ∧ Err.range.code = 0x05 ∧ Err.capacity.code = 0x06) ∧
  ∀ (i : Instr) (s t : State), exec i s = .next t →
    t.err ≠ .illegal ∧
    (t.err = .noStore ↔ s.ready = false ∧ i ∈ [.storeGet, .iterStart, .iterSeek, .iterNext, .qLimit, .qNumPrimes,
      .isPrime, .nthPrime, .rankFind, .storeWord]) ∧
    (t.err = .state ↔ (s.ready = true ∧ i ∈ [.buildLimit, .buildNprimes]) ∨
      (s.ready = true ∧ s.itv = false ∧ i = .iterNext) ∨ (s.wv = false ∧ i = .wheelNext)) ∧
    (t.err = .operand ↔ i = .wheelNew ∧
      ¬ (1 ≤ s.larg0.toNat ∧ s.larg0.toNat ≤ 3074457345618258602 ∧ s.larg0.toNat ∣ s.larg1.toNat ∧
        Nat.Coprime (s.larg1.toNat / s.larg0.toNat) 30)) ∧
    (t.err = .range ↔
      (i = .storeGet ∧ s.ready = true ∧ s.limit.toNat ≤ s.larg0.toNat) ∨
      (i ∈ [.scrGet, .scrSetOn, .scrSetOff] ∧ 240 * s.cfg.segmentLen ≤ s.larg0.toNat) ∨
      (i ∈ [.scrReadWord, .scrWriteWord] ∧ s.cfg.segmentLen ≤ s.larg0.toNat) ∨
      (i = .iterSeek ∧ s.ready = true ∧ s.nwords.toNat < s.larg0.toNat) ∨
      (i = .storeWord ∧ s.ready = true ∧ s.nwords.toNat ≤ s.larg0.toNat)) ∧
    (t.err = .capacity ↔ s.ready = false ∧
      ((i = .buildLimit ∧ s.cfg.maxWords < (s.larg0.toNat + 239) / 240) ∨
       (i = .buildNprimes ∧ s.cfg.maxWords < (nprimesBound s.cfg s.larg0.toNat + 239) / 240)))

/-! ## Control and codec -/

/-- R211: NOP completes with RV = 0 and ERR = 0 and changes nothing else. -/
def Obligations.NopOnlyClearsErrAndRv : Prop :=
  decode 0x00#64 = .ok .nop ∧ decode 0x100#64 = .error .reservedBits ∧
  ∀ s : State, exec .nop s = .next { s with err := .none, rv := false, busy := false }

/-- R102: OFFSET lists the 64 residues mod 240 that are coprime to 30, ascending, and BITMAP is its inverse. -/
def Obligations.OffsetListsTheCoprimeResidues : Prop :=
  (∀ b, b < 64 → offset b = 30 * (b / 8) + [1, 7, 11, 13, 17, 19, 23, 29].getD (b % 8) 0) ∧
  (∀ b c, b < c → c < 64 → offset b < offset c) ∧
  (∀ r, r < 240 → (Nat.Coprime r 30 ↔ ∃ b, b < 64 ∧ offset b = r)) ∧
  (∀ b, b < 64 → bitmap (offset b) = BitVec.ofNat 64 (2 ^ b)) ∧
  (∀ r, r < 240 → ¬ Nat.Coprime r 30 → bitmap r = 0)

/-- R109: CODEC_MAP gives the word index and the mask of the index, which is 0 iff the index is not representable. -/
def Obligations.CodecMapGivesWordAndMask : Prop :=
  decode 0x10#64 = .ok .codecMap ∧
  ∀ s : State, ∃ m,
    exec .codecMap s = .next { s with
      res0 := BitVec.ofNat 64 (s.larg0.toNat / 240), res1 := m, err := .none, rv := true, busy := false } ∧
    (m = 0 ↔ ¬ Nat.Coprime s.larg0.toNat 30) ∧
    (∀ b, b < 64 → s.larg0.toNat % 240 = offset b → m = BitVec.ofNat 64 (2 ^ b))

/-- R110, R104: STORE_GET gives the stored bit of an index below LIMIT, 0 for one that is not representable; NOSTORE
when EMPTY, RANGE from LIMIT on. -/
def Obligations.StoreGetReadsTheStoredBit : Prop :=
  decode 0x11#64 = .ok .storeGet ∧
  ∀ s : State,
    (s.ready = true → s.larg0.toNat < s.limit.toNat → ∃ v,
      exec .storeGet s = .next { s with res0 := v, res1 := 0, err := .none, rv := true, busy := false } ∧
      (v = 0 ∨ v = 1) ∧
      (v = 1 ↔ ∃ b, b < 64 ∧ s.larg0.toNat % 240 = offset b ∧
        (wordAt .store s.store (s.larg0.toNat / 240)).getLsbD b = true)) ∧
    (s.ready = true → s.limit.toNat ≤ s.larg0.toNat →
      exec .storeGet s = .next { s with err := .range, rv := false, busy := false }) ∧
    (s.ready = false → exec .storeGet s = .next { s with err := .noStore, rv := false, busy := false })

/-- R114, R117: SCR_GET and SCR_READ_WORD read the scratch; RANGE outside it. -/
def Obligations.ScratchReads : Prop :=
  decode 0x13#64 = .ok .scrGet ∧ decode 0x16#64 = .ok .scrReadWord ∧
  ∀ s : State,
    (s.larg0.toNat < 240 * s.cfg.segmentLen → ∃ v,
      exec .scrGet s = .next { s with res0 := v, res1 := 0, err := .none, rv := true, busy := false } ∧
      (v = 0 ∨ v = 1) ∧
      (v = 1 ↔ ∃ b, b < 64 ∧ s.larg0.toNat % 240 = offset b ∧
        (wordAt .scr s.scr (s.larg0.toNat / 240)).getLsbD b = true)) ∧
    (240 * s.cfg.segmentLen ≤ s.larg0.toNat →
      exec .scrGet s = .next { s with err := .range, rv := false, busy := false }) ∧
    (s.larg0.toNat < s.cfg.segmentLen →
      exec .scrReadWord s = .next { s with
        res0 := wordAt .scr s.scr s.larg0.toNat, res1 := 0, err := .none, rv := true, busy := false }) ∧
    (s.cfg.segmentLen ≤ s.larg0.toNat →
      exec .scrReadWord s = .next { s with err := .range, rv := false, busy := false })

/-- R115, R116: SCR_SET_ON and SCR_SET_OFF change the lane of their index and no other lane, nothing at an index that
is not representable; RANGE outside the scratch. -/
def Obligations.ScratchLaneWrites : Prop :=
  decode 0x14#64 = .ok .scrSetOn ∧ decode 0x15#64 = .ok .scrSetOff ∧
  ∀ s : State, Memory.wf s = true →
    (s.larg0.toNat < 240 * s.cfg.segmentLen →
      (∃ a, exec .scrSetOn s = .next { s with scr := a, err := .none, rv := false, busy := false } ∧
        a.length = s.scr.length ∧
        ∀ j b, j < s.scr.length → b < 64 → ((wordAt .scr a j).getLsbD b = true ↔
          (wordAt .scr s.scr j).getLsbD b = true ∨ 240 * j + offset b = s.larg0.toNat)) ∧
      (∃ a, exec .scrSetOff s = .next { s with scr := a, err := .none, rv := false, busy := false } ∧
        a.length = s.scr.length ∧
        ∀ j b, j < s.scr.length → b < 64 → ((wordAt .scr a j).getLsbD b = true ↔
          (wordAt .scr s.scr j).getLsbD b = true ∧ 240 * j + offset b ≠ s.larg0.toNat))) ∧
    (240 * s.cfg.segmentLen ≤ s.larg0.toNat →
      exec .scrSetOn s = .next { s with err := .range, rv := false, busy := false } ∧
      exec .scrSetOff s = .next { s with err := .range, rv := false, busy := false })

/-- R113, R118: SCR_FILL writes every scratch word, SCR_WRITE_WORD one and no other; RANGE outside the scratch. -/
def Obligations.ScratchWordWrites : Prop :=
  decode 0x12#64 = .ok .scrFill ∧ decode 0x17#64 = .ok .scrWriteWord ∧
  ∀ s : State, Memory.wf s = true →
    (∃ a, exec .scrFill s = .next { s with scr := a, err := .none, rv := false, busy := false } ∧
      a.length = s.cfg.segmentLen ∧ ∀ j, j < s.cfg.segmentLen → wordAt .scr a j = s.larg0) ∧
    (s.larg0.toNat < s.cfg.segmentLen →
      ∃ a, exec .scrWriteWord s = .next { s with scr := a, err := .none, rv := false, busy := false } ∧
        a.length = s.cfg.segmentLen ∧ wordAt .scr a s.larg0.toNat = s.larg1 ∧
        ∀ j, j ≠ s.larg0.toNat → wordAt .scr a j = wordAt .scr s.scr j) ∧
    (s.cfg.segmentLen ≤ s.larg0.toNat →
      exec .scrWriteWord s = .next { s with err := .range, rv := false, busy := false })

/-- R119: decoding an array and re-encoding what was decoded gives the array back, whatever array of its length one
starts from. -/
def Obligations.DecodeThenReencodeGivesTheArrayBack : Prop :=
  ∀ a a0 : List Word, a0.length = a.length →
    let values := decodeAll .scr a a.length
    let others := (List.range (240 * a.length)).filter (fun v => decide (Nat.gcd v 30 = 1 ∧ v ∉ values))
    others.foldl codecSetOff (values.foldl codecSetOn a0) = a

/-! ## The wheel -/

/-- R133: WHEEL_NEW accepts exactly the operands in the generator's domain, and starts at the index of the multiplier
`mult div num` mod 30; OPERAND for any others. -/
def Obligations.WheelNewStartsAtTheMultiplier : Prop :=
  decode 0x20#64 = .ok .wheelNew ∧
  ∀ s : State,
    ((1 ≤ s.larg0.toNat ∧ s.larg0.toNat ≤ 3074457345618258602 ∧ s.larg0.toNat ∣ s.larg1.toNat ∧
        Nat.Coprime (s.larg1.toNat / s.larg0.toNat) 30) →
      ∃ i : BitVec 3,
        exec .wheelNew s = .next { s with
          wnum := s.larg0, widx := i, wv := true, err := .none, rv := false, busy := false } ∧
        [1, 7, 11, 13, 17, 19, 23, 29].getD i.toNat 0 = s.larg1.toNat / s.larg0.toNat % 30) ∧
    (¬ (1 ≤ s.larg0.toNat ∧ s.larg0.toNat ≤ 3074457345618258602 ∧ s.larg0.toNat ∣ s.larg1.toNat ∧
        Nat.Coprime (s.larg1.toNat / s.larg0.toNat) 30) →
      exec .wheelNew s = .next { s with err := .operand, rv := false, busy := false })

/-- R134: WHEEL_NEXT gives the exact gap `GAP[WIDX]·WNUM` and the index used, then the index advances mod 8; STATE
when WV = 0. -/
def Obligations.WheelNextGivesTheGap : Prop :=
  decode 0x21#64 = .ok .wheelNext ∧
  ∀ s : State,
    (s.wv = true → s.wnum.toNat ≤ 3074457345618258602 → ∃ g,
      exec .wheelNext s = .next { s with
        res0 := g, res1 := s.widx.setWidth 64, widx := s.widx + 1, err := .none, rv := true, busy := false } ∧
      g.toNat = [6, 4, 2, 4, 2, 4, 6, 2].getD s.widx.toNat 0 * s.wnum.toNat) ∧
    (s.wv = false → exec .wheelNext s = .next { s with err := .state, rv := false, busy := false })

/-- R135: after WHEEL_NEW num, num·k, the gaps lead through num times the successive integers coprime to 30 from k on;
when num is coprime to 30, these are exactly the multiples of num from num·k on that are coprime to 30. -/
def Obligations.WheelEnumeratesTheMultiples : Prop :=
  ∀ (s : State) (num k : Nat), 1 ≤ num → num ≤ 3074457345618258602 → Nat.Coprime k 30 →
    s.larg0.toNat = num → s.larg1.toNat = num * k → ∀ n,
      num * k + wheelSum (stateOr s (exec .wheelNew s)) n =
        num * Nat.nth (fun x => k ≤ x ∧ Nat.Coprime x 30) n ∧
      (Nat.Coprime num 30 →
        num * k + wheelSum (stateOr s (exec .wheelNew s)) n =
          Nat.nth (fun m => num * k ≤ m ∧ num ∣ m ∧ Nat.Coprime m 30) n)

/-! ## The decoder and the iterator -/

/-- R152, R153: ITER_START and ITER_SEEK set the cursor; NOSTORE when EMPTY, RANGE for an index beyond NWORDS. -/
def Obligations.IteratorStartsAndSeeks : Prop :=
  decode 0x30#64 = .ok .iterStart ∧ decode 0x31#64 = .ok .iterSeek ∧
  ∀ s : State,
    (s.ready = true →
      exec .iterStart s = .next { s with
        itph := 0
        itw := 0
        itcur := if 0 < s.nwords.toNat then wordAt .store s.store 0 else 0
        itv := true
        err := .none
        rv := false
        busy := false }) ∧
    (s.ready = false → exec .iterStart s = .next { s with err := .noStore, rv := false, busy := false }) ∧
    (s.ready = true → s.larg0.toNat ≤ s.nwords.toNat →
      exec .iterSeek s = .next { s with
        itph := 3
        itw := s.larg0
        itcur := if s.larg0.toNat < s.nwords.toNat then wordAt .store s.store s.larg0.toNat else 0
        itv := true
        err := .none
        rv := false
        busy := false }) ∧
    (s.ready = true → s.nwords.toNat < s.larg0.toNat →
      exec .iterSeek s = .next { s with err := .range, rv := false, busy := false }) ∧
    (s.ready = false → exec .iterSeek s = .next { s with err := .noStore, rv := false, busy := false })

/-- R154, R246: the first three elements are 2, 3 and 5; NOSTORE before STATE. -/
def Obligations.IterNextGivesTheImplicitPrimes : Prop :=
  ∀ s : State,
    (s.ready = true → s.itv = true → s.itph.toNat < 3 →
      exec .iterNext s = .next { s with
        res0 := BitVec.ofNat 64 ([2, 3, 5].getD s.itph.toNat 0)
        res1 := 0
        itph := s.itph + 1
        err := .none
        rv := true
        busy := false }) ∧
    (s.ready = true → s.itv = false →
      exec .iterNext s = .next { s with err := .state, rv := false, busy := false }) ∧
    (s.ready = false → exec .iterNext s = .next { s with err := .noStore, rv := false, busy := false })

/-- R151, R155: the decode step takes the lowest unconsumed lane of the cursor's word, or of the next nonzero word,
or, when there is none, ends at NWORDS. -/
def Obligations.IterNextDecodesTheNextLane : Prop :=
  ∀ s : State, s.ready = true → s.itv = true → s.itph = 3 →
    (∀ b, s.itcur.getLsbD b = true → (∀ c, c < b → s.itcur.getLsbD c = false) →
      exec .iterNext s = .next { s with
        res0 := BitVec.ofNat 64 (240 * s.itw.toNat + offset b)
        res1 := 0
        itcur := s.itcur &&& ~~~(1#64 <<< b)
        err := .none
        rv := true
        busy := false }) ∧
    (∀ w b, s.itcur = 0 → s.itw.toNat < w → w < s.nwords.toNat →
      (∀ u, s.itw.toNat < u → u < w → wordAt .store s.store u = 0) →
      (wordAt .store s.store w).getLsbD b = true →
      (∀ c, c < b → (wordAt .store s.store w).getLsbD c = false) →
      exec .iterNext s = .next { s with
        res0 := BitVec.ofNat 64 (240 * w + offset b)
        res1 := 0
        itw := BitVec.ofNat 64 w
        itcur := wordAt .store s.store w &&& ~~~(1#64 <<< b)
        err := .none
        rv := true
        busy := false }) ∧
    (s.itcur = 0 → (∀ u, s.itw.toNat < u → u < s.nwords.toNat → wordAt .store s.store u = 0) →
      exec .iterNext s = .next { s with
        res0 := 0, res1 := 0, itw := s.nwords, itcur := 0, err := .none, rv := false, busy := false })

/-- R156: an iterator that has ended stays ended: the cursor is valid with ITW = NWORDS and ITCUR = 0, and every
further ITER_NEXT leaves the same state. -/
def Obligations.ExhaustedIteratorStaysExhausted : Prop :=
  ∀ s t : State, exec .iterNext s = .next t → t.err = .none → t.rv = false →
    t.itv = true ∧ t.itw = t.nwords ∧ t.itcur = 0 ∧ t.res0 = 0 ∧ t.res1 = 0 ∧
    ∀ n, repeatCommand .iterNext n t = t

/-- R157: after ITER_START, ITER_NEXT gives 2, 3, 5 and then every prime from 7 to below LIMIT, in order, and then
ends. -/
def Obligations.IterationYieldsThePrimesInOrder : Prop :=
  ∀ s t : State, InvExact s → s.ready = true → exec .iterStart s = .next t →
    (∀ k, k < 3 + storedPrimes s →
      (repeatCommand .iterNext (k + 1) t).rv = true ∧
      (repeatCommand .iterNext (k + 1) t).res0.toNat = Nat.nth Nat.Prime k) ∧
    (∀ p, 7 ≤ p → Nat.Prime p →
      (p < s.limit.toNat ↔ ∃ k, k < 3 + storedPrimes s ∧ Nat.nth Nat.Prime k = p)) ∧
    (∀ k, 3 + storedPrimes s ≤ k →
      (repeatCommand .iterNext (k + 1) t).rv = false ∧ (repeatCommand .iterNext (k + 1) t).err = .none ∧
      (repeatCommand .iterNext (k + 1) t).res0 = 0 ∧ (repeatCommand .iterNext (k + 1) t).res1 = 0)

/-- R158: only the iterator commands and CLEAR change the cursor, and the store does not change while a cursor stays
valid. -/
def Obligations.CursorHasOnlyItsWriters : Prop :=
  ∀ (i : Instr) (s t : State), exec i s = .next t →
    (i ∉ [.iterStart, .iterSeek, .iterNext, .clear] →
      t.itv = s.itv ∧ t.itph = s.itph ∧ t.itw = s.itw ∧ t.itcur = s.itcur) ∧
    (Inv s → s.itv = true → t.itv = true → t.store = s.store ∧ t.nwords = s.nwords ∧ t.limit = s.limit)

/-! ## Construction -/

/-- R171, R187, R189: a build from EMPTY within the capacity completes with READY = 1, LIMIT the bound rounded up to a
multiple of 240, NWORDS words of STORE and their running popcounts in PFX; SCR, SMALL, TRACK and NTRACK change, and
nothing else does but ERR, RV and BUSY. -/
def Obligations.BuildCompletes : Prop :=
  ∀ (i : Instr) (s : State) (bound w : Nat), s.cfg.wf = true → s.ready = false →
    (i = .buildLimit ∧ bound = s.larg0.toNat ∨ i = .buildNprimes ∧ bound = nprimesBound s.cfg s.larg0.toNat) →
    w = (bound + 239) / 240 → w ≤ s.cfg.maxWords →
    ∃ store pfx scr small track ntrack draws,
      exec i s = .next { s with
        ready := true
        limit := BitVec.ofNat 64 (240 * w)
        nwords := BitVec.ofNat 64 w
        store := store
        pfx := pfx
        scr := scr
        small := small
        track := track
        ntrack := ntrack
        draws := draws
        err := .none
        rv := false
        busy := false } ∧
      store.length = w ∧ pfx.length = w ∧ scr.length = s.cfg.segmentLen ∧ 240 * w < 2 ^ 64 ∧
      ∀ j, j < w → (wordAt .pfx pfx j).toNat =
        ((List.range (j + 1)).map (fun k => popcount (wordAt .store store k))).sum

/-- R171, R187, R244: a build while READY = 1 ends in STATE, one beyond the capacity in CAPACITY, with nothing else
changed. -/
def Obligations.BuildErrors : Prop :=
  ∀ (i : Instr) (s : State) (bound : Nat),
    (i = .buildLimit ∧ bound = s.larg0.toNat ∨ i = .buildNprimes ∧ bound = nprimesBound s.cfg s.larg0.toNat) →
    (s.ready = true → exec i s = .next { s with err := .state, rv := false, busy := false }) ∧
    (s.ready = false → s.cfg.maxWords < (bound + 239) / 240 →
      exec i s = .next { s with err := .capacity, rv := false, busy := false })

/-- R42, R185: a successful build leaves STORE exact: bit b of word i is set iff 240·i + OFFSET[b] is prime. -/
def Obligations.BuiltStoreHoldsExactlyThePrimes : Prop :=
  ∀ (i : Instr) (s t : State), s.cfg.wf = true → i ∈ [.buildLimit, .buildNprimes] →
    exec i s = .next t → t.err = .none → ∀ j b, j < t.nwords.toNat → b < 64 →
      ((wordAt .store t.store j).getLsbD b = true ↔ Nat.Prime (240 * j + offset b))

/-- R185: the store a build leaves, by BUILD_LIMIT or BUILD_NPRIMES, does not depend on SEGMENT_LEN. -/
def Obligations.BuildIgnoresSegmentLength : Prop :=
  ∀ (i : Instr) (s t u : State) (m : Nat), i ∈ [.buildLimit, .buildNprimes] → s.cfg.wf = true → 1 ≤ m →
    exec i s = .next t →
    exec i { s with cfg := { s.cfg with segmentLen := m } } = .next u →
    u.store = t.store ∧ u.pfx = t.pfx ∧ u.limit = t.limit ∧ u.nwords = t.nwords ∧ u.ready = t.ready ∧ u.err = t.err

/-- R175: after the ascending pass, `SMALL[j][b] = 1` iff 240·j + OFFSET[b] is prime, for every word. -/
def Obligations.SmallSieveIsExact : Prop :=
  ∀ n, 1 ≤ n → (smallSieve n).length = n ∧
    ∀ j b, j < n → b < 64 →
      ((wordAt .small (smallSieve n) j).getLsbD b = true ↔ Nat.Prime (240 * j + offset b))

/-- R8, R174, R178: a construction within MAX_WORDS fits SMALL_MAX words of SMALL and TRACK_MAX entries of TRACK. -/
def Obligations.InternalSizesSuffice : Prop :=
  ∀ (s : State) (w : Nat), w ≤ s.cfg.maxWords →
    (constructStore w s).small.length ≤ smallMax s.cfg ∧
    (constructStore w s).track.length ≤ trackMax s.cfg ∧
    (constructStore w s).ntrack = (constructStore w s).track.length

/-- R7, R186, U5: NPRIMES_BOUND is a configuration function that is never below the n-th prime counted from 1: every
function with that property is some engine's, on every count an operand can hold. Where an engine does not override a
count the bound is the reference definition: 11 up to 5; from 6 on the reference floor lies between `boundLo` and
`boundHi`, and is the bound wherever the two agree, as V-B6 of 95_test_vectors.md tabulates it. Which number between
them it is elsewhere, and that a number below the n-th prime is raised to it, is the model's choice (log 11). -/
def Obligations.NprimesBoundReachesTheNthPrime : Prop :=
  (∀ c n, 1 ≤ n → Nat.nth Nat.Prime (n - 1) ≤ nprimesBound c n) ∧
  (∀ (c : Config) (g : Nat → Nat) (m : Nat), (∀ n, 1 ≤ n → Nat.nth Nat.Prime (n - 1) ≤ g n) →
    ∃ table, ∀ n, n < m → nprimesBound { c with boundOverrides := table } n = g n) ∧
  (∀ c : Config, ∀ n, c.boundOverrides.lookup n = none →
    (n ≤ 5 → nprimesBound c n = 11) ∧
    (6 ≤ n → ∀ f, isReferenceBound f →
      (boundLo n ≤ f n ∧ f n ≤ boundHi n) ∧
      (∃ r, boundLo n ≤ r ∧ r ≤ boundHi n ∧ nprimesBound c n = max (Nat.nth Nat.Prime (n - 1)) r) ∧
      (boundLo n = boundHi n → nprimesBound c n = max (Nat.nth Nat.Prime (n - 1)) (f n)))) ∧
  (∀ c : Config, c.boundOverrides = [] →
    nprimesBound c 6 = 14 ∧ nprimesBound c 7 = 18 ∧ nprimesBound c 50 = 263 ∧ nprimesBound c 100 = 613)

/-- R187: after a successful BUILD_NPRIMES n, the store knows at least n primes, the implicit three among them; for
n = 100 under the reference bound it is the store of LIMIT 720. -/
def Obligations.BuildNprimesReachesTheCount : Prop :=
  ∀ s t : State, s.cfg.wf = true → exec .buildNprimes s = .next t → t.err = .none →
    s.larg0.toNat ≤ 3 + storedPrimes t ∧
    (s.larg0 = 100 → s.cfg.boundOverrides.lookup 100 = none → t.limit = 720 ∧ t.nwords = 3)

/-! ## Facade queries and lifecycle -/

/-- R32: PFX is the running popcount of STORE, and so does not decrease. -/
def Obligations.PrefixIndexCountsTheStore : Prop :=
  ∀ s : State, Inv s →
    (∀ i, i < s.nwords.toNat → (wordAt .pfx s.pfx i).toNat = storedBelow s (i + 1)) ∧
    (∀ i j, i ≤ j → j < s.nwords.toNat → (wordAt .pfx s.pfx i).toNat ≤ (wordAt .pfx s.pfx j).toNat) ∧
    totalPrimes s = storedPrimes s

/-- R212, R213: Q_LIMIT gives LIMIT and NWORDS, Q_NUM_PRIMES the number of primes known and TOTAL; NOSTORE when
EMPTY. -/
def Obligations.LimitAndCountQueries : Prop :=
  decode 0x50#64 = .ok .qLimit ∧ decode 0x51#64 = .ok .qNumPrimes ∧
  ∀ s : State,
    (s.ready = true →
      exec .qLimit s = .next { s with
        res0 := s.limit, res1 := s.nwords, err := .none, rv := true, busy := false }) ∧
    (s.ready = true → Inv s →
      exec .qNumPrimes s = .next { s with
        res0 := BitVec.ofNat 64 (3 + storedPrimes s)
        res1 := BitVec.ofNat 64 (storedPrimes s)
        err := .none
        rv := true
        busy := false } ∧
      3 + storedPrimes s < 2 ^ 64) ∧
    (s.ready = false →
      exec .qLimit s = .next { s with err := .noStore, rv := false, busy := false } ∧
      exec .qNumPrimes s = .next { s with err := .noStore, rv := false, busy := false })

/-- R210: a query command needs READY = 1 and writes only RES0, RES1, RV and ERR (and BUSY falls). -/
def Obligations.QueriesWriteOnlyTheirResult : Prop :=
  ∀ (i : Instr) (s : State), i ∈ [.qLimit, .qNumPrimes, .isPrime, .nthPrime, .rankFind, .storeWord, .storeGet] →
    (s.ready = true → ∃ r0 r1 v e,
      exec i s = .next { s with res0 := r0, res1 := r1, rv := v, err := e, busy := false }) ∧
    (s.ready = false → exec i s = .next { s with err := .noStore, rv := false, busy := false })

/-- R214-R216: on a store that holds exactly the primes below LIMIT, IS_PRIME decides primality of 2, 3, 5 and of every
n ≤ LIMIT², and is indeterminate beyond. -/
def Obligations.IsPrimeDecidesPrimality : Prop :=
  ∀ s : State, InvExact s → s.ready = true →
    ((s.larg0.toNat ∈ [2, 3, 5] ∨ s.larg0.toNat ≤ s.limit.toNat ^ 2) →
      exec .isPrime s = .next { s with
        res0 := if Nat.Prime s.larg0.toNat then 1 else 0
        res1 := 0
        err := .none
        rv := true
        busy := false }) ∧
    (¬ (s.larg0.toNat ∈ [2, 3, 5] ∨ s.larg0.toNat ≤ s.limit.toNat ^ 2) →
      exec .isPrime s = .next { s with res0 := 0, res1 := 0, err := .none, rv := false, busy := false })

/-- R218: on a store that holds exactly the primes below LIMIT, NTH_PRIME gives the n-th prime counted from 0 for every
n below num_primes(), and is indeterminate from there on. -/
def Obligations.NthPrimeGivesTheNthPrime : Prop :=
  ∀ s : State, InvExact s → s.ready = true →
    (s.larg0.toNat < 3 + storedPrimes s →
      exec .nthPrime s = .next { s with
        res0 := BitVec.ofNat 64 (Nat.nth Nat.Prime s.larg0.toNat)
        res1 := 0
        err := .none
        rv := true
        busy := false } ∧
      Nat.nth Nat.Prime s.larg0.toNat < 2 ^ 64) ∧
    (3 + storedPrimes s ≤ s.larg0.toNat →
      exec .nthPrime s = .next { s with res0 := 0, res1 := 0, err := .none, rv := false, busy := false })

/-- R217, R219: RANK_FIND gives the least word whose prefix count exceeds m, and the rank of the m-th set lane in it;
indeterminate from TOTAL on; NOSTORE when EMPTY. -/
def Obligations.RankFindLocatesTheLane : Prop :=
  decode 0x54#64 = .ok .rankFind ∧
  ∀ s : State,
    (Inv s → s.ready = true → s.larg0.toNat < storedPrimes s → ∃ i r,
      exec .rankFind s = .next { s with
        res0 := BitVec.ofNat 64 i
        res1 := BitVec.ofNat 64 r
        err := .none
        rv := true
        busy := false } ∧
      i < s.nwords.toNat ∧ s.larg0.toNat < (wordAt .pfx s.pfx i).toNat ∧
      (∀ j, j < i → (wordAt .pfx s.pfx j).toNat ≤ s.larg0.toNat) ∧
      storedBelow s i + r = s.larg0.toNat ∧
      wordAt .store s.store i ≠ 0 ∧ r < popcount (wordAt .store s.store i)) ∧
    (Inv s → s.ready = true → storedPrimes s ≤ s.larg0.toNat →
      exec .rankFind s = .next { s with res0 := 0, res1 := 0, err := .none, rv := false, busy := false }) ∧
    (s.ready = false → exec .rankFind s = .next { s with err := .noStore, rv := false, busy := false })

/-- R221: on a non-decreasing index, the reference binary search finds the least word whose prefix count exceeds m. -/
def Obligations.BinarySearchFindsTheRankIndex : Prop :=
  ∀ (pfx : List Word) (n m : Nat),
    (∀ i j, i ≤ j → j < n → (wordAt .pfx pfx i).toNat ≤ (wordAt .pfx pfx j).toNat) →
    (∃ i, i < n ∧ m < (wordAt .pfx pfx i).toNat) →
    rankIndex pfx n m = some (rankSearch pfx n m)

/-- R220: STORE_WORD gives a store word and its prefix count; RANGE from NWORDS on, NOSTORE when EMPTY. -/
def Obligations.StoreWordReadsWordAndCount : Prop :=
  decode 0x55#64 = .ok .storeWord ∧
  ∀ s : State,
    (s.ready = true → s.larg0.toNat < s.nwords.toNat →
      exec .storeWord s = .next { s with
        res0 := wordAt .store s.store s.larg0.toNat
        res1 := wordAt .pfx s.pfx s.larg0.toNat
        err := .none
        rv := true
        busy := false }) ∧
    (s.ready = true → s.nwords.toNat ≤ s.larg0.toNat →
      exec .storeWord s = .next { s with err := .range, rv := false, busy := false }) ∧
    (s.ready = false → exec .storeWord s = .next { s with err := .noStore, rv := false, busy := false })

/-- R222: CLEAR returns to EMPTY and invalidates the cursor; STORE and PFX become unspecified, and nothing else changes
but ERR, RV and BUSY. -/
def Obligations.ClearReturnsToEmpty : Prop :=
  decode 0x5F#64 = .ok .clear ∧
  ∀ s : State, ∃ store pfx,
    exec .clear s = .next { s with
      ready := false
      limit := 0
      nwords := 0
      itv := false
      store := store
      pfx := pfx
      err := .none
      rv := false
      busy := false }

/-! ## Frames and independence over all commands -/

/-- R31, R32, R33, R36, R285: which commands write STORE and PFX, SCR, the construction's own state, and the wheel
unit. -/
def Obligations.ArraysAndWheelHaveOnlyTheirWriters : Prop :=
  ∀ (i : Instr) (s t : State), exec i s = .next t →
    (i ∉ [.buildLimit, .buildNprimes, .clear] →
      t.store = s.store ∧ t.pfx = s.pfx ∧ t.ready = s.ready ∧ t.limit = s.limit ∧ t.nwords = s.nwords) ∧
    (i ∉ [.buildLimit, .buildNprimes, .scrFill, .scrSetOn, .scrSetOff, .scrWriteWord] → t.scr = s.scr) ∧
    (i ∉ [.buildLimit, .buildNprimes] → t.small = s.small ∧ t.track = s.track ∧ t.ntrack = s.ntrack) ∧
    (i ≠ .wheelNew → t.wv = s.wv ∧ t.wnum = s.wnum) ∧
    (i ∉ [.wheelNew, .wheelNext] → t.widx = s.widx)

/-- R22, R24, R29: no command writes ARG0, ARG1, the latch, OVR, FATAL or the parameters, or touches the host; a
command that names no result leaves RES0 and RES1. -/
def Obligations.CommandsLeaveTheHostSide : Prop :=
  ∀ (i : Instr) (s t : State), exec i s = .next t →
    t.arg0 = s.arg0 ∧ t.arg1 = s.arg1 ∧ t.lcmd = s.lcmd ∧ t.larg0 = s.larg0 ∧ t.larg1 = s.larg1 ∧
    t.ovr = s.ovr ∧ t.fatal = s.fatal ∧ t.cfg = s.cfg ∧ t.host = s.host ∧ t.delay = s.delay ∧
    t.reads = s.reads ∧ t.busy = false ∧
    (i ∈ [.nop, .scrFill, .scrSetOn, .scrSetOff, .scrWriteWord, .wheelNew, .iterStart, .iterSeek, .buildLimit,
      .buildNprimes, .clear] → t.res0 = s.res0 ∧ t.res1 = s.res1 ∧ t.rv = false)

/-- R29, R283: what a command does is independent of ARG0 and ARG1: writing them while it is in flight is safe. -/
def Obligations.CommandsReadOnlyTheLatch : Prop :=
  ∀ (i : Instr) (s t : State) (a b : Word), exec i s = .next t →
    exec i { s with arg0 := a, arg1 := b } = .next { t with arg0 := a, arg1 := b }

/-- R72: a command that uses one operand reads only LARG0, and one that uses none reads neither. -/
def Obligations.CommandsReadOnlyTheirOperands : Prop :=
  ∀ (i : Instr) (s t : State) (a b : Word), exec i s = .next t →
    (operandCount i ≤ 1 → exec i { s with larg1 := b } = .next { t with larg1 := b }) ∧
    (operandCount i = 0 → exec i { s with larg0 := a, larg1 := b } = .next { t with larg0 := a, larg1 := b })

/-! ## Invariants -/

/-- The machine right after reset meets the whole invariant (R41, R42, R43), the model's own parts of it among them
(log 5, log 6, log 8). -/
def Obligations.ResetMeetsTheInvariant : Prop := InvExact State.reset

/-- R30, R32, R42, R43: every step keeps the structural invariant: LIMIT = 240·NWORDS, the prefix index, the cursor's and
the wheel's bounds. Two of its parts are the model's own: the form of the arrays (log 6, log 8), and SEGMENT_LEN below
2^64 among the bounds on the parameters (log 5). -/
def Obligations.EveryStepKeepsTheInvariant : Prop :=
  ∀ s t : State, Inv s → step s = .next t → Inv t

/-- R42: every step keeps the whole invariant: besides the structural one, with the model's own parts (log 5, log 6,
log 8), the store holds exactly the primes from 7 to below LIMIT. -/
def Obligations.EveryStepKeepsTheStoreExact : Prop :=
  ∀ s t : State, InvExact s → step s = .next t → InvExact t
end

