-- ==== Sys2Proof/Laws/Bits.lean ====
section
/-! SUPPORT. The word and number primitives of spec/00_scope.md R9 and R11: what each gives. -/

namespace Sys2Proof.Machine

theorem tz_spec {w : Word} (h : w ≠ 0) :
    tz w < 64 ∧ w.getLsbD (tz w) = true ∧ ∀ c, c < tz w → w.getLsbD c = false := by
  have hex : ∃ x ∈ List.range 64, w.getLsbD x = true := by
    by_contra hn
    push Not at hn
    apply h
    apply BitVec.eq_of_getLsbD_eq
    intro i hi
    simpa using hn i (by simpa using hi)
  have hlt : tz w < (List.range 64).length := List.findIdx_lt_length_of_exists hex
  have h64 : tz w < 64 := by simpa using hlt
  refine ⟨h64, ?_, ?_⟩
  · have hlt' : List.findIdx (fun b => w.getLsbD b) (List.range 64) < (List.range 64).length := hlt
    have := List.findIdx_getElem (w := hlt')
    rw [List.getElem_range] at this
    exact this
  · intro c hc
    have := List.not_of_lt_findIdx (p := fun b => w.getLsbD b) (xs := List.range 64) hc
    simpa using this

theorem tz_unique {w : Word} {b : Nat} (hb : w.getLsbD b = true)
    (hlow : ∀ c, c < b → w.getLsbD c = false) : tz w = b := by
  have h : w ≠ 0 := by rintro rfl; simp at hb
  obtain ⟨_, h1, h2⟩ := tz_spec h
  rcases Nat.lt_trichotomy (tz w) b with hlt | heq | hgt
  · rw [hlow _ hlt] at h1; simp at h1
  · exact heq
  · rw [h2 _ hgt] at hb; simp at hb

theorem clearLowest_getLsbD {w : Word} (h : w ≠ 0) (i : Nat) :
    (clearLowest w).getLsbD i = (w.getLsbD i && decide (i ≠ tz w)) := by
  obtain ⟨hk, hset, hlow⟩ := tz_spec h
  generalize tz w = k at *
  have hpos : 0 < w.toNat := by
    rcases Nat.eq_zero_or_pos w.toNat with h0 | h0
    · exact absurd (BitVec.eq_of_toNat_eq (by simpa using h0)) h
    · exact h0
  have hmod : w.toNat % 2 ^ k = 0 := by
    apply Nat.eq_of_testBit_eq
    intro j
    rw [Nat.testBit_mod_two_pow]
    by_cases hj : j < k
    · have := hlow j hj
      rw [BitVec.getLsbD] at this
      simp [this]
    · simp [hj]
  obtain ⟨q, hq⟩ := Nat.dvd_of_mod_eq_zero hmod
  have hqodd : q.testBit 0 = true := by
    rw [BitVec.getLsbD, hq, Nat.testBit_two_pow_mul] at hset
    simpa using hset
  obtain ⟨m, rfl⟩ : ∃ m, q = 2 * m + 1 := by
    simp [Nat.testBit_zero] at hqodd
    exact ⟨q / 2, by omega⟩
  have hpk : 0 < 2 ^ k := Nat.two_pow_pos k
  have hsub : (w - 1).toNat = 2 ^ k * (2 * m) + (2 ^ k - 1) := by
    rw [BitVec.toNat_sub_of_le]
    · rw [hq, Nat.mul_add]; simp; omega
    · rw [BitVec.le_def]; exact hpos
  simp only [clearLowest, BitVec.getLsbD_and]
  rw [BitVec.getLsbD, BitVec.getLsbD, hsub, Nat.testBit_two_pow_mul_add _ (by omega), hq,
    Nat.testBit_two_pow_mul]
  by_cases hik : i < k
  · simp [hik, Nat.not_le.mpr hik]
  · by_cases he : i = k
    · subst he; simp
    · have h1 : i - k ≠ 0 := by omega
      obtain ⟨d, hd⟩ := Nat.exists_eq_succ_of_ne_zero h1
      have hle : k ≤ i := by omega
      have e1 : (2 * m + 1).testBit (d + 1) = m.testBit d := by
        rw [Nat.testBit_succ]; congr 1; omega
      have e2 : (2 * m).testBit (d + 1) = m.testBit d := by
        rw [Nat.testBit_succ]; congr 1; omega
      simp only [hik, hle, hd, Nat.succ_eq_add_one, if_false]
      rw [e1, e2]; simp [he]

/-- Set bits below position `n`. -/
theorem countP_range_succ (p : Nat → Bool) (n : Nat) :
    (List.range (n + 1)).countP p = (List.range n).countP p + (if p n then 1 else 0) := by
  rw [List.range_succ, List.countP_append]; simp [List.countP_cons]

theorem countP_clearLowest {w : Word} (h : w ≠ 0) (n : Nat) :
    (List.range n).countP (fun b => w.getLsbD b) =
      (List.range n).countP (fun b => (clearLowest w).getLsbD b) + (if tz w < n then 1 else 0) := by
  obtain ⟨_, hset, _⟩ := tz_spec h
  induction n with
  | zero => simp
  | succ n ih =>
    rw [countP_range_succ, countP_range_succ, ih, clearLowest_getLsbD h]
    rcases Nat.lt_trichotomy (tz w) n with hlt | heq | hgt
    · have : n ≠ tz w := by omega
      simp [hlt, this, Nat.lt_succ_of_lt hlt]; omega
    · subst heq; simp [hset]
    · have : n ≠ tz w := by omega
      have h2 : ¬ tz w < n + 1 := by omega
      have h3 : ¬ tz w < n := by omega
      simp [this, h2, h3]

theorem popcount_clearLowest {w : Word} (h : w ≠ 0) : popcount w = popcount (clearLowest w) + 1 := by
  have := countP_clearLowest h 64
  simpa [popcount, (tz_spec h).1] using this

theorem popcount_zero : popcount 0#64 = 0 := by decide

theorem popcount_le (w : Word) : popcount w ≤ 64 := by
  simpa [popcount] using List.countP_le_length (p := fun b => w.getLsbD b) (l := List.range 64)

theorem select_spec (w : Word) (r : Nat) (h : r < popcount w) :
    select w r < 64 ∧ w.getLsbD (select w r) = true ∧
      (List.range (select w r)).countP (fun b => w.getLsbD b) = r := by
  induction r generalizing w with
  | zero =>
    have hw : w ≠ 0 := by rintro rfl; simp [popcount_zero] at h
    obtain ⟨h1, h2, h3⟩ := tz_spec hw
    refine ⟨h1, h2, ?_⟩
    simp only [select]
    rw [List.countP_eq_zero]
    intro a ha
    simp [h3 a (by simpa using ha)]
  | succ r ih =>
    have hw : w ≠ 0 := by rintro rfl; simp [popcount_zero] at h
    have hp := popcount_clearLowest hw
    obtain ⟨h1, h2, h3⟩ := ih (clearLowest w) (by omega)
    rw [clearLowest_getLsbD hw] at h2
    simp only [Bool.and_eq_true, decide_eq_true_eq] at h2
    refine ⟨h1, h2.1, ?_⟩
    simp only [select]
    rw [countP_clearLowest hw, h3]
    have hlt : tz w < select (clearLowest w) r := by
      rcases Nat.lt_trichotomy (tz w) (select (clearLowest w) r) with hl | he | hg
      · exact hl
      · exact absurd he.symm h2.2
      · rw [(tz_spec hw).2.2 _ hg] at h2; simp at h2
    simp [hlt]

theorem isqrtAux_spec (fuel n : Nat) (h : n ≤ fuel) :
    isqrtAux fuel n * isqrtAux fuel n ≤ n ∧ n < (isqrtAux fuel n + 1) * (isqrtAux fuel n + 1) := by
  induction fuel generalizing n with
  | zero => have : n = 0 := by omega
            subst this; simp [isqrtAux]
  | succ fuel ih =>
    by_cases hn : n = 0
    · subst hn; simp [isqrtAux]
    · obtain ⟨h1, h2⟩ := ih (n / 4) (by omega)
      simp only [isqrtAux, hn, if_false]
      generalize isqrtAux fuel (n / 4) = r at *
      split <;> rename_i hc
      · refine ⟨hc, ?_⟩
        have : n < 4 * ((r + 1) * (r + 1)) := by omega
        nlinarith
      · refine ⟨?_, by omega⟩
        have : 4 * (r * r) ≤ n := by omega
        nlinarith

/-- `isqrt` is the floor square root (R9). -/
theorem isqrt_spec (n : Nat) : isqrt n * isqrt n ≤ n ∧ n < (isqrt n + 1) * (isqrt n + 1) :=
  isqrtAux_spec n n (Nat.le_refl n)

theorem isqrt_eq_sqrt (n : Nat) : isqrt n = Nat.sqrt n := by
  rw [Nat.eq_sqrt]; exact isqrt_spec n

theorem isqrt_mono {m n : Nat} (h : m ≤ n) : isqrt m ≤ isqrt n := by
  rw [isqrt_eq_sqrt, isqrt_eq_sqrt]; exact Nat.sqrt_le_sqrt h

theorem isPrimeNumber_iff (n : Nat) : isPrimeNumber n = true ↔ Nat.Prime n := by
  simp only [isPrimeNumber, Bool.and_eq_true, decide_eq_true_eq, List.all_eq_true, List.mem_range,
    Bool.or_eq_true, bne_iff_ne]
  rw [Nat.prime_def_lt]
  constructor
  · rintro ⟨h2, h⟩
    refine ⟨h2, fun m hm hd => ?_⟩
    rcases h m hm with h1 | h1
    · have : m ≠ 0 := by rintro rfl; simp at hd; omega
      omega
    · exact absurd (Nat.mod_eq_zero_of_dvd hd) h1
  · rintro ⟨h2, h⟩
    refine ⟨h2, fun d hd => ?_⟩
    by_cases hd2 : d < 2
    · exact .inl hd2
    · right
      intro h0
      have := h d hd (Nat.dvd_of_mod_eq_zero h0)
      omega

/-- With a prime among the numbers it looks at, `primeFrom` finds the least one. -/
theorem primeFrom_spec (fuel v : Nat) (h : ∃ p, Nat.Prime p ∧ v ≤ p ∧ p < v + fuel) :
    Nat.Prime (primeFrom fuel v) ∧ v ≤ primeFrom fuel v ∧ ∀ q, Nat.Prime q → v ≤ q → primeFrom fuel v ≤ q := by
  induction fuel generalizing v with
  | zero => obtain ⟨p, _, h1, h2⟩ := h; omega
  | succ fuel ih =>
    simp only [primeFrom]
    split <;> rename_i hv
    · rw [isPrimeNumber_iff] at hv
      exact ⟨hv, Nat.le_refl v, fun q _ hq => hq⟩
    · have hv' : ¬ Nat.Prime v := by rw [← isPrimeNumber_iff]; simpa using hv
      obtain ⟨p, hp, h1, h2⟩ := h
      have hne : v ≠ p := by rintro rfl; exact hv' hp
      obtain ⟨h3, h4, h5⟩ := ih (v + 1) ⟨p, hp, by omega, by omega⟩
      refine ⟨h3, by omega, fun q hq hvq => h5 q hq ?_⟩
      have : v ≠ q := by rintro rfl; exact hv' hq
      omega

/-- `primeAt` counts the primes from 0 (Bertrand's postulate gives the next one in reach). -/
theorem primeAt_eq_nth (n : Nat) : primeAt n = Nat.nth Nat.Prime n := by
  induction n with
  | zero => simp [primeAt, Nat.nth_prime_zero_eq_two]
  | succ n ih =>
    have hp : Nat.Prime (primeAt n) := by rw [ih]; exact Nat.prime_nth_prime n
    obtain ⟨p, hp1, hp2, hp3⟩ := Nat.exists_prime_lt_and_le_two_mul (primeAt n) hp.ne_zero
    obtain ⟨h1, h2, h3⟩ := primeFrom_spec (primeAt n) (primeAt n + 1) ⟨p, hp1, by omega, by omega⟩
    simp only [primeAt]
    apply Nat.le_antisymm
    · refine h3 _ (Nat.prime_nth_prime _) ?_
      rw [ih]
      exact Nat.nth_strictMono Nat.infinite_setOfPred_prime (Nat.lt_succ_self n)
    · rw [← Nat.nth_count (p := Nat.Prime) h1]
      apply Nat.nth_monotone Nat.infinite_setOfPred_prime
      have : Nat.nth Nat.Prime n < primeFrom (primeAt n) (primeAt n + 1) := by rw [← ih]; omega
      by_contra hc
      have hc' : Nat.count Nat.Prime (primeFrom (primeAt n) (primeAt n + 1)) ≤ n := by omega
      have h4 : Nat.nth Nat.Prime _ ≤ Nat.nth Nat.Prime n := Nat.nth_monotone Nat.infinite_setOfPred_prime hc'
      rw [Nat.nth_count h1] at h4
      omega
end Sys2Proof.Machine
end

