-- ==== Sys2Proof/Laws/Codec.lean ====
section
/-! SUPPORT. The codec: tables, lanes, and what get, set_on and set_off do lane by lane (spec/40_codec.md R101-R108). -/

namespace Sys2Proof.Machine

theorem offset_lt {b : Nat} (hb : b < 64) : offset b < 240 :=
  (by decide : ∀ b < 64, offset b < 240) b hb

theorem offset_coprime {b : Nat} (hb : b < 64) : Nat.gcd (offset b) 30 = 1 :=
  (by decide : ∀ b < 64, Nat.gcd (offset b) 30 = 1) b hb

theorem offset_succ_lt {b : Nat} (hb : b < 63) : offset b < offset (b + 1) :=
  (by decide : ∀ b < 63, offset b < offset (b + 1)) b hb

theorem offset_lt_offset {b c : Nat} (h : b < c) (hc : c < 64) : offset b < offset c := by
  induction c with
  | zero => omega
  | succ c ih =>
    have h1 := offset_succ_lt (b := c) (by omega)
    rcases Nat.lt_or_ge b c with h2 | h2
    · exact Nat.lt_trans (ih h2 (by omega)) h1
    · have : b = c := by omega
      subst this; exact h1

theorem offset_inj {b c : Nat} (hb : b < 64) (hc : c < 64) (h : offset b = offset c) : b = c := by
  rcases Nat.lt_trichotomy b c with h1 | h1 | h1
  · have := offset_lt_offset h1 hc; omega
  · exact h1
  · have := offset_lt_offset h1 hb; omega

theorem lane_of_coprime : ∀ r < 240, Nat.gcd r 30 = 1 → ∃ b < 64, offset b = r := by
  decide +kernel

theorem bitmap_offset {b : Nat} (hb : b < 64) : bitmap (offset b) = 1#64 <<< b :=
  (by decide : ∀ b < 64, bitmap (offset b) = 1#64 <<< b) b hb

theorem bitmap_eq_zero_iff {r : Nat} (hr : r < 240) : bitmap r = 0 ↔ Nat.gcd r 30 ≠ 1 :=
  (by decide +kernel : ∀ r < 240, bitmap r = 0 ↔ Nat.gcd r 30 ≠ 1) r hr

/-- The number of lane `b` of word `j` names that word and that lane. -/
theorem lane_number {j b : Nat} (hb : b < 64) :
    (240 * j + offset b) / 240 = j ∧ (240 * j + offset b) % 240 = offset b := by
  have := offset_lt hb; omega

theorem lane_number_inj {j k b c : Nat} (hb : b < 64) (hc : c < 64)
    (h : 240 * j + offset b = 240 * k + offset c) : j = k ∧ b = c := by
  have h1 := lane_number (j := j) hb
  have h2 := lane_number (j := k) hc
  rw [h] at h1
  exact ⟨by omega, offset_inj hb hc (by omega)⟩

theorem gcd_thirty_congr {m n : Nat} (h : m % 30 = n % 30) : Nat.gcd m 30 = Nat.gcd n 30 := by
  rw [Nat.gcd_comm m, Nat.gcd_comm n, Nat.gcd_rec 30 m, Nat.gcd_rec 30 n, h]

theorem lane_coprime (j : Nat) {b : Nat} (hb : b < 64) : Nat.gcd (240 * j + offset b) 30 = 1 := by
  rw [gcd_thirty_congr (n := offset b) (by omega)]; exact offset_coprime hb

/-- An index is the number of a lane, and its mask has that one bit, or it is not representable and its mask is 0
(R101-R103). -/
theorem codecMap_cases (idx : Nat) :
    (Nat.gcd idx 30 ≠ 1 ∧ codecMap idx = (idx / 240, 0)) ∨
    (Nat.gcd idx 30 = 1 ∧ ∃ b < 64, idx = 240 * (idx / 240) + offset b ∧
      codecMap idx = (idx / 240, 1#64 <<< b)) := by
  have hg : Nat.gcd idx 30 = Nat.gcd (idx % 240) 30 := gcd_thirty_congr (by omega)
  have hr : idx % 240 < 240 := Nat.mod_lt _ (by omega)
  rw [hg]
  by_cases h : Nat.gcd (idx % 240) 30 = 1
  · right
    obtain ⟨b, hb, hb2⟩ := lane_of_coprime _ hr h
    refine ⟨h, b, hb, by omega, ?_⟩
    simp [codecMap, ← hb2, bitmap_offset hb]
  · left
    exact ⟨h, by simp [codecMap, (bitmap_eq_zero_iff hr).mpr h]⟩

theorem wordAt_lt {item : Item} {a : List Word} {j : Nat} (h : j < a.length) : wordAt item a j = a[j] := by
  simp [wordAt, h]

theorem one_shiftLeft_ne_zero {b : Nat} (hb : b < 64) : (1#64 <<< b) ≠ 0 := by
  intro h
  have := congrArg (fun w => BitVec.getLsbD w b) h
  simp [hb] at this

theorem getLsbD_one_shiftLeft {b c : Nat} (hc : c < 64) : (1#64 <<< b).getLsbD c = decide (c = b) := by
  simp only [BitVec.getLsbD_shiftLeft, BitVec.getLsbD_one]
  by_cases h1 : c < b
  · have : c ≠ b := by omega
    simp [h1, this]
  · by_cases h2 : c = b
    · subst h2; simp [hc]
    · have : c - b ≠ 0 := by omega
      simp [h2, this]

/-- `get` of a lane's number reads that lane (R104, R108). -/
theorem codecGet_lane (item : Item) (a : List Word) (j : Nat) {b : Nat} (hb : b < 64) :
    codecGet item a (240 * j + offset b) = (wordAt item a j).getLsbD b := by
  have hn := lane_number (j := j) hb
  have hm : codecMap (240 * j + offset b) = (j, 1#64 <<< b) := by
    simp [codecMap, hn, bitmap_offset hb]
  rw [codecGet, hm]
  simp only [one_shiftLeft_ne_zero hb, if_false]
  rw [Bool.eq_iff_iff]
  simp only [bne_iff_ne]
  constructor
  · intro h
    by_contra hc
    apply h
    apply BitVec.eq_of_getLsbD_eq
    intro i hi
    by_cases hib : i = b
    · subst hib; simp at hc; simp [hc]
    · have : i - b = 0 → i < b := by omega
      simp only [BitVec.getLsbD_and, BitVec.getLsbD_shiftLeft, BitVec.getLsbD_one]
      by_cases h2 : i < b
      · simp [h2]
      · have : i - b ≠ 0 := by omega
        simp [this]
  · intro h hc
    have := congrArg (fun w => BitVec.getLsbD w b) hc
    simp only [BitVec.getLsbD_and, h, getLsbD_one_shiftLeft hb] at this
    simp at this

/-- `get` of an index that is not representable is 0 (R104). -/
theorem codecGet_of_not_coprime (item : Item) (a : List Word) {idx : Nat} (h : Nat.gcd idx 30 ≠ 1) :
    codecGet item a idx = false := by
  rcases codecMap_cases idx with ⟨_, hm⟩ | ⟨h1, _⟩
  · simp [codecGet, hm]
  · exact absurd h1 h

theorem codecSetOff_length (a : List Word) (idx : Nat) : (codecSetOff a idx).length = a.length := by
  unfold codecSetOff; split <;> simp

theorem codecSetOn_length (a : List Word) (idx : Nat) : (codecSetOn a idx).length = a.length := by
  unfold codecSetOn; split <;> simp

/-- `set_off` clears the lane of its index and no other (R106, R108). -/
theorem codecSetOff_lane (item : Item) {a : List Word} (idx : Nat) {j b : Nat} (hj : j < a.length) (hb : b < 64) :
    (wordAt item (codecSetOff a idx) j).getLsbD b =
      ((wordAt item a j).getLsbD b && decide (240 * j + offset b ≠ idx)) := by
  have hj' : j < (codecSetOff a idx).length := by rw [codecSetOff_length]; exact hj
  rw [wordAt_lt hj, wordAt_lt hj']
  rcases codecMap_cases idx with ⟨h1, hm⟩ | ⟨h1, c, hc, hidx, hm⟩
  · have hne : 240 * j + offset b ≠ idx := by
      rintro rfl
      apply h1
      exact lane_coprime j hb
    simp [codecSetOff, hm, hne]
  · have hz := one_shiftLeft_ne_zero hc
    have hs : codecSetOff a idx = a.modify (idx / 240) (fun w => w &&& ~~~(1#64 <<< c)) := by
      unfold codecSetOff; rw [hm]; exact if_neg hz
    simp only [hs, List.getElem_modify]
    by_cases hq : idx / 240 = j
    · simp only [hq, if_true, BitVec.getLsbD_and, BitVec.getLsbD_not, getLsbD_one_shiftLeft hb]
      by_cases hbc : b = c
      · subst hbc
        have : 240 * j + offset b = idx := by rw [← hq]; omega
        simp [this]
      · have : 240 * j + offset b ≠ idx := by
          intro he
          rw [hidx] at he
          exact hbc (lane_number_inj hb hc he).2
        simp [this, hbc, hb]
    · have : 240 * j + offset b ≠ idx := by
        intro he
        rw [hidx] at he
        exact hq (lane_number_inj hb hc he).1.symm
      simp [hq, this]

/-- `set_on` sets the lane of its index and no other (R105, R108). -/
theorem codecSetOn_lane (item : Item) {a : List Word} (idx : Nat) {j b : Nat} (hj : j < a.length) (hb : b < 64) :
    (wordAt item (codecSetOn a idx) j).getLsbD b =
      ((wordAt item a j).getLsbD b || decide (240 * j + offset b = idx)) := by
  have hj' : j < (codecSetOn a idx).length := by rw [codecSetOn_length]; exact hj
  rw [wordAt_lt hj, wordAt_lt hj']
  rcases codecMap_cases idx with ⟨h1, hm⟩ | ⟨h1, c, hc, hidx, hm⟩
  · have hne : 240 * j + offset b ≠ idx := by
      rintro rfl
      apply h1
      exact lane_coprime j hb
    simp [codecSetOn, hm, hne]
  · have hz := one_shiftLeft_ne_zero hc
    have hs : codecSetOn a idx = a.modify (idx / 240) (fun w => w ||| (1#64 <<< c)) := by
      unfold codecSetOn; rw [hm]; exact if_neg hz
    simp only [hs, List.getElem_modify]
    by_cases hq : idx / 240 = j
    · simp only [hq, if_true, BitVec.getLsbD_or, getLsbD_one_shiftLeft hb]
      by_cases hbc : b = c
      · subst hbc
        have : 240 * j + offset b = idx := by rw [← hq]; omega
        simp [this]
      · have : 240 * j + offset b ≠ idx := by
          intro he
          rw [hidx] at he
          exact hbc (lane_number_inj hb hc he).2
        simp [this, hbc]
    · have : 240 * j + offset b ≠ idx := by
        intro he
        rw [hidx] at he
        exact hq (lane_number_inj hb hc he).1.symm
      simp [hq, this]
end Sys2Proof.Machine
end

