-- ==== Sys2Proof/Laws/Wheel.lean ====
section
/-! SUPPORT. The wheel generator: positions and gaps (spec/41_wheel.md R131, R132, R135). -/

namespace Sys2Proof.Machine

theorem wheelPos_spec {k : Nat} (h : Nat.gcd k 30 = 1) :
    residTable.getD (wheelPos k).toNat 0 = k % 30 := by
  have h' : Nat.gcd (k % 30) 30 = 1 := by rw [← h, Nat.gcd_comm k, Nat.gcd_rec 30 k]
  have : ∀ r < 30, Nat.gcd r 30 = 1 → residTable.getD (wheelPos r).toNat 0 = r := by decide
  have h2 := this (k % 30) (Nat.mod_lt _ (by omega)) h'
  have h3 : wheelPos k = wheelPos (k % 30) := by simp [wheelPos]
  rw [h3, h2]

theorem coprime_thirty_mod (k : Nat) : Nat.gcd (k % 30) 30 = Nat.gcd k 30 := by
  rw [Nat.gcd_comm k, Nat.gcd_rec 30 k]

theorem wheelPos_mod (k : Nat) : wheelPos (k % 30) = wheelPos k := by simp [wheelPos]

theorem gap_bounds (wi : BitVec 3) : 2 ≤ gap wi ∧ gap wi ≤ 6 := by
  revert wi; decide

/-- From a multiplier coprime to 30, the gap at its position leads to the next one, and the index with it (R131,
R132, R135). -/
theorem gap_next {k : Nat} (h : Nat.gcd k 30 = 1) :
    Nat.gcd (k + gap (wheelPos k)) 30 = 1 ∧ wheelPos (k + gap (wheelPos k)) = wheelPos k + 1 ∧
      ∀ x, k < x → x < k + gap (wheelPos k) → Nat.gcd x 30 ≠ 1 := by
  have key1 : ∀ r < 30, Nat.gcd r 30 = 1 → Nat.gcd (r + gap (wheelPos r)) 30 = 1 := by decide
  have key2 : ∀ r < 30, Nat.gcd r 30 = 1 → wheelPos (r + gap (wheelPos r)) = wheelPos r + 1 := by decide
  have key3 : ∀ r < 30, ∀ d < 6, Nat.gcd r 30 = 1 ∧ 0 < d ∧ d < gap (wheelPos r) → Nat.gcd (r + d) 30 ≠ 1 := by
    decide
  have hk : Nat.gcd (k % 30) 30 = 1 := by rw [coprime_thirty_mod]; exact h
  have hr : k % 30 < 30 := Nat.mod_lt _ (by omega)
  have h1 := key1 _ hr hk
  have h2 := key2 _ hr hk
  have h3 := fun d hd h0 hlt => key3 _ hr d hd ⟨hk, h0, hlt⟩
  have h4 := (gap_bounds (wheelPos k)).2
  rw [wheelPos_mod] at h1 h2 h3
  refine ⟨?_, ?_, ?_⟩
  · rw [← coprime_thirty_mod] at h1 ⊢
    rw [← h1]; congr 1; omega
  · rw [← wheelPos_mod] at h2 ⊢
    rw [← h2]; congr 1; omega
  · intro x hx1 hx2 hx
    apply h3 (x - k) (by omega) (by omega) (by omega)
    rw [← coprime_thirty_mod] at hx ⊢
    rw [← hx]; congr 1; omega

theorem wheelInit_square {p : Nat} (hp : 0 < p) : wheelInit p (p * p) = wheelPos p := by
  rw [wheelInit, Nat.mul_div_cancel _ hp, wheelPos_mod]

end Sys2Proof.Machine
end

