-- ==== Sys2Proof/Laws/Construction.lean ====
section
/-! SUPPORT. The constructor: the crossing loop lane by lane, array lengths, and what the steps of a build write
(spec/43_sieve_build.md R172-R183). -/

namespace Sys2Proof.Machine

/-- Everything the crossing loop does (R175, R179). The index `nxt` stands for the number `base + nxt = p·k`, `k`
coprime to 30. It clears the lanes below `bound` whose numbers are `p·x` for `x ≥ k` coprime to 30, and stops at the
first multiple at or above `bound`, its wheel index in step. -/
theorem crossOff_spec (bound p base : Nat) (hp : 0 < p) (fuel nxt k : Nat) (a : List Word)
    (hk : Nat.gcd k 30 = 1) (hn : base + nxt = p * k) (hf : bound ≤ nxt + fuel) :
    (crossOff bound p fuel nxt (wheelPos k) a).1.length = a.length ∧
    (∀ item j b, j < a.length → b < 64 →
      ((wordAt item (crossOff bound p fuel nxt (wheelPos k) a).1 j).getLsbD b = true ↔
        (wordAt item a j).getLsbD b = true ∧
          ¬ (240 * j + offset b < bound ∧
            ∃ x, k ≤ x ∧ Nat.gcd x 30 = 1 ∧ base + (240 * j + offset b) = p * x))) ∧
    ∃ m, k ≤ m ∧ Nat.gcd m 30 = 1 ∧
      base + (crossOff bound p fuel nxt (wheelPos k) a).2.1 = p * m ∧
      (crossOff bound p fuel nxt (wheelPos k) a).2.2 = wheelPos m ∧
      bound ≤ (crossOff bound p fuel nxt (wheelPos k) a).2.1 ∧
      ∀ x, k ≤ x → x < m → Nat.gcd x 30 = 1 → p * x < base + bound := by
  induction fuel generalizing nxt k a with
  | zero =>
    have hstep : crossOff bound p 0 nxt (wheelPos k) a = (a, nxt, wheelPos k) := rfl
    rw [hstep]
    refine ⟨rfl, ?_, k, Nat.le_refl k, hk, hn, rfl, by simpa using (by omega : bound ≤ nxt), fun x h1 h2 => by omega⟩
    intro item j b hj hb
    have : ¬ (240 * j + offset b < bound ∧
        ∃ x, k ≤ x ∧ Nat.gcd x 30 = 1 ∧ base + (240 * j + offset b) = p * x) := by
      rintro ⟨h1, x, hx, _, he⟩
      have := Nat.mul_le_mul_left p hx
      omega
    simp [this]
  | succ fuel ih =>
    by_cases hlt : nxt < bound
    · obtain ⟨hg, hpos, hno⟩ := gap_next hk
      have hgb := gap_bounds (wheelPos k)
      have hstep : crossOff bound p (fuel + 1) nxt (wheelPos k) a =
          crossOff bound p fuel (nxt + gap (wheelPos k) * p) (wheelPos (k + gap (wheelPos k)))
            (codecSetOff a nxt) := by
        simp [crossOff, hlt, wheelStep, hpos]
      have hmul : p ≤ gap (wheelPos k) * p := Nat.le_mul_of_pos_left p (by omega)
      have hn' : base + (nxt + gap (wheelPos k) * p) = p * (k + gap (wheelPos k)) := by
        rw [Nat.mul_add, ← hn]; ring
      obtain ⟨h1, h2, m, h3, h4, h5, h6, h7, h8⟩ :=
        ih (nxt + gap (wheelPos k) * p) (k + gap (wheelPos k)) (codecSetOff a nxt) hg hn' (by omega)
      rw [hstep]
      refine ⟨by rw [h1, codecSetOff_length], ?_, m, by omega, h4, h5, h6, h7, ?_⟩
      · intro item j b hj hb
        rw [h2 item j b (by rw [codecSetOff_length]; exact hj) hb, codecSetOff_lane item nxt hj hb]
        simp only [Bool.and_eq_true, decide_eq_true_eq, and_assoc]
        refine and_congr_right fun _ => ?_
        constructor
        · rintro ⟨hne, hnot⟩ ⟨hb2, x, hx, hgx, he⟩
          rcases Nat.lt_or_ge x (k + gap (wheelPos k)) with hxl | hxl
          · rcases Nat.lt_or_ge k x with hkx | hkx
            · exact hno x hkx hxl hgx
            · have : x = k := by omega
              subst this
              exact hne (by omega)
          · exact hnot ⟨hb2, x, hxl, hgx, he⟩
        · intro hnot
          refine ⟨?_, ?_⟩
          · intro he
            exact hnot ⟨by omega, k, Nat.le_refl k, hk, by omega⟩
          · rintro ⟨hb2, x, hx, hgx, he⟩
            exact hnot ⟨hb2, x, by omega, hgx, he⟩
      · intro x hx1 hx2 hgx
        rcases Nat.lt_or_ge x (k + gap (wheelPos k)) with hxl | hxl
        · rcases Nat.lt_or_ge k x with hkx | hkx
          · exact absurd hgx (hno x hkx hxl)
          · have : x = k := by omega
            subst this; omega
        · exact h8 x hxl hx2 hgx
    · have hstep : crossOff bound p (fuel + 1) nxt (wheelPos k) a = (a, nxt, wheelPos k) := by
        simp [crossOff, hlt]
      rw [hstep]
      refine ⟨rfl, ?_, k, Nat.le_refl k, hk, hn, rfl, by simpa using (by omega : bound ≤ nxt), fun x h1 h2 => by omega⟩
      intro item j b hj hb
      have : ¬ (240 * j + offset b < bound ∧
          ∃ x, k ≤ x ∧ Nat.gcd x 30 = 1 ∧ base + (240 * j + offset b) = p * x) := by
        rintro ⟨h1, x, hx, _, he⟩
        have := Nat.mul_le_mul_left p hx
        omega
      simp [this]

theorem freshWords_length (n : Nat) (first : Bool) : (freshWords n first).length = n := by
  unfold freshWords; split <;> simp

/-- A fresh array has every lane set but the value 1 of word 0, where it is force-cleared (R175, R180). -/
theorem freshWords_lane (item : Item) {n : Nat} (first : Bool) {j b : Nat} (hj : j < n) (hb : b < 64) :
    (wordAt item (freshWords n first) j).getLsbD b = !(first && decide (j = 0 ∧ b = 0)) := by
  rw [wordAt_lt (by rw [freshWords_length]; exact hj)]
  cases first
  · simp [freshWords, hb]
  · simp only [freshWords, if_true, List.getElem_modify]
    by_cases h0 : j = 0
    · subst h0
      by_cases hb0 : b = 0
      · subst hb0; simp
      · have h2 : (~~~1#64 : Word).getLsbD b = true := by rw [BitVec.getLsbD_not]; simp [hb, hb0]
        simp only [if_true, BitVec.getLsbD_and, h2]; simp [hb, hb0]
    · have : ¬ (0 = j) := by omega
      simp [this, h0, hb]

theorem crossAll_length (len : Nat) (ts : List Tracked) (scr : List Word) :
    (crossAll len ts scr).2.length = ts.length := by
  induction ts generalizing scr with
  | nil => rfl
  | cons t ts ih => simp [crossAll, ih]

theorem crossOff_length (bound p fuel nxt : Nat) (wi : BitVec 3) (a : List Word) :
    (crossOff bound p fuel nxt wi a).1.length = a.length := by
  induction fuel generalizing nxt wi a with
  | zero => rfl
  | succ fuel ih =>
    simp only [crossOff]
    split
    · rw [ih, codecSetOff_length]
    · rfl

theorem crossAll_scr_length (len : Nat) (ts : List Tracked) (scr : List Word) :
    (crossAll len ts scr).1.length = scr.length := by
  induction ts generalizing scr with
  | nil => rfl
  | cons t ts ih => simp [crossAll, ih, crossTracked, crossOff_length]

theorem prefixCounts_length (acc : Nat) (xs : List Word) : (prefixCounts acc xs).length = xs.length := by
  induction xs generalizing acc with
  | nil => rfl
  | cons x xs ih => simp [prefixCounts, ih]

/-- A segment writes SCR, TRACK, NTRACK and STORE, and appends as many words as R181 says. -/
theorem buildSegment_shape (w seg : Nat) (sp : List Nat) (s : State) :
    ∃ scr track ntrack words,
      (buildSegment w seg sp s).2 =
        { s with scr := scr, track := track, ntrack := ntrack, store := s.store ++ words } ∧
      words.length = min s.cfg.segmentLen (w - seg * s.cfg.segmentLen) := by
  refine ⟨_, _, _, _, rfl, ?_⟩
  simp [crossAll_scr_length, freshWords_length]

/-- The segments write SCR, TRACK, NTRACK and STORE only; STORE grows to `min ((seg + count)·SEGMENT_LEN) W`. -/
theorem buildSegments_shape (w count seg : Nat) (sp : List Nat) (s : State)
    (h : s.store.length = min (seg * s.cfg.segmentLen) w) :
    ∃ scr track ntrack store,
      buildSegments w count seg sp s = { s with scr := scr, track := track, ntrack := ntrack, store := store } ∧
      store.length = min ((seg + count) * s.cfg.segmentLen) w := by
  induction count generalizing seg sp s with
  | zero => exact ⟨_, _, _, _, rfl, h⟩
  | succ count ih =>
    obtain ⟨scr, track, ntrack, words, he, hl⟩ := buildSegment_shape w seg sp s
    simp only [buildSegments]
    have hlen : (buildSegment w seg sp s).2.store.length =
        min ((seg + 1) * (buildSegment w seg sp s).2.cfg.segmentLen) w := by
      rw [he]
      simp only [List.length_append, h, hl]
      rw [Nat.add_mul]
      omega
    obtain ⟨scr', track', ntrack', store', he', hl'⟩ := ih (seg + 1) _ _ hlen
    rw [he'] 
    rw [he] at hl' ⊢
    refine ⟨scr', track', ntrack', store', rfl, ?_⟩
    rw [hl']
    simp only [show seg + 1 + count = seg + (count + 1) by omega]

theorem segmentCount_mul_ge {c : Config} (w : Nat) (h : 1 ≤ c.segmentLen) :
    w ≤ segmentCount c w * c.segmentLen := by
  unfold segmentCount ceilDiv
  have h1 := Nat.div_add_mod (w + c.segmentLen - 1) c.segmentLen
  have h2 := Nat.mod_lt (w + c.segmentLen - 1) h
  rw [Nat.mul_comm] at h1
  omega

/-- The construction writes SMALL, SCR, TRACK, NTRACK, STORE and PFX only; STORE gets `W` words and PFX their running
popcounts (R172-R182). -/
theorem constructStore_shape (w : Nat) (s : State) (h : 1 ≤ s.cfg.segmentLen) :
    ∃ small scr track ntrack store,
      constructStore w s =
        { s with
          small := small
          scr := scr
          track := track
          ntrack := ntrack
          store := store
          pfx := prefixCounts 0 store } ∧
      store.length = w := by
  obtain ⟨scr, track, ntrack, store, he, hl⟩ :=
    buildSegments_shape w (segmentCount s.cfg w) 0 (smallPrimes w (buildSmall w (startBuild s)))
      (buildSmall w (startBuild s)) (by simp [buildSmall, startBuild])
  refine ⟨smallSieve (smallWords w), scr, track, ntrack, store, ?_, ?_⟩
  · simp only [constructStore]
    rw [he]
    rfl
  · rw [hl]
    have := segmentCount_mul_ge (c := s.cfg) w h
    simp only [Nat.zero_add, buildSmall, startBuild]
    omega

/-- Everything `build` can do (R171). -/
theorem build_cases (limit : Nat) (s : State) :
    (storeWords limit > s.cfg.maxWords ∧ build limit s = raise .capacity s) ∨
    (storeWords limit ≤ s.cfg.maxWords ∧
      build limit s = publishStore (storeWords limit) (constructStore (storeWords limit) s)) := by
  unfold build
  split
  · exact .inl ⟨‹_›, rfl⟩
  · exact .inr ⟨by omega, rfl⟩

/-- Entry `i` of the prefix counts (R182). -/
theorem prefixCounts_getD (acc : Nat) (xs : List Word) (i : Nat) (h : i < xs.length) (d : Word) :
    (prefixCounts acc xs).getD i d = word (acc + ((xs.take (i + 1)).map popcount).sum) := by
  induction xs generalizing acc i with
  | nil => simp at h
  | cons x xs ih =>
    cases i with
    | zero => simp [prefixCounts]
    | succ i =>
      have hi : i < xs.length := by simpa using h
      have := ih (acc + popcount x) i hi
      simp only [prefixCounts, List.getD_cons_succ, this, List.take_succ_cons, List.map_cons, List.sum_cons,
        Nat.add_assoc]

end Sys2Proof.Machine
end

