-- ==== Sys2Proof/Laws/Decoder.lean ====
section
/-! SUPPORT. Everything a decode step can do (spec/42_decoder.md R151). -/

namespace Sys2Proof.Machine

theorem decNextFrom_of_ne_zero (item : Item) (a : List Word) (n fuel w : Nat) {cur : Word} (h : cur ≠ 0) :
    decNextFrom item a n fuel w cur = .value (240 * w + offset (tz cur)) w (clearLowest cur) := by
  cases fuel <;> simp only [decNextFrom, h, if_false]

/-- A cursor with bits left yields its lowest lane and stays in its word (R151). -/
theorem decNext_of_ne_zero (item : Item) (a : List Word) (n w : Nat) {cur : Word} (h : cur ≠ 0) :
    decNext item a n w cur = .value (240 * w + offset (tz cur)) w (clearLowest cur) :=
  decNextFrom_of_ne_zero item a n _ w h

theorem decNextFrom_skip (item : Item) (a : List Word) (n fuel w v : Nat) (hw : w < v) (hv : v < n)
    (hf : v ≤ w + fuel) (hz : ∀ u, w < u → u < v → wordAt item a u = 0) (hne : wordAt item a v ≠ 0) :
    decNextFrom item a n fuel w 0 =
      .value (240 * v + offset (tz (wordAt item a v))) v (clearLowest (wordAt item a v)) := by
  induction fuel generalizing w with
  | zero => omega
  | succ fuel ih =>
    have h1 : ¬ (w + 1 ≥ n) := by omega
    simp only [decNextFrom, if_true, h1, if_false]
    rcases Nat.lt_or_ge (w + 1) v with h2 | h2
    · rw [hz (w + 1) (by omega) h2]
      exact ih (w + 1) h2 (by omega) (fun u hu => hz u (by omega))
    · have : v = w + 1 := by omega
      subst this
      exact decNextFrom_of_ne_zero item a n fuel _ hne

/-- An exhausted word: the next nonzero word, if there is one, gives its lowest lane (R151). -/
theorem decNext_skip (item : Item) (a : List Word) (n w v : Nat) (hw : w < v) (hv : v < n)
    (hz : ∀ u, w < u → u < v → wordAt item a u = 0) (hne : wordAt item a v ≠ 0) :
    decNext item a n w 0 =
      .value (240 * v + offset (tz (wordAt item a v))) v (clearLowest (wordAt item a v)) :=
  decNextFrom_skip item a n _ w v hw hv (by omega) hz hne

theorem decNextFrom_ended (item : Item) (a : List Word) (n fuel w : Nat)
    (hz : ∀ u, w < u → u < n → wordAt item a u = 0) : decNextFrom item a n fuel w 0 = .ended n 0 := by
  induction fuel generalizing w with
  | zero => simp [decNextFrom]
  | succ fuel ih =>
    by_cases h1 : w + 1 ≥ n
    · simp [decNextFrom, h1]
    · simp only [decNextFrom, if_true, h1, if_false]
      rw [hz (w + 1) (by omega) (by omega)]
      exact ih (w + 1) (fun u hu => hz u (by omega))

/-- No nonzero word is left: the sequence ends (R151, R156). -/
theorem decNext_ended (item : Item) (a : List Word) (n w : Nat)
    (hz : ∀ u, w < u → u < n → wordAt item a u = 0) : decNext item a n w 0 = .ended n 0 :=
  decNextFrom_ended item a n _ w hz

/-- Everything a decode step can do (R151). -/
theorem decNext_cases (item : Item) (a : List Word) (n w : Nat) (cur : Word) :
    (cur ≠ 0 ∧ decNext item a n w cur = .value (240 * w + offset (tz cur)) w (clearLowest cur)) ∨
    (cur = 0 ∧ ∃ v, w < v ∧ v < n ∧ (∀ u, w < u → u < v → wordAt item a u = 0) ∧ wordAt item a v ≠ 0 ∧
      decNext item a n w cur =
        .value (240 * v + offset (tz (wordAt item a v))) v (clearLowest (wordAt item a v))) ∨
    (cur = 0 ∧ (∀ u, w < u → u < n → wordAt item a u = 0) ∧ decNext item a n w cur = .ended n 0) := by
  by_cases hc : cur = 0
  · subst hc
    by_cases hex : ∃ v, w < v ∧ v < n ∧ wordAt item a v ≠ 0
    · right; left
      classical
      obtain ⟨h1, h2, h3⟩ := Nat.find_spec hex
      have hmin : ∀ u, w < u → u < Nat.find hex → wordAt item a u = 0 := by
        intro u hu hlt
        by_contra hne
        exact Nat.find_min hex hlt ⟨hu, by omega, hne⟩
      exact ⟨rfl, _, h1, h2, hmin, h3, decNext_skip item a n w _ h1 h2 hmin h3⟩
    · right; right
      push Not at hex
      exact ⟨rfl, hex, decNext_ended item a n w hex⟩
  · exact .inl ⟨hc, decNext_of_ne_zero item a n w hc⟩

theorem decodeFrom_length_le (item : Item) (a : List Word) (n fuel w : Nat) (cur : Word) :
    (decodeFrom item a n fuel w cur).length ≤ fuel := by
  induction fuel generalizing w cur with
  | zero => simp [decodeFrom]
  | succ fuel ih =>
    simp only [decodeFrom]
    split
    · simpa using ih _ _
    · simp

end Sys2Proof.Machine
end

