-- ==== Sys2Proof/Laws/Facade.lean ====
section
/-! SUPPORT. Everything the trial loop and the rank index can say (spec/44_facade.md R216, R217). -/

namespace Sys2Proof.Machine

/-- Everything the trial loop can say (R216): some divisor among those with `p² ≤ n` before a larger one decides. -/
theorem trialBy_eq_false_iff (n : Nat) (ps : List Nat) (hs : ps.Pairwise (· < ·)) :
    trialBy n ps = false ↔ ∃ p ∈ ps, p * p ≤ n ∧ p ∣ n := by
  induction ps with
  | nil => simp [trialBy]
  | cons p ps ih =>
    rw [List.pairwise_cons] at hs
    simp only [trialBy]
    split <;> rename_i h1
    · constructor
      · intro h; cases h
      · rintro ⟨q, hq, hq2, _⟩
        rcases List.mem_cons.mp hq with rfl | hq
        · omega
        · have := Nat.mul_self_lt_mul_self (hs.1 q hq); omega
    · split <;> rename_i h2
      · exact ⟨fun _ => ⟨p, by simp, by omega, Nat.dvd_of_mod_eq_zero h2⟩, fun _ => rfl⟩
      · rw [ih hs.2]
        constructor
        · rintro ⟨q, hq, h⟩; exact ⟨q, by simp [hq], h⟩
        · rintro ⟨q, hq, h3, h4⟩
          rcases List.mem_cons.mp hq with rfl | hq
          · exact absurd (Nat.mod_eq_zero_of_dvd h4) h2
          · exact ⟨q, hq, h3, h4⟩

/-- Everything the rank index can be (R217). -/
theorem rankIndex_cases (pfx : List Word) (n m : Nat) :
    (∃ i, rankIndex pfx n m = some i ∧ i < n ∧ m < (wordAt .pfx pfx i).toNat ∧
      ∀ j, j < i → (wordAt .pfx pfx j).toNat ≤ m) ∨
    (rankIndex pfx n m = none ∧ ∀ i, i < n → (wordAt .pfx pfx i).toNat ≤ m) := by
  unfold rankIndex
  cases h : (List.range n).find? (fun i => decide (m < (wordAt .pfx pfx i).toNat)) with
  | none =>
    right
    refine ⟨rfl, fun i hi => ?_⟩
    have := List.find?_eq_none.mp h i (by simpa using hi)
    simpa using this
  | some i =>
    left
    rw [List.find?_range_eq_some] at h
    refine ⟨i, rfl, by simpa using h.2.1, by simpa using h.1, fun j hj => ?_⟩
    simpa using h.2.2 j hj

end Sys2Proof.Machine
end

