-- ==== Sys2Proof/Laws/Flags.lean ====
section
/-! SUPPORT. The STATUS layout bit by bit (spec/10_state.md R23, R44). -/

namespace Sys2Proof.Machine

theorem packStatus_toNat (b0 b1 b2 b3 b4 b5 b6 : Bool) (e : Nat) :
    (packStatus b0 b1 b2 b3 b4 b5 b6 e).toNat =
      b0.toNat + 2 * b1.toNat + 4 * b2.toNat + 8 * b3.toNat + 16 * b4.toNat + 32 * b5.toNat + 64 * b6.toNat +
        256 * (e % 256) := by
  have h : ∀ b : Bool, b.toNat ≤ 1 := fun b => by cases b <;> decide
  have h0 := h b0; have h1 := h b1; have h2 := h b2; have h3 := h b3
  have h4 := h b4; have h5 := h b5; have h6 := h b6
  simp only [packStatus, BitVec.toNat_ofNat]
  omega

theorem getLsbD_eq_div (w : Word) (k : Nat) : w.getLsbD k = decide (w.toNat / 2 ^ k % 2 = 1) := by
  rw [BitVec.getLsbD, Nat.testBit_eq_decide_div_mod_eq]

/-- The fields of the STATUS layout (R23), and its reserved bits (R44). -/
theorem packStatus_bits (b0 b1 b2 b3 b4 b5 b6 : Bool) (e : Nat) :
    (packStatus b0 b1 b2 b3 b4 b5 b6 e).getLsbD 0 = b0 ∧ (packStatus b0 b1 b2 b3 b4 b5 b6 e).getLsbD 1 = b1 ∧
    (packStatus b0 b1 b2 b3 b4 b5 b6 e).getLsbD 2 = b2 ∧ (packStatus b0 b1 b2 b3 b4 b5 b6 e).getLsbD 3 = b3 ∧
    (packStatus b0 b1 b2 b3 b4 b5 b6 e).getLsbD 4 = b4 ∧ (packStatus b0 b1 b2 b3 b4 b5 b6 e).getLsbD 5 = b5 ∧
    (packStatus b0 b1 b2 b3 b4 b5 b6 e).getLsbD 6 = b6 ∧ (packStatus b0 b1 b2 b3 b4 b5 b6 e).getLsbD 7 = false ∧
    ((packStatus b0 b1 b2 b3 b4 b5 b6 e).extractLsb' 8 8).toNat = e % 256 ∧
    ∀ k, 16 ≤ k → (packStatus b0 b1 b2 b3 b4 b5 b6 e).getLsbD k = false := by
  have h : ∀ b : Bool, b.toNat ≤ 1 := fun b => by cases b <;> decide
  have hd : ∀ b : Bool, b = decide (b.toNat = 1) := fun b => by cases b <;> decide
  have h0 := h b0; have h1 := h b1; have h2 := h b2; have h3 := h b3
  have h4 := h b4; have h5 := h b5; have h6 := h b6
  have ht := packStatus_toNat b0 b1 b2 b3 b4 b5 b6 e
  generalize packStatus b0 b1 b2 b3 b4 b5 b6 e = w at ht
  have hm : e % 256 < 256 := Nat.mod_lt _ (by omega)
  simp only [getLsbD_eq_div]
  refine ⟨?_, ?_, ?_, ?_, ?_, ?_, ?_, ?_, ?_, ?_⟩
  · rw [hd b0]; congr 1; apply propext; omega
  · rw [hd b1]; congr 1; apply propext; omega
  · rw [hd b2]; congr 1; apply propext; omega
  · rw [hd b3]; congr 1; apply propext; omega
  · rw [hd b4]; congr 1; apply propext; omega
  · rw [hd b5]; congr 1; apply propext; omega
  · rw [hd b6]; congr 1; apply propext; omega
  · simp only [decide_eq_false_iff_not]; omega
  · rw [BitVec.extractLsb'_toNat, Nat.shiftRight_eq_div_pow]; omega
  · intro k hk
    have : w.toNat / 2 ^ k = 0 := by
      apply Nat.div_eq_of_lt
      have : 2 ^ 16 ≤ 2 ^ k := Nat.pow_le_pow_right (by omega) hk
      omega
    simp [this]

theorem err_code_lt (e : Err) : e.code < 7 := by cases e <;> decide

end Sys2Proof.Machine
end

