-- ==== Sys2Proof/Laws/State.lean ====
section
/-! SUPPORT. One lemma per field for each shared way a command ends, and for the passing of a host step, so that no
later proof unfolds these record updates. -/

namespace Sys2Proof.Machine

@[simp] theorem raise_cfg (e : Err) (s : State) : (raise e s).cfg = s.cfg := rfl
@[simp] theorem raise_busy (e : Err) (s : State) : (raise e s).busy = false := rfl
@[simp] theorem raise_ready (e : Err) (s : State) : (raise e s).ready = s.ready := rfl
@[simp] theorem raise_rv (e : Err) (s : State) : (raise e s).rv = false := rfl
@[simp] theorem raise_itv (e : Err) (s : State) : (raise e s).itv = s.itv := rfl
@[simp] theorem raise_wv (e : Err) (s : State) : (raise e s).wv = s.wv := rfl
@[simp] theorem raise_ovr (e : Err) (s : State) : (raise e s).ovr = s.ovr := rfl
@[simp] theorem raise_fatal (e : Err) (s : State) : (raise e s).fatal = s.fatal := rfl
@[simp] theorem raise_err (e : Err) (s : State) : (raise e s).err = e := rfl
@[simp] theorem raise_arg0 (e : Err) (s : State) : (raise e s).arg0 = s.arg0 := rfl
@[simp] theorem raise_arg1 (e : Err) (s : State) : (raise e s).arg1 = s.arg1 := rfl
@[simp] theorem raise_res0 (e : Err) (s : State) : (raise e s).res0 = s.res0 := rfl
@[simp] theorem raise_res1 (e : Err) (s : State) : (raise e s).res1 = s.res1 := rfl
@[simp] theorem raise_lcmd (e : Err) (s : State) : (raise e s).lcmd = s.lcmd := rfl
@[simp] theorem raise_larg0 (e : Err) (s : State) : (raise e s).larg0 = s.larg0 := rfl
@[simp] theorem raise_larg1 (e : Err) (s : State) : (raise e s).larg1 = s.larg1 := rfl
@[simp] theorem raise_limit (e : Err) (s : State) : (raise e s).limit = s.limit := rfl
@[simp] theorem raise_nwords (e : Err) (s : State) : (raise e s).nwords = s.nwords := rfl
@[simp] theorem raise_store (e : Err) (s : State) : (raise e s).store = s.store := rfl
@[simp] theorem raise_pfx (e : Err) (s : State) : (raise e s).pfx = s.pfx := rfl
@[simp] theorem raise_scr (e : Err) (s : State) : (raise e s).scr = s.scr := rfl
@[simp] theorem raise_small (e : Err) (s : State) : (raise e s).small = s.small := rfl
@[simp] theorem raise_track (e : Err) (s : State) : (raise e s).track = s.track := rfl
@[simp] theorem raise_ntrack (e : Err) (s : State) : (raise e s).ntrack = s.ntrack := rfl
@[simp] theorem raise_wnum (e : Err) (s : State) : (raise e s).wnum = s.wnum := rfl
@[simp] theorem raise_widx (e : Err) (s : State) : (raise e s).widx = s.widx := rfl
@[simp] theorem raise_itph (e : Err) (s : State) : (raise e s).itph = s.itph := rfl
@[simp] theorem raise_itw (e : Err) (s : State) : (raise e s).itw = s.itw := rfl
@[simp] theorem raise_itcur (e : Err) (s : State) : (raise e s).itcur = s.itcur := rfl
@[simp] theorem raise_delay (e : Err) (s : State) : (raise e s).delay = s.delay := rfl
@[simp] theorem raise_draws (e : Err) (s : State) : (raise e s).draws = s.draws := rfl
@[simp] theorem raise_host (e : Err) (s : State) : (raise e s).host = s.host := rfl
@[simp] theorem raise_reads (e : Err) (s : State) : (raise e s).reads = s.reads := rfl

@[simp] theorem finish_cfg (s : State) : (finish s).cfg = s.cfg := rfl
@[simp] theorem finish_busy (s : State) : (finish s).busy = false := rfl
@[simp] theorem finish_ready (s : State) : (finish s).ready = s.ready := rfl
@[simp] theorem finish_rv (s : State) : (finish s).rv = false := rfl
@[simp] theorem finish_itv (s : State) : (finish s).itv = s.itv := rfl
@[simp] theorem finish_wv (s : State) : (finish s).wv = s.wv := rfl
@[simp] theorem finish_ovr (s : State) : (finish s).ovr = s.ovr := rfl
@[simp] theorem finish_fatal (s : State) : (finish s).fatal = s.fatal := rfl
@[simp] theorem finish_err (s : State) : (finish s).err = .none := rfl
@[simp] theorem finish_arg0 (s : State) : (finish s).arg0 = s.arg0 := rfl
@[simp] theorem finish_arg1 (s : State) : (finish s).arg1 = s.arg1 := rfl
@[simp] theorem finish_res0 (s : State) : (finish s).res0 = s.res0 := rfl
@[simp] theorem finish_res1 (s : State) : (finish s).res1 = s.res1 := rfl
@[simp] theorem finish_lcmd (s : State) : (finish s).lcmd = s.lcmd := rfl
@[simp] theorem finish_larg0 (s : State) : (finish s).larg0 = s.larg0 := rfl
@[simp] theorem finish_larg1 (s : State) : (finish s).larg1 = s.larg1 := rfl
@[simp] theorem finish_limit (s : State) : (finish s).limit = s.limit := rfl
@[simp] theorem finish_nwords (s : State) : (finish s).nwords = s.nwords := rfl
@[simp] theorem finish_store (s : State) : (finish s).store = s.store := rfl
@[simp] theorem finish_pfx (s : State) : (finish s).pfx = s.pfx := rfl
@[simp] theorem finish_scr (s : State) : (finish s).scr = s.scr := rfl
@[simp] theorem finish_small (s : State) : (finish s).small = s.small := rfl
@[simp] theorem finish_track (s : State) : (finish s).track = s.track := rfl
@[simp] theorem finish_ntrack (s : State) : (finish s).ntrack = s.ntrack := rfl
@[simp] theorem finish_wnum (s : State) : (finish s).wnum = s.wnum := rfl
@[simp] theorem finish_widx (s : State) : (finish s).widx = s.widx := rfl
@[simp] theorem finish_itph (s : State) : (finish s).itph = s.itph := rfl
@[simp] theorem finish_itw (s : State) : (finish s).itw = s.itw := rfl
@[simp] theorem finish_itcur (s : State) : (finish s).itcur = s.itcur := rfl
@[simp] theorem finish_delay (s : State) : (finish s).delay = s.delay := rfl
@[simp] theorem finish_draws (s : State) : (finish s).draws = s.draws := rfl
@[simp] theorem finish_host (s : State) : (finish s).host = s.host := rfl
@[simp] theorem finish_reads (s : State) : (finish s).reads = s.reads := rfl

@[simp] theorem finishWith_cfg (r0 r1 : Word) (s : State) : (finishWith r0 r1 s).cfg = s.cfg := rfl
@[simp] theorem finishWith_busy (r0 r1 : Word) (s : State) : (finishWith r0 r1 s).busy = false := rfl
@[simp] theorem finishWith_ready (r0 r1 : Word) (s : State) : (finishWith r0 r1 s).ready = s.ready := rfl
@[simp] theorem finishWith_rv (r0 r1 : Word) (s : State) : (finishWith r0 r1 s).rv = true := rfl
@[simp] theorem finishWith_itv (r0 r1 : Word) (s : State) : (finishWith r0 r1 s).itv = s.itv := rfl
@[simp] theorem finishWith_wv (r0 r1 : Word) (s : State) : (finishWith r0 r1 s).wv = s.wv := rfl
@[simp] theorem finishWith_ovr (r0 r1 : Word) (s : State) : (finishWith r0 r1 s).ovr = s.ovr := rfl
@[simp] theorem finishWith_fatal (r0 r1 : Word) (s : State) : (finishWith r0 r1 s).fatal = s.fatal := rfl
@[simp] theorem finishWith_err (r0 r1 : Word) (s : State) : (finishWith r0 r1 s).err = .none := rfl
@[simp] theorem finishWith_arg0 (r0 r1 : Word) (s : State) : (finishWith r0 r1 s).arg0 = s.arg0 := rfl
@[simp] theorem finishWith_arg1 (r0 r1 : Word) (s : State) : (finishWith r0 r1 s).arg1 = s.arg1 := rfl
@[simp] theorem finishWith_res0 (r0 r1 : Word) (s : State) : (finishWith r0 r1 s).res0 = r0 := rfl
@[simp] theorem finishWith_res1 (r0 r1 : Word) (s : State) : (finishWith r0 r1 s).res1 = r1 := rfl
@[simp] theorem finishWith_lcmd (r0 r1 : Word) (s : State) : (finishWith r0 r1 s).lcmd = s.lcmd := rfl
@[simp] theorem finishWith_larg0 (r0 r1 : Word) (s : State) : (finishWith r0 r1 s).larg0 = s.larg0 := rfl
@[simp] theorem finishWith_larg1 (r0 r1 : Word) (s : State) : (finishWith r0 r1 s).larg1 = s.larg1 := rfl
@[simp] theorem finishWith_limit (r0 r1 : Word) (s : State) : (finishWith r0 r1 s).limit = s.limit := rfl
@[simp] theorem finishWith_nwords (r0 r1 : Word) (s : State) : (finishWith r0 r1 s).nwords = s.nwords := rfl
@[simp] theorem finishWith_store (r0 r1 : Word) (s : State) : (finishWith r0 r1 s).store = s.store := rfl
@[simp] theorem finishWith_pfx (r0 r1 : Word) (s : State) : (finishWith r0 r1 s).pfx = s.pfx := rfl
@[simp] theorem finishWith_scr (r0 r1 : Word) (s : State) : (finishWith r0 r1 s).scr = s.scr := rfl
@[simp] theorem finishWith_small (r0 r1 : Word) (s : State) : (finishWith r0 r1 s).small = s.small := rfl
@[simp] theorem finishWith_track (r0 r1 : Word) (s : State) : (finishWith r0 r1 s).track = s.track := rfl
@[simp] theorem finishWith_ntrack (r0 r1 : Word) (s : State) : (finishWith r0 r1 s).ntrack = s.ntrack := rfl
@[simp] theorem finishWith_wnum (r0 r1 : Word) (s : State) : (finishWith r0 r1 s).wnum = s.wnum := rfl
@[simp] theorem finishWith_widx (r0 r1 : Word) (s : State) : (finishWith r0 r1 s).widx = s.widx := rfl
@[simp] theorem finishWith_itph (r0 r1 : Word) (s : State) : (finishWith r0 r1 s).itph = s.itph := rfl
@[simp] theorem finishWith_itw (r0 r1 : Word) (s : State) : (finishWith r0 r1 s).itw = s.itw := rfl
@[simp] theorem finishWith_itcur (r0 r1 : Word) (s : State) : (finishWith r0 r1 s).itcur = s.itcur := rfl
@[simp] theorem finishWith_delay (r0 r1 : Word) (s : State) : (finishWith r0 r1 s).delay = s.delay := rfl
@[simp] theorem finishWith_draws (r0 r1 : Word) (s : State) : (finishWith r0 r1 s).draws = s.draws := rfl
@[simp] theorem finishWith_host (r0 r1 : Word) (s : State) : (finishWith r0 r1 s).host = s.host := rfl
@[simp] theorem finishWith_reads (r0 r1 : Word) (s : State) : (finishWith r0 r1 s).reads = s.reads := rfl

@[simp] theorem finishIndet_cfg (s : State) : (finishIndet s).cfg = s.cfg := rfl
@[simp] theorem finishIndet_busy (s : State) : (finishIndet s).busy = false := rfl
@[simp] theorem finishIndet_ready (s : State) : (finishIndet s).ready = s.ready := rfl
@[simp] theorem finishIndet_rv (s : State) : (finishIndet s).rv = false := rfl
@[simp] theorem finishIndet_itv (s : State) : (finishIndet s).itv = s.itv := rfl
@[simp] theorem finishIndet_wv (s : State) : (finishIndet s).wv = s.wv := rfl
@[simp] theorem finishIndet_ovr (s : State) : (finishIndet s).ovr = s.ovr := rfl
@[simp] theorem finishIndet_fatal (s : State) : (finishIndet s).fatal = s.fatal := rfl
@[simp] theorem finishIndet_err (s : State) : (finishIndet s).err = .none := rfl
@[simp] theorem finishIndet_arg0 (s : State) : (finishIndet s).arg0 = s.arg0 := rfl
@[simp] theorem finishIndet_arg1 (s : State) : (finishIndet s).arg1 = s.arg1 := rfl
@[simp] theorem finishIndet_res0 (s : State) : (finishIndet s).res0 = 0 := rfl
@[simp] theorem finishIndet_res1 (s : State) : (finishIndet s).res1 = 0 := rfl
@[simp] theorem finishIndet_lcmd (s : State) : (finishIndet s).lcmd = s.lcmd := rfl
@[simp] theorem finishIndet_larg0 (s : State) : (finishIndet s).larg0 = s.larg0 := rfl
@[simp] theorem finishIndet_larg1 (s : State) : (finishIndet s).larg1 = s.larg1 := rfl
@[simp] theorem finishIndet_limit (s : State) : (finishIndet s).limit = s.limit := rfl
@[simp] theorem finishIndet_nwords (s : State) : (finishIndet s).nwords = s.nwords := rfl
@[simp] theorem finishIndet_store (s : State) : (finishIndet s).store = s.store := rfl
@[simp] theorem finishIndet_pfx (s : State) : (finishIndet s).pfx = s.pfx := rfl
@[simp] theorem finishIndet_scr (s : State) : (finishIndet s).scr = s.scr := rfl
@[simp] theorem finishIndet_small (s : State) : (finishIndet s).small = s.small := rfl
@[simp] theorem finishIndet_track (s : State) : (finishIndet s).track = s.track := rfl
@[simp] theorem finishIndet_ntrack (s : State) : (finishIndet s).ntrack = s.ntrack := rfl
@[simp] theorem finishIndet_wnum (s : State) : (finishIndet s).wnum = s.wnum := rfl
@[simp] theorem finishIndet_widx (s : State) : (finishIndet s).widx = s.widx := rfl
@[simp] theorem finishIndet_itph (s : State) : (finishIndet s).itph = s.itph := rfl
@[simp] theorem finishIndet_itw (s : State) : (finishIndet s).itw = s.itw := rfl
@[simp] theorem finishIndet_itcur (s : State) : (finishIndet s).itcur = s.itcur := rfl
@[simp] theorem finishIndet_delay (s : State) : (finishIndet s).delay = s.delay := rfl
@[simp] theorem finishIndet_draws (s : State) : (finishIndet s).draws = s.draws := rfl
@[simp] theorem finishIndet_host (s : State) : (finishIndet s).host = s.host := rfl
@[simp] theorem finishIndet_reads (s : State) : (finishIndet s).reads = s.reads := rfl

@[simp] theorem tick_cfg (s : State) : (tick s).cfg = s.cfg := by
  unfold tick; split <;> rfl
@[simp] theorem tick_busy (s : State) : (tick s).busy = s.busy := by
  unfold tick; split <;> rfl
@[simp] theorem tick_ready (s : State) : (tick s).ready = s.ready := by
  unfold tick; split <;> rfl
@[simp] theorem tick_rv (s : State) : (tick s).rv = s.rv := by
  unfold tick; split <;> rfl
@[simp] theorem tick_itv (s : State) : (tick s).itv = s.itv := by
  unfold tick; split <;> rfl
@[simp] theorem tick_wv (s : State) : (tick s).wv = s.wv := by
  unfold tick; split <;> rfl
@[simp] theorem tick_ovr (s : State) : (tick s).ovr = s.ovr := by
  unfold tick; split <;> rfl
@[simp] theorem tick_fatal (s : State) : (tick s).fatal = s.fatal := by
  unfold tick; split <;> rfl
@[simp] theorem tick_err (s : State) : (tick s).err = s.err := by
  unfold tick; split <;> rfl
@[simp] theorem tick_arg0 (s : State) : (tick s).arg0 = s.arg0 := by
  unfold tick; split <;> rfl
@[simp] theorem tick_arg1 (s : State) : (tick s).arg1 = s.arg1 := by
  unfold tick; split <;> rfl
@[simp] theorem tick_res0 (s : State) : (tick s).res0 = s.res0 := by
  unfold tick; split <;> rfl
@[simp] theorem tick_res1 (s : State) : (tick s).res1 = s.res1 := by
  unfold tick; split <;> rfl
@[simp] theorem tick_lcmd (s : State) : (tick s).lcmd = s.lcmd := by
  unfold tick; split <;> rfl
@[simp] theorem tick_larg0 (s : State) : (tick s).larg0 = s.larg0 := by
  unfold tick; split <;> rfl
@[simp] theorem tick_larg1 (s : State) : (tick s).larg1 = s.larg1 := by
  unfold tick; split <;> rfl
@[simp] theorem tick_limit (s : State) : (tick s).limit = s.limit := by
  unfold tick; split <;> rfl
@[simp] theorem tick_nwords (s : State) : (tick s).nwords = s.nwords := by
  unfold tick; split <;> rfl
@[simp] theorem tick_store (s : State) : (tick s).store = s.store := by
  unfold tick; split <;> rfl
@[simp] theorem tick_pfx (s : State) : (tick s).pfx = s.pfx := by
  unfold tick; split <;> rfl
@[simp] theorem tick_scr (s : State) : (tick s).scr = s.scr := by
  unfold tick; split <;> rfl
@[simp] theorem tick_small (s : State) : (tick s).small = s.small := by
  unfold tick; split <;> rfl
@[simp] theorem tick_track (s : State) : (tick s).track = s.track := by
  unfold tick; split <;> rfl
@[simp] theorem tick_ntrack (s : State) : (tick s).ntrack = s.ntrack := by
  unfold tick; split <;> rfl
@[simp] theorem tick_wnum (s : State) : (tick s).wnum = s.wnum := by
  unfold tick; split <;> rfl
@[simp] theorem tick_widx (s : State) : (tick s).widx = s.widx := by
  unfold tick; split <;> rfl
@[simp] theorem tick_itph (s : State) : (tick s).itph = s.itph := by
  unfold tick; split <;> rfl
@[simp] theorem tick_itw (s : State) : (tick s).itw = s.itw := by
  unfold tick; split <;> rfl
@[simp] theorem tick_itcur (s : State) : (tick s).itcur = s.itcur := by
  unfold tick; split <;> rfl
@[simp] theorem tick_draws (s : State) : (tick s).draws = s.draws := by
  unfold tick; split <;> rfl
@[simp] theorem tick_host (s : State) : (tick s).host = s.host := by
  unfold tick; split <;> rfl
@[simp] theorem tick_reads (s : State) : (tick s).reads = s.reads := by
  unfold tick; split <;> rfl

theorem tick_delay (s : State) : (tick s).delay = if s.busy then s.delay - 1 else s.delay := by
  unfold tick; split <;> rfl

theorem tick_of_idle {s : State} (h : s.busy = false) : tick s = s := by simp [tick, h]

end Sys2Proof.Machine
end

