-- ==== Sys2Proof/Laws/Step.lean ====
section
/-! SUPPORT. Everything a step can do: of the engine, of the host, of an access (spec/60_exceptions.md R240,
spec/20_memory.md R52-R56). -/

namespace Sys2Proof.Machine

/-- Every completion is a next state: no command faults or is refused. -/
theorem exec_is_next (i : Instr) (s : State) : ∃ t, exec i s = .next t := by
  cases i <;> exact ⟨_, rfl⟩

theorem withStore_ready {s t : State} (h : s.ready = true) : withStore s t = t := by simp [withStore, h]

theorem withStore_empty {s t : State} (h : s.ready = false) : withStore s t = raise .noStore s := by
  simp [withStore, h]

/-- Everything `withStore` can do (R210). -/
theorem withStore_cases (s t : State) :
    (s.ready = true ∧ withStore s t = t) ∨ (s.ready = false ∧ withStore s t = raise .noStore s) := by
  cases h : s.ready
  · exact .inr ⟨rfl, withStore_empty h⟩
  · exact .inl ⟨rfl, withStore_ready h⟩

/-- Everything the engine's step can do (R240 (b), R243). -/
theorem engineStep_cases (s : State) :
    (∃ i t, decode s.lcmd = .ok i ∧ exec i s = .next t ∧ engineStep s = .next t) ∨
    (∃ e, decode s.lcmd = .error e ∧ engineStep s = .next (raise .illegal s)) := by
  unfold engineStep
  cases h : decode s.lcmd with
  | ok i =>
    obtain ⟨t, ht⟩ := exec_is_next i s
    exact .inl ⟨i, t, rfl, ht, by simpa using ht⟩
  | error e => exact .inr ⟨e, rfl, rfl⟩

/-- Everything a step can do: the engine completes a command, or the host moves (R6, R240). -/
theorem step_cases {s t : State} (h : step s = .next t) :
    (engineMoves s = true ∧ ∃ i, decode s.lcmd = .ok i ∧ exec i s = .next t) ∨
    (engineMoves s = true ∧ (∃ e, decode s.lcmd = .error e) ∧ t = raise .illegal s) ∨
    (engineMoves s = false ∧ hostStep (tick s) = .next t) := by
  unfold step at h
  cases hm : engineMoves s
  · right; right; exact ⟨rfl, by simpa [hm] using h⟩
  · simp only [hm, if_true] at h
    rcases engineStep_cases s with ⟨i, u, h1, h2, h3⟩ | ⟨e, h1, h2⟩
    · left; refine ⟨rfl, i, h1, ?_⟩
      rw [h3] at h; rw [h2, h]
    · right; left
      rw [h2] at h; injection h with h
      exact ⟨rfl, ⟨e, h1⟩, h.symm⟩

/-- Everything an access can do (R51, R52). -/
theorem withAccess_cases {s t : State} {addr size : Nat} {go : Reg → State}
    (h : withAccess s addr size go = .next t) :
    inRegisterSpace s.cfg.regBase addr = true ∧ aligned64 (addr - s.cfg.regBase) size = true ∧
      t = go (regAt (addr - s.cfg.regBase)) := by
  unfold withAccess at h
  split at h <;> rename_i h1
  · split at h <;> rename_i h2
    · injection h with h; exact ⟨h1, h2, h.symm⟩
    · cases h
  · cases h

/-- Everything a write of CMD can do (R25). -/
theorem writeCmd_cases (s : State) (c : Word) :
    (s.fatal = true ∧ writeCmd s c = s) ∨
    (s.fatal = false ∧ s.busy = true ∧ writeCmd s c = { s with ovr := true }) ∨
    (s.fatal = false ∧ s.busy = false ∧ writeCmd s c =
      { s with
        lcmd := c
        larg0 := s.arg0
        larg1 := s.arg1
        busy := true
        delay := Config.completionDelay s.draws
        draws := s.draws + 1 }) := by
  unfold writeCmd
  cases hf : s.fatal <;> cases hb : s.busy <;> simp

/-- Everything a host step can do: nothing, a register write, a register read (of STATUS, for WAIT), a turn of its own
control flow, or a reset (R55, R77, R270). -/
theorem hostStep_cases {s t : State} (h : hostStep s = .next t) :
    (s.host = .done ∧ t = s) ∨
    (∃ addr size v rest, s.host = .wr addr size v rest ∧ inRegisterSpace s.cfg.regBase addr = true ∧
      aligned64 (addr - s.cfg.regBase) size = true ∧
      t = writeReg { s with host := rest } (regAt (addr - s.cfg.regBase)) v) ∨
    (∃ addr size rest, s.host = .rd addr size rest ∧ inRegisterSpace s.cfg.regBase addr = true ∧
      aligned64 (addr - s.cfg.regBase) size = true ∧
      t = deliver (regAt (addr - s.cfg.regBase)) (readReg s (regAt (addr - s.cfg.regBase))) { s with host := rest }) ∨
    (∃ rest, s.host = .wait rest ∧
      t = deliver .status (statusWord s)
        (if (statusWord s).getLsbD 0 then s else { s with host := rest })) ∨
    (∃ next, (∀ rest, s.host ≠ .reset rest) ∧ t = { s with host := next }) ∨
    (∃ rest, s.host = .reset rest ∧ t = resetEngine s rest) := by
  unfold hostStep at h
  split at h <;> rename_i hh
  · injection h with h; exact .inl ⟨hh, h.symm⟩
  · obtain ⟨h1, h2, h3⟩ := withAccess_cases h
    exact .inr (.inl ⟨_, _, _, _, hh, h1, h2, h3⟩)
  · obtain ⟨h1, h2, h3⟩ := withAccess_cases h
    refine .inr (.inr (.inl ⟨_, _, _, hh, h1, h2, ?_⟩))
    rw [h3]
    generalize regAt _ = r
    cases r <;> rfl
  · refine .inr (.inr (.inr (.inl ⟨_, hh, ?_⟩)))
    split at h <;> rename_i hb
    · obtain ⟨_, _, h3⟩ := withAccess_cases h
      rw [h3, if_pos hb, Nat.add_sub_cancel_left]
      rfl
    · obtain ⟨_, _, h3⟩ := withAccess_cases h
      rw [h3, if_neg hb]
      simp only [Nat.add_sub_cancel_left]
      rfl
  · injection h with h
    refine .inr (.inr (.inr (.inr (.inl ⟨_, fun r hr => ?_, h.symm⟩))))
    rw [hh] at hr; cases hr
  · injection h with h
    refine .inr (.inr (.inr (.inr (.inl ⟨_, fun r hr => ?_, h.symm⟩))))
    rw [hh] at hr; cases hr
  · injection h with h
    refine .inr (.inr (.inr (.inr (.inl ⟨_, fun r hr => ?_, h.symm⟩))))
    rw [hh] at hr; cases hr
  · split at h <;> injection h with h <;>
      (refine .inr (.inr (.inr (.inr (.inl ⟨_, fun r hr => ?_, h.symm⟩)))); rw [hh] at hr; cases hr)
  · injection h with h; exact .inr (.inr (.inr (.inr (.inr ⟨_, hh, h.symm⟩))))

end Sys2Proof.Machine
end

