-- ==== Sys2Proof/Laws/HostSyntax.lean ====
section
/-! SUPPORT. What the host has read, and the encoding of a program from a state (spec/30_encoding.md R77, R78). -/

namespace Sys2Proof.Machine

/-! ## What has been read -/

@[simp] theorem deliver_reads (r : Reg) (v : Word) (s : State) : (deliver r v s).reads = (r, v) :: s.reads := rfl

/-- A read names its own register's value, and leaves what every other register is named (R77). -/
@[simp] theorem lastRead_deliver (r q : Reg) (v : Word) (s : State) :
    lastRead (deliver r v s) q = if r = q then some v else lastRead s q := by
  by_cases h : r = q <;> simp [lastRead, deliver, h]

/-- A read adds its value at the end of its register's list, and to no other (R77). -/
@[simp] theorem valuesRead_deliver (r q : Reg) (v : Word) (s : State) :
    valuesRead (deliver r v s) q = if r = q then valuesRead s q ++ [v] else valuesRead s q := by
  by_cases h : r = q <;> simp [valuesRead, deliver, h]

/-- The loop on RV looks at the last STATUS value read, whatever else has been read since (R77). -/
@[simp] theorem lastStatus_deliver (r : Reg) (v : Word) (s : State) :
    lastStatus (deliver r v s) = if r = .status then v else lastStatus s := by
  simp only [lastStatus, lastRead_deliver]
  split <;> rfl

/-! ## The encoding of a program -/

theorem runWrites_done {s : State} (h : s.host = .done) (fuel : Nat) : runWrites fuel s = some [] := by
  cases fuel <;> simp [runWrites, h]

/-- More fuel changes no answer. -/
theorem runWrites_mono {n m : Nat} {s : State} {ws : List (Nat × Word)} (h : runWrites n s = some ws) (hm : n ≤ m) :
    runWrites m s = some ws := by
  by_cases hd : s.host = .done
  · rw [runWrites_done hd] at h ⊢; exact h
  induction n generalizing m s ws with
  | zero => simp [runWrites, hd] at h
  | succ n ih =>
    obtain ⟨k, rfl⟩ : ∃ k, m = k + 1 := ⟨m - 1, by omega⟩
    simp only [runWrites, hd, if_false] at h ⊢
    cases ht : step s with
    | fault r => simp [ht] at h
    | refused r => simp [ht] at h
    | next t =>
      simp only [ht, Option.map_eq_some_iff] at h ⊢
      obtain ⟨vs, hv, rfl⟩ := h
      refine ⟨vs, ?_, rfl⟩
      by_cases hd' : t.host = .done
      · rw [runWrites_done hd'] at hv ⊢; exact hv
      · exact ih hv (by omega) hd'

/-- A program has at most one encoding from a state (R78). -/
theorem hasEncoding_unique {s : State} {ws vs : List (Nat × Word)} (h : hasEncoding s ws) (h' : hasEncoding s vs) :
    ws = vs := by
  obtain ⟨n, hn⟩ := h
  obtain ⟨m, hm⟩ := h'
  have h1 := runWrites_mono hn (Nat.le_max_left n m)
  have h2 := runWrites_mono hm (Nat.le_max_right n m)
  rw [h1] at h2; exact Option.some.inj h2

theorem hasEncoding_done {s : State} (h : s.host = .done) : hasEncoding s [] := ⟨0, runWrites_done h 0⟩

/-- A step's own write comes first (R78). -/
theorem hasEncoding_step {s t : State} {ws : List (Nat × Word)} (hd : s.host ≠ .done) (hs : step s = .next t)
    (ht : hasEncoding t ws) : hasEncoding s (writtenNext s ++ ws) := by
  obtain ⟨n, hn⟩ := ht
  exact ⟨n + 1, by simp [runWrites, hd, hs, hn]⟩

/-- A read of STATUS (R77) answers, and delivers its value. -/
theorem hostRead_status (s : State) :
    hostRead (s.cfg.regBase + regOffset .status) 8 s = .next (deliver .status (statusWord s) s) := by
  simp [hostRead, withAccess, inRegisterSpace, aligned64, regOffset, regAt, readReg]

/-- The polls of a WAIT write nothing, whatever the delay of the command in flight (R77, R78). -/
theorem hasEncoding_poll {s : State} {rest : HostProg} {ws : List (Nat × Word)} (hb : s.busy = true)
    (hh : s.host = .wait rest) (h : ∀ reads, hasEncoding { s with delay := 0, reads := reads } ws) :
    hasEncoding s ws := by
  obtain ⟨n, hn⟩ : ∃ n, s.delay = n := ⟨_, rfl⟩
  induction n generalizing s with
  | zero =>
    have := h s.reads
    rwa [show ({ s with delay := 0, reads := s.reads } : State) = s by rw [← hn]] at this
  | succ n ih =>
    have hm : engineMoves s = false := by simp [engineMoves, hn]
    have hs : step s = .next { s with delay := n, reads := (.status, statusWord s) :: s.reads } := by
      have hbit : (statusWord (tick s)).getLsbD 0 = true := by
        simp only [statusWord, tick_busy, hb, if_true]; exact (packStatus_bits ..).1
      simp only [step, hm, Bool.false_eq_true, if_false, hostStep, tick_host, hh, hbit, if_true, hostRead_status]
      simp [tick, hb, hn, hh, deliver, statusWord]
    have := hasEncoding_step (by rw [hh]; intro hc; cases hc) hs (ih hb hh h rfl)
    simpa [writtenNext, hm, hh] using this

/-- A whole command, from the host's write of CMD to the poll that finds it done: it writes CMD once, whatever its delay
and whatever the polls before have read (R77, R78, R240). -/
theorem hasEncoding_command {s : State} {i : Instr} {c : Word} {rest : HostProg} {ws : List (Nat × Word)}
    (hb : s.busy = false) (hf : s.fatal = false) (hc : decode c = .ok i)
    (hh : s.host = wrReg s.cfg.regBase .cmd c (.wait rest))
    (h : ∀ draws reads, ∃ t,
      exec i { s with
        lcmd := c, larg0 := s.arg0, larg1 := s.arg1, busy := true, delay := 0, draws := draws, reads := reads,
        host := .wait rest } = .next t ∧
      t.busy = false ∧ t.host = .wait rest ∧ hasEncoding (deliver .status (statusWord t) { t with host := rest }) ws) :
    hasEncoding s ((0x08, c) :: ws) := by
  have hm : engineMoves s = false := by simp [engineMoves, hb]
  have hw : writtenNext s = [(0x08, c)] := by simp [writtenNext, hm, hh, wrReg, regOffset]
  have hs : step s = .next { s with
      lcmd := c, larg0 := s.arg0, larg1 := s.arg1, busy := true, delay := Config.completionDelay s.draws,
      draws := s.draws + 1, host := .wait rest } := by
    simp [step, hm, tick_of_idle hb, hostStep, hh, wrReg, regOffset, hostWrite, withAccess, inRegisterSpace, aligned64,
      regAt, writeReg, writeCmd, hf, hb]
  suffices hp : ∀ reads, hasEncoding { s with
      lcmd := c, larg0 := s.arg0, larg1 := s.arg1, busy := true, delay := 0, draws := s.draws + 1, reads := reads,
      host := .wait rest } ws by
    have := hasEncoding_step (by rw [hh]; nofun) hs (hasEncoding_poll rfl rfl hp)
    rwa [hw] at this
  intro reads
  obtain ⟨t, he, htb, hth, hr⟩ := h (s.draws + 1) reads
  have hdue : ∀ u : State, u.busy = true → u.delay = 0 → u.lcmd = c → step u = exec i u := by
    intro u h1 h2 h3
    simp [step, engineMoves, h1, h2, engineStep, h3, hc]
  have ht : step t = .next (deliver .status (statusWord t) { t with host := rest }) := by
    have hbit : (statusWord t).getLsbD 0 = false := by
      simp only [statusWord, htb, Bool.false_eq_true, if_false]; exact (packStatus_bits ..).1
    have hm : engineMoves t = false := by simp [engineMoves, htb]
    simp only [step, hm, tick_of_idle htb, hostStep, hth, hbit, Bool.false_eq_true, if_false]
    exact hostRead_status { t with host := rest }
  have hwt : writtenNext t = [] := by simp [writtenNext, hth]
  have h2 := hasEncoding_step (by rw [hth]; nofun) ht hr
  have h1 := hasEncoding_step (by nofun) ((hdue _ rfl rfl rfl).trans he) (by simpa [hwt] using h2)
  simpa [writtenNext] using h1

/-- DO ... WHILE RV performs its body, then looks (R77). -/
theorem hasEncoding_doWhileRv {s : State} {body rest : HostProg} {ws : List (Nat × Word)} (hb : s.busy = false)
    (hh : s.host = .doWhileRv body rest) (h : hasEncoding { s with host := body.append (.whileRv body rest) } ws) :
    hasEncoding s ws := by
  have hm : engineMoves s = false := by simp [engineMoves, hb]
  have := hasEncoding_step (by rw [hh]; nofun) (by simp [step, hm, tick_of_idle hb, hostStep, hh]) h
  simpa [writtenNext, hh] using this

/-- WHILE RV goes on with the body or with what follows the loop, as RV of the last STATUS value read is (R77). -/
theorem hasEncoding_whileRv {s : State} {body rest : HostProg} {ws : List (Nat × Word)} (hb : s.busy = false)
    (hh : s.host = .whileRv body rest)
    (h : hasEncoding
      { s with host := if (lastStatus s).getLsbD 2 then body.append (.whileRv body rest) else rest } ws) :
    hasEncoding s ws := by
  have hm : engineMoves s = false := by simp [engineMoves, hb]
  have hs : step s = .next
      { s with host := if (lastStatus s).getLsbD 2 then body.append (.whileRv body rest) else rest } := by
    simp only [step, hm, tick_of_idle hb, hostStep, hh, Bool.false_eq_true, if_false]
    split <;> rfl
  have := hasEncoding_step (by rw [hh]; nofun) hs h
  simpa [writtenNext, hh] using this

/-- RV of STATUS, as the loop on RV finds it after the poll that saw a command done. -/
theorem lastStatus_after_poll {t : State} (hb : t.busy = false) (p : HostProg) :
    (lastStatus (deliver .status (statusWord t) { t with host := p })).getLsbD 2 = t.rv := by
  rw [lastStatus_deliver, if_pos rfl]
  simp only [statusWord, hb, Bool.false_eq_true, if_false]
  exact (packStatus_bits ..).2.2.1

/-- P1b (R77, R78): from a valid cursor that decodes, DO ITER_NEXT WHILE RV writes ITER_NEXT to CMD once for each value
that is left and once for the end, whatever the delays of the commands. -/
theorem hasEncoding_drain (fuel : Nat) {s : State} (hb : s.busy = false) (hf : s.fatal = false) (hr : s.ready = true)
    (hv : s.itv = true) (hp : s.itph = 3)
    (hh : s.host = issue s.cfg.regBase .iterNext 0 0 (.whileRv (issue s.cfg.regBase .iterNext 0 0 .done) .done))
    (hl : (decodeFrom .store s.store s.nwords.toNat fuel s.itw.toNat s.itcur).length < fuel) :
    hasEncoding s (List.replicate
      ((decodeFrom .store s.store s.nwords.toNat fuel s.itw.toNat s.itcur).length + 1) (0x08, encode .iterNext)) := by
  induction fuel generalizing s with
  | zero => simp at hl
  | succ fuel ih =>
    have hexec : ∀ u : State, u.ready = true → u.itv = true → u.itph = 3 →
        exec .iterNext u = .next (iterDecode u) := by
      intro u h1 h2 h3
      simp [exec, execIterNext, withStore, h1, h2, h3]
    rw [List.replicate_succ]
    refine hasEncoding_command hb hf (i := .iterNext) (by decide) hh fun d r => ?_
    refine ⟨_, hexec _ hr hv hp, ?_⟩
    unfold iterDecode
    have hlt := s.nwords.isLt
    have hwt := s.itw.isLt
    cases hn : decNext .store s.store s.nwords.toNat s.itw.toNat s.itcur with
    | ended w cur =>
      have hd : decodeFrom .store s.store s.nwords.toNat (fuel + 1) s.itw.toNat s.itcur = [] := by
        simp [decodeFrom, hn]
      rw [hd]
      simp only
      refine ⟨rfl, rfl, hasEncoding_whileRv rfl rfl ?_⟩
      rw [lastStatus_after_poll rfl]
      exact hasEncoding_done rfl
    | value v w cur =>
      have hw : (word w).toNat = w := by
        have : w < 2 ^ 64 := by
          rcases decNext_cases .store s.store s.nwords.toNat s.itw.toNat s.itcur with
            ⟨_, h⟩ | ⟨_, u, _, hu, _, _, h⟩ | ⟨_, _, h⟩ <;> rw [hn] at h
          · injection h with _ h2 _; omega
          · injection h with _ h2 _; omega
          · cases h
        simp [word]; omega
      have hd : decodeFrom .store s.store s.nwords.toNat (fuel + 1) s.itw.toNat s.itcur =
          v :: decodeFrom .store s.store s.nwords.toNat fuel (word w).toNat cur := by
        simp [decodeFrom, hn, hw]
      rw [hd] at hl ⊢
      simp only
      refine ⟨rfl, rfl, hasEncoding_whileRv rfl rfl ?_⟩
      rw [lastStatus_after_poll rfl]
      exact ih rfl hf hr hv hp rfl (Nat.lt_of_succ_lt_succ hl)

/-- P1b with `j` of the implicit primes still to come (R77, R78, R154). -/
theorem hasEncoding_drain_implicit (j fuel : Nat) {s : State} (hb : s.busy = false) (hf : s.fatal = false)
    (hr : s.ready = true) (hv : s.itv = true) (hp : s.itph.toNat + j = 3)
    (hh : s.host = issue s.cfg.regBase .iterNext 0 0 (.whileRv (issue s.cfg.regBase .iterNext 0 0 .done) .done))
    (hl : (decodeFrom .store s.store s.nwords.toNat fuel s.itw.toNat s.itcur).length < fuel) :
    hasEncoding s (List.replicate
      (j + (decodeFrom .store s.store s.nwords.toNat fuel s.itw.toNat s.itcur).length + 1)
      (0x08, encode .iterNext)) := by
  induction j generalizing s with
  | zero =>
    rw [Nat.zero_add]
    exact hasEncoding_drain fuel hb hf hr hv (BitVec.eq_of_toNat_eq hp) hh hl
  | succ j ih =>
    have hexec : ∀ u : State, u.ready = true → u.itv = true → u.itph = s.itph → exec .iterNext u =
        .next (finishWith (word (implicitPrimes.getD u.itph.toNat 0)) 0 { u with itph := u.itph + 1 }) := by
      intro u h1 h2 h3
      have : s.itph.toNat < 3 := by omega
      simp [exec, execIterNext, withStore, h1, h2, h3, this]
    have hp' : (s.itph + 1).toNat + j = 3 := by
      rw [BitVec.toNat_add, Nat.mod_eq_of_lt (by simp; omega)]; simp; omega
    rw [show j + 1 + (decodeFrom .store s.store s.nwords.toNat fuel s.itw.toNat s.itcur).length + 1 =
      j + (decodeFrom .store s.store s.nwords.toNat fuel s.itw.toNat s.itcur).length + 1 + 1 by omega,
      List.replicate_succ]
    refine hasEncoding_command hb hf (i := .iterNext) (by decide) hh fun d r => ?_
    refine ⟨_, hexec _ hr hv rfl, rfl, rfl, hasEncoding_whileRv rfl rfl ?_⟩
    rw [lastStatus_after_poll rfl]
    exact ih rfl hf hr hv hp' rfl hl

end Sys2Proof.Machine
end

