-- ==== Sys2Proof/Laws/Memory.lean ====
section
/-! SUPPORT. The arrays keep their one form (log 8): reset has it, and every operation that writes an array keeps it. -/

namespace Sys2Proof.Machine

theorem memory_wf_iff (s : State) :
    Memory.wf s = true ↔ s.scr.length = s.cfg.segmentLen ∧ s.store.length = s.nwords.toNat ∧
      s.pfx.length = s.nwords.toNat := by
  simp [Memory.wf, and_assoc]

theorem drawWords_length (item : Item) (occasion n : Nat) : (drawWords item occasion n).length = n := by
  simp [drawWords]

/-- The machine right after a reset has its arrays in their form. -/
theorem afterReset_memory_wf (c : Config) (n : Nat) (p : HostProg) (r : List (Reg × Word)) :
    Memory.wf (State.afterReset c n p r) = true := by
  simp [memory_wf_iff, State.afterReset, drawWords_length]

theorem reset_memory_wf : Memory.wf State.reset = true := afterReset_memory_wf _ _ _ _

theorem execScrFill_memory_wf {s t : State} (h : execScrFill s = .next t) (hw : Memory.wf s = true) :
    Memory.wf t = true := by
  injection h with h; subst h
  simpa [memory_wf_iff, finish] using ((memory_wf_iff s).mp hw).2

theorem execScrSetOn_memory_wf {s t : State} (h : execScrSetOn s = .next t) (hw : Memory.wf s = true) :
    Memory.wf t = true := by
  injection h with h; subst h
  unfold withScratchIndex
  split
  · exact hw
  · simpa [memory_wf_iff, finish, codecSetOn_length] using hw

theorem execScrSetOff_memory_wf {s t : State} (h : execScrSetOff s = .next t) (hw : Memory.wf s = true) :
    Memory.wf t = true := by
  injection h with h; subst h
  unfold withScratchIndex
  split
  · exact hw
  · simpa [memory_wf_iff, finish, codecSetOff_length] using hw

theorem execScrWriteWord_memory_wf {s t : State} (h : execScrWriteWord s = .next t) (hw : Memory.wf s = true) :
    Memory.wf t = true := by
  injection h with h; subst h
  unfold withScratchWord
  split
  · exact hw
  · simpa [memory_wf_iff, finish] using hw

theorem execClear_memory_wf {s t : State} (h : execClear s = .next t) (hw : Memory.wf s = true) :
    Memory.wf t = true := by
  injection h with h; subst h
  simpa [memory_wf_iff, finish] using ((memory_wf_iff s).mp hw).1

theorem build_memory_wf (limit : Nat) {s : State} (hc : s.cfg.wf = true) (hw : Memory.wf s = true) :
    Memory.wf (build limit s) = true := by
  simp only [Config.wf, Bool.and_eq_true, decide_eq_true_eq, maxWordsCap] at hc
  rcases build_cases limit s with ⟨_, h⟩ | ⟨hle, h⟩
  · rw [h]; exact hw
  · obtain ⟨small, scr, track, ntrack, store, he, hl⟩ := constructStore_shape (storeWords limit) s (by omega)
    rw [h, he, memory_wf_iff]
    refine ⟨by simp [publishStore, finish, drawWords_length], ?_, ?_⟩
    · simp only [publishStore, finish, word, BitVec.toNat_ofNat, hl]
      omega
    · simp only [publishStore, finish, word, BitVec.toNat_ofNat, prefixCounts_length, hl]
      omega

end Sys2Proof.Machine
end

