-- ==== Sys2Proof/Laws/NprimesBound.lean ====
section
/-! SUPPORT. The integer logarithms of `NPRIMES_BOUND` enclose the real ones (R186), and what the bound of an engine can be. -/

namespace Sys2Proof.Machine

/-- One term of the series, over the reals. -/
theorem seriesTerm_eq (a b : Nat) (hb : 0 < b) (i : Nat) :
    ((2 ^ 192 * a ^ (2 * i + 1) : ℕ) : ℝ) / ((2 * i + 1) * b ^ (2 * i + 1) : ℕ) =
      2 ^ 192 * (((a : ℝ) / b) ^ (2 * i + 1) / (2 * i + 1)) := by
  rw [div_pow]
  push_cast
  field_simp
  ring

theorem seriesLo_le_sum (a b : Nat) (hb : 0 < b) (m : Nat) :
    (seriesLo a b m : ℝ) ≤ 2 ^ 192 * ∑ i ∈ Finset.range m, ((a : ℝ) / b) ^ (2 * i + 1) / (2 * i + 1) := by
  induction m with
  | zero => simp [seriesLo]
  | succ m ih =>
    have hq := @Nat.cast_div_le ℝ _ _ _ (2 ^ 192 * a ^ (2 * m + 1)) ((2 * m + 1) * b ^ (2 * m + 1))
    rw [seriesTerm_eq a b hb m] at hq
    rw [Finset.sum_range_succ, mul_add, seriesLo, Nat.cast_add]
    exact add_le_add ih hq

/-- A natural quotient, rounded up, is at least the real one. -/
theorem div_le_natDiv_succ (x y : Nat) : (x : ℝ) / y ≤ (x / y : ℕ) + 1 := by
  have h := (Nat.lt_floor_add_one ((x : ℝ) / y)).le
  rwa [Nat.floor_div_eq_div] at h

theorem sum_le_seriesHi (a b : Nat) (hb : 0 < b) (m : Nat) :
    2 ^ 192 * ∑ i ∈ Finset.range m, ((a : ℝ) / b) ^ (2 * i + 1) / (2 * i + 1) ≤ (seriesHi a b m : ℝ) := by
  induction m with
  | zero => simp [seriesHi]
  | succ m ih =>
    have hq := div_le_natDiv_succ (2 ^ 192 * a ^ (2 * m + 1)) ((2 * m + 1) * b ^ (2 * m + 1))
    rw [seriesTerm_eq a b hb m] at hq
    rw [Finset.sum_range_succ, mul_add, seriesHi, Nat.cast_add, Nat.cast_add, Nat.cast_one]
    exact add_le_add ih hq

/-- The argument of the logarithm that `artanh (a/b)` is half of. -/
theorem artanh_argument (a b : Nat) (hab : a < b) :
    (1 + (a : ℝ) / b) / (1 - (a : ℝ) / b) = ((b : ℝ) + a) / (b - a) := by
  have hb : (0 : ℝ) < b := by exact_mod_cast (by omega : 0 < b)
  have hd : (0 : ℝ) < (b : ℝ) - a := sub_pos.2 (by exact_mod_cast hab)
  field_simp

theorem artanhLo_le (a b : Nat) (hab : a < b) :
    (artanhLo a b : ℝ) ≤ 2 ^ 192 * (1 / 2 * Real.log (((b : ℝ) + a) / (b - a))) := by
  have hb : (0 : ℝ) < b := by exact_mod_cast (by omega : 0 < b)
  have hx : (a : ℝ) / b < 1 := (div_lt_one hb).2 (by exact_mod_cast hab)
  rw [← artanh_argument a b hab]
  exact (seriesLo_le_sum a b (by omega) 61).trans
    (mul_le_mul_of_nonneg_left (Real.sum_range_le_log_div (by positivity) hx 61) (by positivity))

theorem le_artanhHi (a b : Nat) (hab : a < b) :
    2 ^ 192 * (1 / 2 * Real.log (((b : ℝ) + a) / (b - a))) ≤ (artanhHi a b : ℝ) := by
  have hb : (0 : ℝ) < b := by exact_mod_cast (by omega : 0 < b)
  have hx : (a : ℝ) / b < 1 := (div_lt_one hb).2 (by exact_mod_cast hab)
  have hsq : a ^ 2 < b ^ 2 := by gcongr
  have hd : (0 : ℝ) < (b : ℝ) ^ 2 - a ^ 2 := sub_pos.2 (by exact_mod_cast hsq)
  rw [← artanh_argument a b hab]
  have hlog := mul_le_mul_of_nonneg_left (Real.log_div_le_sum_range_add (by positivity) hx 61)
    (by positivity : (0 : ℝ) ≤ 2 ^ 192)
  have htail := div_le_natDiv_succ (2 ^ 192 * a ^ 123) (b ^ 121 * (b ^ 2 - a ^ 2))
  have he : ((2 ^ 192 * a ^ 123 : ℕ) : ℝ) / (b ^ 121 * (b ^ 2 - a ^ 2) : ℕ) =
      2 ^ 192 * (((a : ℝ) / b) ^ (2 * 61 + 1) / (1 - ((a : ℝ) / b) ^ 2)) := by
    push_cast [Nat.cast_sub hsq.le]
    have h1 : 1 - ((a : ℝ) / b) ^ 2 = ((b : ℝ) ^ 2 - a ^ 2) / b ^ 2 := by field_simp
    rw [h1]
    field_simp
    ring
  rw [he] at htail
  rw [mul_add] at hlog
  refine hlog.trans ?_
  rw [artanhHi, Nat.cast_add, Nat.cast_add, Nat.cast_one]
  exact add_le_add (sum_le_seriesHi a b (by omega) 61) htail

/-- How `lnLo` and `lnHi` split a logarithm. -/
theorem log_split (n : Nat) (hn : n ≠ 0) :
    Real.log n = 2 * (n.log2 * (1 / 2 * Real.log (((3 : ℕ) + (1 : ℕ) : ℝ) / ((3 : ℕ) - (1 : ℕ)))) +
      1 / 2 * Real.log ((((n + 2 ^ n.log2 : ℕ) : ℝ) + (n - 2 ^ n.log2 : ℕ)) /
        ((n + 2 ^ n.log2 : ℕ) - (n - 2 ^ n.log2 : ℕ)))) := by
  have hle : 2 ^ n.log2 ≤ n := Nat.log2_self_le hn
  have hp : (0 : ℝ) < n := by exact_mod_cast Nat.pos_of_ne_zero hn
  push_cast [Nat.cast_sub hle]
  have h2 : ((3 : ℝ) + 1) / (3 - 1) = 2 := by norm_num
  have h3 : ((n : ℝ) + 2 ^ n.log2 + (n - 2 ^ n.log2)) / (n + 2 ^ n.log2 - (n - 2 ^ n.log2)) = n / 2 ^ n.log2 := by
    rw [div_eq_div_iff (by ring_nf; positivity) (by positivity)]
    ring
  rw [h2, h3, Real.log_div hp.ne' (by positivity), Real.log_pow]
  ring

theorem lnLo_le (n : Nat) : (lnLo n : ℝ) ≤ 2 ^ 192 * Real.log n := by
  rcases Nat.eq_zero_or_pos n with rfl | hn
  · have : lnLo 0 = 0 := by decide +kernel
    simp [this]
  · have h1 := artanhLo_le 1 3 (by omega)
    have hle : 2 ^ n.log2 ≤ n := Nat.log2_self_le (by omega)
    have hpow : 0 < 2 ^ n.log2 := by positivity
    have h2 := artanhLo_le (n - 2 ^ n.log2) (n + 2 ^ n.log2) (by omega)
    have h3 := mul_le_mul_of_nonneg_left h1 (Nat.cast_nonneg (α := ℝ) n.log2)
    rw [log_split n (by omega), lnLo, Nat.cast_mul, Nat.cast_add, Nat.cast_mul, Nat.cast_ofNat]
    linarith

theorem le_lnHi (n : Nat) (hn : 1 ≤ n) : 2 ^ 192 * Real.log n ≤ (lnHi n : ℝ) := by
  have h1 := le_artanhHi 1 3 (by omega)
  have hle : 2 ^ n.log2 ≤ n := Nat.log2_self_le (by omega)
  have hpow : 0 < 2 ^ n.log2 := by positivity
  have h2 := le_artanhHi (n - 2 ^ n.log2) (n + 2 ^ n.log2) (by omega)
  have h3 := mul_le_mul_of_nonneg_left h1 (Nat.cast_nonneg (α := ℝ) n.log2)
  have h4 : (lnHi n : ℝ) =
      2 * (n.log2 * artanhHi 1 3 + artanhHi (n - 2 ^ n.log2) (n + 2 ^ n.log2) : ℕ) := by
    rw [lnHi, Nat.cast_mul, Nat.cast_ofNat]
  rw [log_split n (by omega), h4, Nat.cast_add (n.log2 * artanhHi 1 3), Nat.cast_mul n.log2]
  linarith

theorem one_le_log (n : Nat) (hn : 3 ≤ n) : 1 ≤ Real.log n := by
  have h3 : (3 : ℝ) ≤ n := by exact_mod_cast hn
  rw [Real.le_log_iff_exp_le (by linarith)]
  linarith [Real.exp_one_lt_d9]

/-- The logarithm of a scaled logarithm, less that of the scale. -/
theorem log_scaled (n : Nat) (hn : 3 ≤ n) :
    Real.log (2 ^ 192 * Real.log n) = 192 * Real.log 2 + Real.log (Real.log n) := by
  have h := one_le_log n hn
  rw [Real.log_mul (by positivity) (by linarith), Real.log_pow]
  norm_num

theorem lnLnLo_le (n : Nat) (hn : 3 ≤ n) : (lnLnLo n : ℝ) ≤ 2 ^ 192 * Real.log (Real.log n) := by
  have h1 := one_le_log n hn
  have hnn : 0 ≤ 2 ^ 192 * Real.log (Real.log n) := by
    have := Real.log_nonneg h1
    positivity
  unfold lnLnLo
  rcases Nat.le_total (lnLo (lnLo n)) (192 * lnHi 2) with h | h
  · rw [Nat.sub_eq_zero_of_le h, Nat.cast_zero]
    exact hnn
  · have h2 := le_lnHi 2 (by omega)
    have h3 := lnLo_le (lnLo n)
    have hpos : lnLo n ≠ 0 := by
      intro h0
      have hz : lnLo 0 < 192 * lnHi 2 := by decide +kernel
      rw [h0] at h
      omega
    have h4 := Real.log_le_log (by exact_mod_cast Nat.pos_of_ne_zero hpos) (lnLo_le n)
    rw [log_scaled n hn] at h4
    rw [Nat.cast_sub h]
    push_cast at h2 ⊢
    linarith

theorem le_lnLnHi (n : Nat) (hn : 3 ≤ n) : 2 ^ 192 * Real.log (Real.log n) ≤ (lnLnHi n : ℝ) := by
  have h1 := one_le_log n hn
  have h2 := lnLo_le 2
  have h3 := le_lnHi n (by omega)
  have hpos : (0 : ℝ) < 2 ^ 192 * Real.log n := by positivity
  have hge : 1 ≤ lnHi n := by
    have : (0 : ℝ) < lnHi n := lt_of_lt_of_le hpos h3
    exact_mod_cast this
  have h4 := Real.log_le_log hpos h3
  have h5 := le_lnHi (lnHi n) hge
  have h6 : ((lnHi (lnHi n) : ℕ) : ℝ) - (192 * lnLo 2 : ℕ) ≤ (lnHi (lnHi n) - 192 * lnLo 2 : ℕ) := by
    rw [sub_le_iff_le_add]
    have : lnHi (lnHi n) ≤ lnHi (lnHi n) - 192 * lnLo 2 + 192 * lnLo 2 := by omega
    exact_mod_cast this
  rw [log_scaled n hn] at h4
  unfold lnLnHi
  push_cast at h2 h6 ⊢
  linarith

/-- All that `referenceFloor` can be. -/
theorem referenceFloor_between (n : Nat) (h : boundLo n ≤ boundHi n) :
    boundLo n ≤ referenceFloor n ∧ referenceFloor n ≤ boundHi n := by
  unfold referenceFloor
  split
  · omega
  · have := Nat.mod_lt (Config.undecidedFloor n) (by omega : 0 < boundHi n - boundLo n + 1)
    omega

/-- The floor is not free where the two bounds agree. -/
theorem referenceFloor_of_eq (n : Nat) (h : boundLo n = boundHi n) : referenceFloor n = boundLo n := if_pos h

@[simp] theorem referenceBound_small (n : Nat) (h : n ≤ 5) : referenceBound n = 11 := if_pos h

theorem referenceBound_large (n : Nat) (h : 6 ≤ n) : referenceBound n = referenceFloor n := if_neg (by omega)

@[simp] theorem atLeastNthPrime_zero (b : Nat) : atLeastNthPrime 0 b = b := rfl

theorem atLeastNthPrime_pos (n b : Nat) (h : 1 ≤ n) : atLeastNthPrime n b = max (primeAt (n - 1)) b :=
  if_neg (by omega)

/-- A bound that has the required property already is left as it is. -/
theorem atLeastNthPrime_of_le (n b : Nat) (h : 1 ≤ n → primeAt (n - 1) ≤ b) : atLeastNthPrime n b = b := by
  unfold atLeastNthPrime
  split
  · rfl
  · exact max_eq_right (h (by omega))

/-- An engine that overrides the count `n`. -/
theorem nprimesBound_of_some (c : Config) (n b : Nat) (h : c.boundOverrides.lookup n = some b) :
    nprimesBound c n = atLeastNthPrime n b := by
  simp [nprimesBound, h]

/-- An engine that follows the reference definition at the count `n`. -/
theorem nprimesBound_of_none (c : Config) (n : Nat) (h : c.boundOverrides.lookup n = none) :
    nprimesBound c n = atLeastNthPrime n (referenceBound n) := by
  simp [nprimesBound, h]

end Sys2Proof.Machine
end

