-- ==== Sys2Proof/Laws/PerInstr.lean ====
section
/-! SUPPORT. Statements about every command as syntax, one lemma per command (spec/30_encoding.md R70, R73). -/

namespace Sys2Proof.Laws

/-- A command is well-formed; its word has RSV 0, an assigned OPC, and its family in bits 7:4 (R70). -/
def EncodingShape.Statement (i : Instr) : Prop :=
  i.wf = true ∧ commandWordWf (encode i) = true ∧ rsvField (encode i) = 0 ∧
    opcField (encode i) / 16 = familyNibble i ∧ operandCount i ≤ 2

theorem EncodingShape.nop : EncodingShape.Statement .nop := by
  unfold EncodingShape.Statement; decide
theorem EncodingShape.codecMap : EncodingShape.Statement .codecMap := by
  unfold EncodingShape.Statement; decide
theorem EncodingShape.storeGet : EncodingShape.Statement .storeGet := by
  unfold EncodingShape.Statement; decide
theorem EncodingShape.scrFill : EncodingShape.Statement .scrFill := by
  unfold EncodingShape.Statement; decide
theorem EncodingShape.scrGet : EncodingShape.Statement .scrGet := by
  unfold EncodingShape.Statement; decide
theorem EncodingShape.scrSetOn : EncodingShape.Statement .scrSetOn := by
  unfold EncodingShape.Statement; decide
theorem EncodingShape.scrSetOff : EncodingShape.Statement .scrSetOff := by
  unfold EncodingShape.Statement; decide
theorem EncodingShape.scrReadWord : EncodingShape.Statement .scrReadWord := by
  unfold EncodingShape.Statement; decide
theorem EncodingShape.scrWriteWord : EncodingShape.Statement .scrWriteWord := by
  unfold EncodingShape.Statement; decide
theorem EncodingShape.wheelNew : EncodingShape.Statement .wheelNew := by
  unfold EncodingShape.Statement; decide
theorem EncodingShape.wheelNext : EncodingShape.Statement .wheelNext := by
  unfold EncodingShape.Statement; decide
theorem EncodingShape.iterStart : EncodingShape.Statement .iterStart := by
  unfold EncodingShape.Statement; decide
theorem EncodingShape.iterSeek : EncodingShape.Statement .iterSeek := by
  unfold EncodingShape.Statement; decide
theorem EncodingShape.iterNext : EncodingShape.Statement .iterNext := by
  unfold EncodingShape.Statement; decide
theorem EncodingShape.buildLimit : EncodingShape.Statement .buildLimit := by
  unfold EncodingShape.Statement; decide
theorem EncodingShape.buildNprimes : EncodingShape.Statement .buildNprimes := by
  unfold EncodingShape.Statement; decide
theorem EncodingShape.qLimit : EncodingShape.Statement .qLimit := by
  unfold EncodingShape.Statement; decide
theorem EncodingShape.qNumPrimes : EncodingShape.Statement .qNumPrimes := by
  unfold EncodingShape.Statement; decide
theorem EncodingShape.isPrime : EncodingShape.Statement .isPrime := by
  unfold EncodingShape.Statement; decide
theorem EncodingShape.nthPrime : EncodingShape.Statement .nthPrime := by
  unfold EncodingShape.Statement; decide
theorem EncodingShape.rankFind : EncodingShape.Statement .rankFind := by
  unfold EncodingShape.Statement; decide
theorem EncodingShape.storeWord : EncodingShape.Statement .storeWord := by
  unfold EncodingShape.Statement; decide
theorem EncodingShape.clear : EncodingShape.Statement .clear := by
  unfold EncodingShape.Statement; decide

end Sys2Proof.Laws
end

