-- ==== Sys2Proof/Laws/Scratch.lean ====
section
/-! SUPPORT. Everything the scratch index checks can do (spec/40_codec.md R112, spec/60_exceptions.md R245). -/

namespace Sys2Proof.Machine

/-- Everything the check of a scratch number index can do (R112, R245). -/
theorem withScratchIndex_cases (s t : State) :
    (operand0 s < 240 * s.cfg.segmentLen ∧ withScratchIndex s t = t) ∨
    (240 * s.cfg.segmentLen ≤ operand0 s ∧ withScratchIndex s t = raise .range s) := by
  unfold withScratchIndex segmentNumbers
  split
  · exact .inr ⟨by omega, rfl⟩
  · exact .inl ⟨by omega, rfl⟩

/-- Everything the check of a scratch word index can do (R112, R245). -/
theorem withScratchWord_cases (s t : State) :
    (operand0 s < s.cfg.segmentLen ∧ withScratchWord s t = t) ∨
    (s.cfg.segmentLen ≤ operand0 s ∧ withScratchWord s t = raise .range s) := by
  unfold withScratchWord
  split
  · exact .inr ⟨by omega, rfl⟩
  · exact .inl ⟨by omega, rfl⟩

end Sys2Proof.Machine
end

