-- ==== Sys2Proof/Tests/Slice0.lean ====
section
/-! SUPPORT. Tests: ill-formed words and accesses, the decoding of words written out from spec/30_encoding.md R70 and
R73, single steps against the vectors of spec/95_test_vectors.md, and a concrete state meeting the hypotheses of every
statement that has some. -/

namespace Sys2Proof.Tests

open Sys2Proof.Machine

/-! ## Well-formedness: each check refuses an ill-formed term -/

/-- RSV not 0 (R71; V-F8's `WR CMD, 0x100`). -/
theorem test_wf_reserved : commandWordWf 0x0000000000000100#64 = false := by decide
/-- The top bit of RSV alone. -/
theorem test_wf_reserved_top : commandWordWf 0x8000000000000000#64 = false := by decide
/-- An unassigned opcode (R74; V-F8's 0x33). -/
theorem test_wf_unassigned : commandWordWf 0x0000000000000033#64 = false := by decide
/-- An assigned opcode with RSV 0 is accepted. -/
theorem test_wf_accepts : commandWordWf 0x000000000000005F#64 = true := by decide
/-- A 4-byte access (R52). -/
theorem test_wf_access_size : hostAccessWf 0x1000 0x1008 4 = false := by decide
/-- A misaligned offset (R52). -/
theorem test_wf_access_alignment : hostAccessWf 0x1000 0x100C 8 = false := by decide
/-- Above and below the 256 bytes (R51). -/
theorem test_wf_access_window : hostAccessWf 0x1000 0x1100 8 = false ∧ hostAccessWf 0x1000 0xFF8 8 = false := by decide
/-- The last aligned offset is inside. -/
theorem test_wf_access_accepts : hostAccessWf 0x1000 0x10F8 8 = true := by decide
/-- MAX_WORDS above floor((2^64 - 1)/240), or SEGMENT_LEN 0 (R7). -/
theorem test_wf_config : Config.wf ⟨1, 76861433640456466, 0, []⟩ = false ∧ Config.wf ⟨0, 1, 0, []⟩ = false ∧
    Config.wf ⟨1, 76861433640456465, 0, []⟩ = true := by decide

/-! ## Decoding: the word of every command, written out from R70 (RSV in bits 63:8, OPC in bits 7:0) and R73 -/

theorem test_decode_nop : decode 0x0000000000000000#64 = .ok .nop := by decide
theorem test_decode_codecMap : decode 0x0000000000000010#64 = .ok .codecMap := by decide
theorem test_decode_storeGet : decode 0x0000000000000011#64 = .ok .storeGet := by decide
theorem test_decode_scrFill : decode 0x0000000000000012#64 = .ok .scrFill := by decide
theorem test_decode_scrGet : decode 0x0000000000000013#64 = .ok .scrGet := by decide
theorem test_decode_scrSetOn : decode 0x0000000000000014#64 = .ok .scrSetOn := by decide
theorem test_decode_scrSetOff : decode 0x0000000000000015#64 = .ok .scrSetOff := by decide
theorem test_decode_scrReadWord : decode 0x0000000000000016#64 = .ok .scrReadWord := by decide
theorem test_decode_scrWriteWord : decode 0x0000000000000017#64 = .ok .scrWriteWord := by decide
theorem test_decode_wheelNew : decode 0x0000000000000020#64 = .ok .wheelNew := by decide
theorem test_decode_wheelNext : decode 0x0000000000000021#64 = .ok .wheelNext := by decide
theorem test_decode_iterStart : decode 0x0000000000000030#64 = .ok .iterStart := by decide
theorem test_decode_iterSeek : decode 0x0000000000000031#64 = .ok .iterSeek := by decide
theorem test_decode_iterNext : decode 0x0000000000000032#64 = .ok .iterNext := by decide
theorem test_decode_buildLimit : decode 0x0000000000000040#64 = .ok .buildLimit := by decide
theorem test_decode_buildNprimes : decode 0x0000000000000041#64 = .ok .buildNprimes := by decide
theorem test_decode_qLimit : decode 0x0000000000000050#64 = .ok .qLimit := by decide
theorem test_decode_qNumPrimes : decode 0x0000000000000051#64 = .ok .qNumPrimes := by decide
theorem test_decode_isPrime : decode 0x0000000000000052#64 = .ok .isPrime := by decide
theorem test_decode_nthPrime : decode 0x0000000000000053#64 = .ok .nthPrime := by decide
theorem test_decode_rankFind : decode 0x0000000000000054#64 = .ok .rankFind := by decide
theorem test_decode_storeWord : decode 0x0000000000000055#64 = .ok .storeWord := by decide
theorem test_decode_clear : decode 0x000000000000005F#64 = .ok .clear := by decide
theorem test_decode_reserved : decode 0x0000000100000010#64 = .error .reservedBits := by decide
theorem test_decode_unassigned : decode 0x0000000000000033#64 = .error .unassignedOpcode := by decide
theorem test_decode_family_above : decode 0x0000000000000060#64 = .error .unassignedOpcode := by decide
/-- From the byte view, byte 0 first (R54 (b), R76). -/
theorem test_decode_bytes : decodeBytes [0x5F, 0, 0, 0, 0, 0, 0, 0, 0x40] = .ok (.clear, [0x40]) := by decide
theorem test_decode_bytes_order : decodeBytes [0, 0, 0, 0, 0, 0, 0, 0x5F] = .error .reservedBits := by decide
theorem test_decode_bytes_short : decodeBytes [0x5F, 0, 0, 0, 0, 0, 0] = .error .truncated := by decide
theorem test_table_word : decodeTableWord 64 0x52 = some .isPrime ∧ decodeTableWord 8 0x152 = some .isPrime ∧
    decodeTableWord 64 0x152 = none ∧ decodeTableWord 64 0xFF = none := by decide

/-! ## Small states -/

/-- A state right after reset, with `SEGMENT_LEN = 2` and `MAX_WORDS = 4096` (the vectors' engine), a scratch of zeros
and every gated register 0. -/
def blank : State :=
  { State.afterReset ⟨2, 4096, 0x1000, []⟩ 0 .done [] with
    scr := [0, 0], ntrack := 0, wnum := 0, widx := 0, itph := 0, itw := 0, itcur := 0 }

/-- As `BUILD_LIMIT 1000` leaves it (V-B2). -/
def built : State :=
  { blank with
    ready := true
    limit := 1200
    nwords := 5
    store := [0xF93DDBB67EEFDFFE, 0x9EEDA6EAF31E4FD5, 0xA559DD3BD3D30CE6, 0x56A61E78BD92676A, 0x554C2ADE2DADE356]
    pfx := [49, 89, 125, 159, 193] }

/-- The state that command `i` with latched operands `a`, `b` leaves. -/
def after (i : Instr) (a b : Word) (s : State) : State := stateOr s (exec i { s with larg0 := a, larg1 := b })

/-- A result as the vectors write it: (RES0, RES1, RV, ERR). -/
def result (s : State) : Nat × Nat × Bool × Err := (s.res0.toNat, s.res1.toNat, s.rv, s.err)

/-! ## One command against the vectors -/

/-- V-F8: NOP gives ERR = 0 and RV = 0. -/
theorem test_nop : result (after .nop 0 0 { blank with err := .range, rv := true }) = (0, 0, false, .none) := by decide
/-- V-C1. -/
theorem test_codecMap : result (after .codecMap 509 0 blank) = (2, 0x80, true, .none) := by decide
theorem test_codecMap_top :
    result (after .codecMap 0xFFFFFFFFFFFFFFFF 0 blank) = (76861433640456465, 0, true, .none) := by decide
/-- V-C2. -/
theorem test_storeGet : result (after .storeGet 967 0 built) = (1, 0, true, .none) ∧
    result (after .storeGet 961 0 built) = (0, 0, true, .none) := by decide
theorem test_storeGet_errors : (after .storeGet 1200 0 built).err = .range ∧
    (after .storeGet 7 0 blank).err = .noStore := by decide
/-- V-C3. -/
theorem test_scrFill : (after .scrFill 0xFFFFFFFFFFFFFFFF 0 blank).scr = [ones, ones] := by decide
theorem test_scrGet : (after .scrGet 49 0 { blank with scr := [0x2000, 0] }).res0 = 1 ∧
    (after .scrGet 9 0 { blank with scr := [ones, ones] }).res0 = 0 ∧
    (after .scrGet 480 0 blank).err = .range := by decide
theorem test_scrSetOn : (after .scrSetOn 479 0 blank).scr = [0, 0x8000000000000000] ∧
    (after .scrSetOn 9 0 blank).scr = [0, 0] ∧ (after .scrSetOn 480 0 blank).err = .range := by decide
theorem test_scrSetOff : (after .scrSetOff 1 0 { blank with scr := [ones, ones] }).scr = [0xFFFFFFFFFFFFFFFE, ones] ∧
    (after .scrSetOff 480 0 blank).err = .range := by decide
theorem test_scrReadWord : result (after .scrReadWord 1 0 { blank with scr := [3, 5] }) = (5, 0, true, .none) ∧
    (after .scrReadWord 2 0 blank).err = .range := by decide
theorem test_scrWriteWord : (after .scrWriteWord 0 0xF93DDBB67EEFDFFE blank).scr = [0xF93DDBB67EEFDFFE, 0] ∧
    (after .scrWriteWord 2 0 blank).err = .range := by decide
/-- V-W1, V-W2: `7, 77` starts at index 2, the largest base is accepted. -/
theorem test_wheelNew : (after .wheelNew 7 77 blank).widx = 2 ∧ (after .wheelNew 7 77 blank).wnum = 7 ∧
    (after .wheelNew 3074457345618258602 3074457345618258602 blank).wv = true := by decide
theorem test_wheelNew_errors : (after .wheelNew 0 0 blank).err = .operand ∧ (after .wheelNew 7 70 blank).err = .operand ∧
    (after .wheelNew 7 78 blank).err = .operand ∧ (after .wheelNew 7 0 blank).err = .operand ∧
    (after .wheelNew 3074457345618258603 3074457345618258603 blank).err = .operand := by decide
/-- V-S1's fifth gap, V-W2's last row, V-W3. -/
theorem test_wheelNext : result (after .wheelNext 0 0 { blank with wv := true, wnum := 7, widx := 6 }) =
    (42, 6, true, .none) ∧
    (after .wheelNext 0 0 { blank with wv := true, wnum := 3074457345618258602 }).res0 = 18446744073709551612 := by decide
theorem test_wheelNext_state : (after .wheelNext 0 0 blank).err = .state := by decide
/-- R152. -/
theorem test_iterStart : (after .iterStart 0 0 built).itcur = 0xF93DDBB67EEFDFFE ∧
    (after .iterStart 0 0 built).itph = 0 ∧ (after .iterStart 0 0 built).itv = true := by decide
/-- P1: from word 4, the first value is 967 and the cursor loses its lowest bit; NWORDS is accepted, above is RANGE. -/
theorem test_iterSeek : (after .iterNext 0 0 (after .iterSeek 4 0 built)).res0 = 967 ∧
    (after .iterNext 0 0 (after .iterSeek 4 0 built)).itcur = 0x554C2ADE2DADE354 := by decide
theorem test_iterSeek_end : result (after .iterNext 0 0 (after .iterSeek 5 0 built)) = (0, 0, false, .none) ∧
    (after .iterSeek 6 0 built).err = .range := by decide
/-- R154: the implicit primes, then 7. -/
theorem test_iterNext : (after .iterNext 0 0 { built with itv := true, itph := 2 }).res0 = 5 ∧
    (after .iterNext 0 0 { after .iterStart 0 0 built with itph := 3 }).res0 = 7 := by decide
theorem test_iterNext_errors : (after .iterNext 0 0 blank).err = .noStore ∧ (after .iterNext 0 0 built).err = .state := by
  decide
/-- V-B3: `BUILD_LIMIT 1` gives one word; V-B7: CAPACITY beyond 8 words. -/
theorem test_buildLimit : (after .buildLimit 1 0 { blank with cfg := ⟨1, 8, 0, []⟩ }).store = [0xF93DDBB67EEFDFFE] ∧
    (after .buildLimit 1 0 { blank with cfg := ⟨1, 8, 0, []⟩ }).pfx = [49] := by decide +kernel
theorem test_buildLimit_errors : (after .buildLimit 1921 0 { blank with cfg := ⟨1, 8, 0, []⟩ }).err = .capacity ∧
    (after .buildLimit 5 0 built).err = .state := by decide
/-- V-B6: up to n = 5 the bound is 11, so LIMIT = 240. -/
theorem test_buildNprimes : (after .buildNprimes 5 0 blank).limit = 240 ∧
    (after .buildNprimes 5 0 blank).store = [0xF93DDBB67EEFDFFE] := by decide +kernel
/-- V-B2. -/
theorem test_qLimit : result (after .qLimit 0 0 built) = (1200, 5, true, .none) := by decide
theorem test_qNumPrimes : result (after .qNumPrimes 0 0 built) = (196, 193, true, .none) := by decide
/-- V-F3: 1199 by lookup; 1439999 = 1199·1201 by trial; 1440001 is indeterminate. -/
theorem test_isPrime : result (after .isPrime 1199 0 built) = (0, 0, true, .none) ∧
    result (after .isPrime 1201 0 built) = (1, 0, true, .none) := by decide +kernel
theorem test_isPrime_ends : result (after .isPrime 1439999 0 built) = (0, 0, true, .none) ∧
    result (after .isPrime 1440001 0 built) = (0, 0, false, .none) := by decide +kernel
/-- V-F5. -/
theorem test_nthPrime : (after .nthPrime 52 0 built).res0 = 241 ∧ (after .nthPrime 195 0 built).res0 = 1193 := by decide
theorem test_nthPrime_end : result (after .nthPrime 196 0 built) = (0, 0, false, .none) ∧
    (after .nthPrime 2 0 built).res0 = 5 := by decide
/-- V-F6. -/
theorem test_rankFind : result (after .rankFind 192 0 built) = (4, 33, true, .none) ∧
    result (after .rankFind 49 0 built) = (1, 0, true, .none) := by decide
/-- V-F7: equal prefix counts are skipped. -/
theorem test_rankFind_duplicates :
    result (after .rankFind 3 0 { built with nwords := 6, pfx := [3, 3, 3, 5, 5, 9] }) = (3, 0, true, .none) := by decide
/-- P2's word 2. -/
theorem test_storeWord : result (after .storeWord 2 0 built) = (0xA559DD3BD3D30CE6, 125, true, .none) ∧
    (after .storeWord 5 0 built).err = .range := by decide
/-- V-F8. -/
theorem test_clear : (after .qLimit 0 0 (after .clear 0 0 built)).err = .noStore ∧
    (after .clear 0 0 blank).err = .none := by decide

/-! ## One host step -/

/-- The state a step leaves. -/
def stepped (s : State) : State := stateOr s (step s)

/-- V-F8, R71: 0x100 completes with ILLEGAL. -/
theorem test_illegal : (stepped (blank.withFetchWord 64 0x100)).err = .illegal ∧
    (stepped (blank.withFetchWord 64 0x33)).err = .illegal := by decide
/-- P6: a CMD write while BUSY = 1 is dropped and sets OVR (R241). -/
theorem test_overrun : (stepped { blank with busy := true, delay := 3, host := .wr 0x1008 8 0x51 .done }).ovr = true ∧
    (stepped { blank with busy := true, delay := 3, lcmd := 0x40, host := .wr 0x1008 8 0x51 .done }).lcmd = 0x40 := by
  decide
/-- P1's end state: STATUS = 0x0E; P4's: 0x502 (R23). -/
theorem test_status : statusWord { built with rv := true, itv := true } = 0x0E#64 ∧
    statusWord { built with err := .range } = 0x502#64 := by decide
/-- R27. -/
theorem test_id : lastRead (stepped { blank with host := .rd 0x1000 8 .done }) .id = some 0x5052494D45530001#64 := by decide
/-- P4: SCR_ONES writes all-ones to ARG0 and then 0x12 to CMD (R78); REPEAT repeats its writes. -/
theorem test_host_programs : registerWrites 0x1000 (scrOnes 0x1000 .done) =
      some [(0x18, 0xFFFFFFFFFFFFFFFF), (0x08, 0x12)] ∧
    registerWrites 0x1000 (.rep 2 (issue 0x1000 .wheelNext 0 0 .done) (clrOvr 0x1000 .done)) =
      some [(0x08, 0x21), (0x08, 0x21), (0x10, 0x20)] := by decide
/-- P1: the values read are named by their register, the last one and all in order (R77). -/
theorem test_reads :
    lastRead (deliver .status 3 (deliver .res0 97 (deliver .res0 196 blank))) .res0 = some 97 ∧
    valuesRead (deliver .status 3 (deliver .res0 97 (deliver .res0 196 blank))) .res0 = [196, 97] ∧
    lastRead blank .res0 = none := by decide
/-- As ITER_START leaves the built state (test_iterStart), with `p` for the host to run. -/
def started (p : HostProg) : State :=
  { built with itv := true, itph := 0, itw := 0, itcur := 0xF93DDBB67EEFDFFE, host := p }

/-- P1b: after BUILD_LIMIT 1000 and ITER_START, the encoding of DO ITER_NEXT WHILE RV has (0x08, 0x32) 197 times. -/
theorem test_loop_encoding :
    hasEncoding (started (.doWhileRv (issue 0x1000 .iterNext 0 0 .done) .done)) (List.replicate 197 (0x08, 0x32)) := by
  have hn : ∀ p, (decodeFrom .store (started p).store (started p).nwords.toNat 194 (started p).itw.toNat
      (started p).itcur).length = 193 := fun p => by
    show (decodeFrom .store built.store (5#64).toNat 194 (0#64).toNat 0xF93DDBB67EEFDFFE#64).length = 193
    decide +kernel
  have hd := hasEncoding_drain_implicit 3 194
    (s := started (issue 0x1000 .iterNext 0 0 (.whileRv (issue 0x1000 .iterNext 0 0 .done) .done)))
    rfl rfl rfl rfl rfl rfl (by rw [hn]; decide)
  rw [hn] at hd
  exact hasEncoding_doWhileRv rfl rfl hd

/-- The placed command runs as the first step after reset. -/
theorem test_first_step : step (State.reset.withFetchWord 64 0x50) =
    exec .qLimit { State.reset with lcmd := 0x50, larg0 := 0, larg1 := 0, busy := true, delay := 0 } := rfl

/-! ## Witnesses: a concrete state and operands meeting the hypotheses of each statement, clause by clause -/

theorem built_exact_lanes : ∀ i, i < 5 → ∀ b, b < 64 →
    (wordAt .store built.store i).getLsbD b = isPrimeNumber (240 * i + offset b) := by decide +kernel

/-- The built state, with a cursor at a word's start and a wheel. -/
def live : State := { built with itv := true, itph := 3, itcur := 0xF93DDBB67EEFDFFE, wv := true, wnum := 7 }

theorem live_inv : Inv live where
  cfgWf := by decide
  memory := by decide
  limitIs := by decide
  nwordsLe := by decide
  emptyIs := by decide
  pfxIs := by decide
  itvReady := by decide
  itwLe := by decide
  itwEnd := by decide
  itcurSub := fun _ _ _ h => h
  wheelRange := by decide

theorem live_invExact : InvExact live := by
  refine ⟨live_inv, fun i b hi hb => ?_⟩
  rw [show (wordAt .store live.store i).getLsbD b = isPrimeNumber (240 * i + offset b) from
    built_exact_lanes i hi b hb]
  exact isPrimeNumber_iff _

/-- The invariants' own hypotheses: a step from `live` to a next state, and its premise. -/
theorem witness_EveryStepKeeps : Inv live ∧ InvExact live ∧ live.ready = true ∧
    ∃ t, step (latchCommand live 0x32) = .next t :=
  ⟨live_inv, live_invExact, rfl, _, rfl⟩

theorem witness_InvLatched : InvExact (latchCommand live 0x32) :=
  ⟨⟨by decide, by decide, by decide, by decide, by decide, by decide, by decide, by decide, by decide,
    fun _ _ _ h => h, by decide⟩, live_invExact.2⟩

theorem witness_WordIsLegal : (¬ ∃ i, decode 0x100#64 = .ok i) ∧
    engineMoves (latchCommand blank 0x100) = true ∧ (latchCommand blank 0x100).lcmd = 0x100 := by
  refine ⟨?_, by decide, by decide⟩
  rintro ⟨i, h⟩
  exact absurd h (by cases i <;> decide)

theorem witness_ByteLanes : (bytesOfWord 0x8000000000000001).getD 7 0 = 0x80 ∧
    (bytesOfWord 0x8000000000000001).getD 0 0 = 1 := by decide

theorem witness_StepRuns : (latchCommand blank 0x50).busy = true ∧ (latchCommand blank 0x50).delay = 0 ∧
    decode (latchCommand blank 0x50).lcmd = .ok .qLimit := by decide

/-- BUSY = 0 and FATAL = 0; BUSY = 1; FATAL = 1. -/
theorem witness_CmdWrite :
    (engineMoves { blank with host := .wr (0x1000 + 0x08) 8 0x51 .done } = false ∧
      blank.busy = false ∧ blank.fatal = false) ∧
    engineMoves { blank with busy := true, delay := 1, host := .wr (0x1000 + 0x08) 8 0x51 .done } = false ∧
    engineMoves { blank with fatal := true, host := .wr (0x1000 + 0x08) 8 0x51 .done } = false := by decide

/-- From the acceptance on, with a delay of 3; and of 0. -/
theorem witness_AcceptedCommand :
    (core.run 4 { latchCommand blank 0x50 with delay := 3 } = engineStep (latchCommand blank 0x50)) ∧
    (core.run 1 (latchCommand blank 0x50) = engineStep (latchCommand blank 0x50)) := ⟨rfl, rfl⟩

/-- With one host step of delay left under a host that reads, and with two under one that writes CMD again. -/
theorem witness_AcceptedUnderAnyHost :
    (∃ t, ({ latchCommand blank 0x50 with delay := 1, host := .rd 0x1018 8 .done } : State).delay = 0 + 1 ∧
      ¬ resetsNext { latchCommand blank 0x50 with delay := 1, host := .rd 0x1018 8 .done } ∧
      step { latchCommand blank 0x50 with delay := 1, host := .rd 0x1018 8 .done } = .next t) ∧
    (∃ t, ¬ resetsNext { latchCommand blank 0x50 with delay := 2, host := .wr 0x1008 8 0 .done } ∧
      step { latchCommand blank 0x50 with delay := 2, host := .wr 0x1008 8 0 .done } = .next t) ∧
    (latchCommand blank 0x50).busy = true ∧ (latchCommand blank 0x50).delay = 0 :=
  ⟨⟨_, rfl, (by rintro ⟨_, _, h⟩; cases h), rfl⟩, ⟨_, (by rintro ⟨_, _, h⟩; cases h), rfl⟩, rfl, rfl⟩

/-- A WAIT on a command in flight, and one on an idle engine. -/
theorem witness_Wait : engineMoves { blank with busy := true, delay := 1, host := .wait .done } = false ∧
    engineMoves { blank with host := .wait .done } = false := by decide

/-- Every aligned offset of the register space, from 0x00 to 0xF8. -/
theorem witness_offsets : ∀ k, k < 32 → 8 * k < 256 ∧ (8 * k) % 8 = 0 ∧
    blank.busy = false ∧ engineMoves { blank with host := .wr (0x1000 + 8 * k) 8 ones .done } = false := by
  decide

theorem witness_IdleReads : ∀ k, k < 32 → blank.busy = false ∧
    ({ blank with host := .rd (0x1000 + 8 * k) 8 .done } : State).host = .rd (blank.cfg.regBase + 8 * k) 8 .done := by
  decide

theorem witness_BusyReads : ({ blank with busy := true, delay := 1 } : State).busy = true ∧
    ({ blank with busy := true, delay := 1 } : State).delay ≠ 0 := by decide

/-- A write of all-ones to STATUS clears OVR; to ARG0 it stays; to ID and to the last reserved offset nothing happens. -/
theorem witness_RegisterWrites :
    (stepped { blank with ovr := true, host := .wr 0x1010 8 ones .done }).ovr = false ∧
    (stepped { blank with host := .wr 0x1018 8 ones .done }).arg0 = ones ∧
    (stepped { blank with ovr := true, host := .wr 0x10F8 8 ones .done }).ovr = true := by decide

/-- The first and the last address inside, and the first ones outside, at a wrong size. -/
theorem witness_OtherAccesses :
    step { blank with host := .wr 0x1000 4 0 .done } = .refused (.notAligned64 0 4) ∧
    step { blank with host := .rd 0x10FF 8 .done } = .refused (.notAligned64 255 8) ∧
    step { blank with host := .rd 0xFFF 8 .done } = .fault (.outsideRegisterSpace 0xFFF) ∧
    step { blank with host := .wr 0x1100 8 0 .done } = .fault (.outsideRegisterSpace 0x1100) := ⟨rfl, rfl, rfl, rfl⟩

theorem witness_ResetSets : engineMoves { live with host := .reset .done } = false ∧
    resetsNext { live with host := .reset .done } := ⟨by decide, by decide, _, rfl⟩

/-- OVR rises by a CMD write while BUSY = 1, falls by a STATUS write and by a reset. -/
theorem witness_Ovr :
    (stepped { blank with busy := true, delay := 1, host := .wr 0x1008 8 0 .done }).ovr = true ∧
    (stepped { blank with ovr := true, host := .wr 0x1010 8 0x20 .done }).ovr = false ∧
    (stepped { blank with ovr := true, host := .reset .done }).ovr = false := by decide

/-- Each change of a STATUS field that the statement speaks of does happen. -/
theorem witness_StatusFields :
    (stepped (latchCommand blank 0x40)).ready = true ∧
    (stepped (latchCommand live 0x5F)).ready = false ∧
    (stepped (latchCommand built 0x30)).itv = true ∧
    (stepped (latchCommand live 0x5F)).itv = false ∧
    (stepped { latchCommand blank 0x20 with larg0 := 7, larg1 := 77 }).wv = true ∧
    (stepped { live with host := .reset .done }).wv = false ∧
    (stepped { blank with host := .wr 0x1008 8 0 .done }).busy = true ∧
    (stepped (latchCommand live 0x00)).busy = false ∧
    (stepped (latchCommand blank 0x50)).err ≠ blank.err ∧
    (stepped { blank with fatal := true, host := .reset .done }).fatal = false := by decide +kernel

theorem witness_Errors : (after .qLimit 0 0 blank).err ≠ .none ∧ (after .buildLimit 1 0 built).err = .state ∧
    (after .iterNext 0 0 built).err = .state ∧ (after .wheelNext 0 0 blank).err = .state := by decide

/-- Each condition of OPERAND, RANGE and CAPACITY, at its boundary. -/
theorem witness_ErrorConditions : (after .wheelNew 7 70 blank).err = .operand ∧
    (after .storeGet 1200 0 built).err = .range ∧ (after .scrSetOff 480 0 blank).err = .range ∧
    (after .scrReadWord 2 0 blank).err = .range ∧ (after .iterSeek 6 0 built).err = .range ∧
    (after .storeWord 5 0 built).err = .range ∧
    (after .buildLimit 1921 0 { blank with cfg := ⟨2, 8, 0, []⟩ }).err = .capacity ∧
    (after .buildNprimes 0 0 { blank with cfg := ⟨2, 0, 0, []⟩ }).err = .capacity := by decide

/-- The first and the last lane of OFFSET, and a residue that is not representable. -/
theorem witness_Offset : offset 0 = 1 ∧ offset 63 = 239 ∧ ¬ Nat.Coprime 15 30 := by decide

theorem witness_CodecMap : (0xFFFFFFFFFFFFFF0F : Word).toNat % 240 ≠ offset 0 ∧ (239 : Word).toNat % 240 = offset 63 := by
  decide

/-- The last index below LIMIT, and LIMIT itself, in both phases. -/
theorem witness_StoreGet : (built.ready = true ∧ (1199 : Word).toNat < built.limit.toNat) ∧
    built.limit.toNat ≤ (1200 : Word).toNat ∧ blank.ready = false := by decide

/-- The last scratch index and word, and the first ones outside; the arrays are in their form. -/
theorem witness_Scratch : Memory.wf blank = true ∧ (479 : Word).toNat < 240 * blank.cfg.segmentLen ∧
    240 * blank.cfg.segmentLen ≤ (480 : Word).toNat ∧ (1 : Word).toNat < blank.cfg.segmentLen ∧
    blank.cfg.segmentLen ≤ (2 : Word).toNat := by decide

theorem witness_Reencode : ([0, 0] : List Word).length = [0xF93DDBB67EEFDFFE, (ones : Word)].length := by decide

/-- The largest base, and one above it. -/
theorem witness_WheelNew : (1 ≤ (3074457345618258602 : Word).toNat ∧
    (3074457345618258602 : Word).toNat ≤ 3074457345618258602 ∧
    (3074457345618258602 : Word).toNat ∣ (3074457345618258602 : Word).toNat ∧
    Nat.Coprime ((3074457345618258602 : Word).toNat / (3074457345618258602 : Word).toNat) 30) ∧
    ¬ (3074457345618258603 : Word).toNat ≤ 3074457345618258602 := by decide

theorem witness_WheelNext : (live.wv = true ∧ live.wnum.toNat ≤ 3074457345618258602) ∧ blank.wv = false := by decide

theorem witness_WheelEnumerates : (1 ≤ 7 ∧ 7 ≤ 3074457345618258602 ∧ Nat.Coprime 11 30 ∧ Nat.Coprime 7 30) ∧
    ({ blank with larg0 := 7, larg1 := 77 } : State).larg0.toNat = 7 ∧
    ({ blank with larg0 := 7, larg1 := 77 } : State).larg1.toNat = 7 * 11 := by decide

/-- ITER_SEEK at 0 and at NWORDS, and just above. -/
theorem witness_IteratorStarts : built.ready = true ∧ (0 : Word).toNat ≤ built.nwords.toNat ∧
    (5 : Word).toNat ≤ built.nwords.toNat ∧ built.nwords.toNat < (6 : Word).toNat := by decide

theorem witness_IterNextImplicit : (({ live with itph := 0 } : State).itph.toNat < 3 ∧
    ({ live with itph := 2 } : State).itph.toNat < 3) ∧ built.itv = false ∧ live.itv = true := by decide

/-- A lane in the current word; the current word empty and the next one taken; nothing left. -/
theorem witness_IterNextDecodes :
    (live.itph = 3 ∧ live.itcur.getLsbD 1 = true ∧ ∀ c, c < 1 → live.itcur.getLsbD c = false) ∧
    ({ live with itcur := 0 } : State).itw.toNat < 1 ∧ 1 < live.nwords.toNat ∧
    (wordAt .store live.store 1).getLsbD 0 = true ∧
    (∀ u, u < live.nwords.toNat → ({ live with itcur := 0, itw := 5 } : State).itw.toNat < u →
      wordAt .store live.store u = 0) := by decide

theorem witness_Exhausted : ∃ t, exec .iterNext { live with itcur := 0, itw := 5 } = .next t ∧ t.err = .none ∧
    t.rv = false := ⟨_, rfl, by decide, by decide⟩

/-- Iteration over `live`: its first and last element, and one beyond (V-D1). -/
theorem witness_Iteration : InvExact live ∧ live.ready = true ∧ (∃ t, exec .iterStart live = .next t) ∧
    storedPrimes live = 193 := ⟨live_invExact, rfl, ⟨_, rfl⟩, by decide +kernel⟩

theorem witness_CursorWriters : ∃ t, exec .iterNext live = .next t ∧ Inv live ∧ live.itv = true ∧ t.itv = true :=
  ⟨_, rfl, live_inv, rfl, by decide⟩

/-- `BUILD_LIMIT 241` (two words, at the capacity) and `BUILD_NPRIMES 5`. -/
theorem witness_BuildCompletes :
    ({ blank with cfg := ⟨2, 2, 0, []⟩ } : State).cfg.wf = true ∧ blank.ready = false ∧
    ((241 : Word).toNat + 239) / 240 = 2 ∧ 2 ≤ ({ blank with cfg := ⟨2, 2, 0, []⟩ } : State).cfg.maxWords ∧
    (nprimesBound ⟨2, 2, 0, []⟩ (5 : Word).toNat + 239) / 240 = 1 := by decide

theorem witness_BuildErrors : built.ready = true ∧ blank.ready = false ∧
    ({ blank with cfg := ⟨2, 8, 0, []⟩ } : State).cfg.maxWords < ((1921 : Word).toNat + 239) / 240 := by decide

theorem witness_BuiltStore : blank.cfg.wf = true ∧
    (∃ t, exec .buildLimit { blank with larg0 := 241 } = .next t ∧ t.err = .none ∧ t.nwords = 2) ∧
    (∃ t, exec .buildNprimes { blank with larg0 := 5 } = .next t ∧ t.err = .none ∧ 0 < t.nwords.toNat) :=
  ⟨by decide, ⟨_, rfl, by decide, by decide⟩, ⟨_, rfl, by decide, by decide⟩⟩

/-- The two builds of the independence statement both run, at `SEGMENT_LEN` 2 and 1. -/
theorem witness_BuildIgnores : blank.cfg.wf = true ∧
    (∃ t, exec .buildLimit { blank with larg0 := 241 } = .next t ∧ t.ready = true) ∧
    ∃ u, exec .buildLimit { blank with larg0 := 241, cfg := { blank.cfg with segmentLen := 1 } } = .next u ∧
      u.ready = true := ⟨by decide, ⟨_, rfl, by decide⟩, _, rfl, by decide⟩

theorem witness_BuildNprimesIgnores :
    (∃ t, exec .buildNprimes { blank with larg0 := 5 } = .next t ∧ t.ready = true) ∧
    ∃ u, exec .buildNprimes { blank with larg0 := 5, cfg := { blank.cfg with segmentLen := 1 } } = .next u ∧
      u.ready = true := ⟨⟨_, rfl, by decide⟩, _, rfl, by decide⟩

/-- The largest store that `blank` may build. -/
theorem witness_InternalSizes : 4096 ≤ blank.cfg.maxWords := by decide

/-- One word, its first and last lane. -/
theorem witness_SmallSieve : (wordAt .small (smallSieve 1) 0).getLsbD 0 = false ∧
    (wordAt .small (smallSieve 1) 0).getLsbD 63 = true := by decide +kernel

/-- Two engines: one that follows the reference, one that overrides the counts 0 and 100. -/
theorem witness_NprimesBound : nprimesBound ⟨2, 8, 0, []⟩ 5 = 11 ∧ nprimesBound ⟨2, 8, 0, []⟩ 0 = 11 ∧
    (∃ f, isReferenceBound f) ∧ (∃ g : Nat → Nat, ∀ n, 1 ≤ n → Nat.nth Nat.Prime (n - 1) ≤ g n) ∧
    boundLo 6 = boundHi 6 ∧ nprimesBound ⟨2, 8, 0, [(0, 0), (100, 721)]⟩ 0 = 0 ∧
    nprimesBound ⟨2, 8, 0, [(0, 0), (100, 721)]⟩ 100 = 721 :=
  ⟨by decide, by decide, ⟨_, fun _ => rfl⟩, ⟨_, fun _ _ => le_rfl⟩, by decide +kernel, by decide, by decide +kernel⟩

/-- V-B6: the bound of n = 6, 7, 50 and 100, and W = 3 for 100. -/
theorem test_nprimesBound : [6, 7, 50, 100].map (nprimesBound ⟨2, 8, 0, []⟩) = [14, 18, 263, 613] ∧
    storeWords (nprimesBound ⟨2, 8, 0, []⟩ 100) = 3 := by decide +kernel

/-- V-B6: the reference floor of n = 1000 and 10000. -/
theorem test_referenceFloor : referenceFloor 1000 = 8840 ∧ referenceFloor 10000 = 114306 := by decide +kernel

/-- `BUILD_NPRIMES 100` builds LIMIT 720 (R187's example). -/
theorem witness_BuildNprimesCount : blank.cfg.wf = true ∧ blank.cfg.boundOverrides.lookup 100 = none ∧
    ∃ t, exec .buildNprimes { blank with larg0 := 100 } = .next t ∧ t.err = .none ∧ t.limit = 720 :=
  ⟨by decide, rfl, _, rfl, by decide +kernel, by decide +kernel⟩

/-- The queries' hypotheses: READY in both phases, TOTAL - 1 and TOTAL, num_primes - 1 and num_primes. -/
theorem witness_Queries : InvExact live ∧ live.ready = true ∧ blank.ready = false ∧
    (192 : Word).toNat < storedPrimes live ∧ storedPrimes live ≤ (193 : Word).toNat ∧
    (195 : Word).toNat < 3 + storedPrimes live ∧ 3 + storedPrimes live ≤ (196 : Word).toNat := by
  have h : storedPrimes live = 193 := by decide +kernel
  rw [h]
  exact ⟨live_invExact, rfl, rfl, by decide⟩

/-- Each side of IS_PRIME's bound LIMIT²; both phases of LIMIT = 0 (V-F4). -/
theorem witness_IsPrime : ((1440000 : Word).toNat ∈ [2, 3, 5] ∨ (1440000 : Word).toNat ≤ live.limit.toNat ^ 2) ∧
    ¬ ((1440001 : Word).toNat ∈ [2, 3, 5] ∨ (1440001 : Word).toNat ≤ live.limit.toNat ^ 2) := by decide

/-- R221's premise, on V-F7's index. -/
theorem witness_BinarySearch :
    (∀ j, j < 6 → ∀ i, i ≤ j → (wordAt .pfx [3, 3, 3, 5, 5, 9] i).toNat ≤ (wordAt .pfx [3, 3, 3, 5, 5, 9] j).toNat) ∧
    (∃ i, i < 6 ∧ 8 < (wordAt .pfx [3, 3, 3, 5, 5, 9] i).toNat) ∧
    rankIndex [3, 3, 3, 5, 5, 9] 6 8 = some (rankSearch [3, 3, 3, 5, 5, 9] 6 8) :=
  ⟨by decide, ⟨5, by decide⟩, by decide⟩

theorem witness_StoreWord : (built.ready = true ∧ (4 : Word).toNat < built.nwords.toNat) ∧
    built.nwords.toNat ≤ (5 : Word).toNat := by decide

theorem witness_Frames : (∃ t, exec .scrWriteWord { blank with larg0 := 1 } = .next t) ∧
    operandCount .iterSeek ≤ 1 ∧ operandCount .nop = 0 := ⟨⟨_, rfl⟩, by decide⟩

end Sys2Proof.Tests
end

section
/-! PROOFS. The internal buffers of a construction (spec/00_scope.md R8, spec/43_sieve_build.md R174-R178): SMALL keeps
its length through the ascending pass, and a prime enters TRACK only by leaving SP, which SMALL's lanes bound. -/

namespace Sys2Proof.Machine

/-- R8's sizes grow with the number of store words. -/
theorem smallWords_mono {v w : Nat} (h : v ≤ w) : smallWords v ≤ smallWords w :=
  Nat.add_le_add_right (Nat.div_le_div_right (isqrt_mono (Nat.mul_le_mul_left 240 h))) 1

theorem smallWords_maxWords (c : Config) : smallWords c.maxWords = smallMax c := rfl

theorem smallPass_length (hi fuel v : Nat) (a : List Word) : (smallPass hi fuel v a).length = a.length := by
  induction fuel generalizing v a with
  | zero => rfl
  | succ fuel ih =>
    unfold smallPass
    split
    · rw [ih]
      split
      · exact crossOff_length ..
      · rfl
    · rfl

@[simp] theorem smallSieve_length (n : Nat) : (smallSieve n).length = n := by
  rw [smallSieve, smallPass_length, freshWords_length]

/-- SP holds at most one prime for each lane of SMALL (R176). -/
theorem smallPrimes_length_le (w : Nat) (s : State) : (smallPrimes w s).length ≤ 64 * smallWords w :=
  decodeFrom_length_le ..

/-- Pulling moves primes from SP to the table and loses none (R178). -/
theorem pullPrimes_length_add (lo hi : Nat) (sp : List Nat) (track : List Tracked) :
    (pullPrimes lo hi sp track).1.length + (pullPrimes lo hi sp track).2.length = sp.length + track.length := by
  induction sp generalizing track with
  | nil => rfl
  | cons p sp ih =>
    unfold pullPrimes
    split
    · rw [ih, List.length_append, List.length_cons, List.length_cons, List.length_nil]
      omega
    · rfl

/-- Over one segment SP and TRACK together keep their length. -/
theorem buildSegment_length_add (w seg : Nat) (sp : List Nat) (s : State) :
    (buildSegment w seg sp s).1.length + (buildSegment w seg sp s).2.track.length = sp.length + s.track.length := by
  simp only [buildSegment, crossAll_length, pullPrimes_length_add]

theorem buildSegment_ntrack (w seg : Nat) (sp : List Nat) (s : State) :
    (buildSegment w seg sp s).2.ntrack = (buildSegment w seg sp s).2.track.length := rfl

theorem buildSegments_track_length_le (w count seg : Nat) (sp : List Nat) (s : State) :
    (buildSegments w count seg sp s).track.length ≤ sp.length + s.track.length := by
  induction count generalizing seg sp s with
  | zero => exact Nat.le_add_left ..
  | succ count ih =>
    exact (ih (seg + 1) _ _).trans_eq (buildSegment_length_add w seg sp s)

theorem buildSegments_ntrack (w count seg : Nat) (sp : List Nat) (s : State) (h : s.ntrack = s.track.length) :
    (buildSegments w count seg sp s).ntrack = (buildSegments w count seg sp s).track.length := by
  induction count generalizing seg sp s with
  | zero => exact h
  | succ count ih => exact ih (seg + 1) _ _ (buildSegment_ntrack w seg sp s)

theorem buildSegments_small (w count seg : Nat) (sp : List Nat) (s : State) :
    (buildSegments w count seg sp s).small = s.small := by
  induction count generalizing seg sp s with
  | zero => rfl
  | succ count ih => exact ih (seg + 1) _ _

/-- SMALL is sieved once, before the first segment (R175). -/
theorem constructStore_small (w : Nat) (s : State) : (constructStore w s).small = smallSieve (smallWords w) :=
  buildSegments_small ..

/-- TRACK is empty before the first segment (R177), so all its entries come from SP. -/
theorem constructStore_track_length_le (w : Nat) (s : State) :
    (constructStore w s).track.length ≤ 64 * smallWords w :=
  (buildSegments_track_length_le ..).trans (smallPrimes_length_le w _)

theorem constructStore_ntrack (w : Nat) (s : State) :
    (constructStore w s).ntrack = (constructStore w s).track.length :=
  buildSegments_ntrack _ _ _ _ _ rfl

/-- Settles O42: both buffers are bounded by `smallWords w`, which grows with `w`. -/
theorem internalSizesSuffice : Obligations.InternalSizesSuffice := by
  intro s w hw
  have hsize : smallWords w ≤ smallMax s.cfg := (smallWords_mono hw).trans_eq (smallWords_maxWords s.cfg)
  refine ⟨?_, ?_, constructStore_ntrack w s⟩
  · rw [constructStore_small, smallSieve_length]
    exact hsize
  · exact (constructStore_track_length_le w s).trans (Nat.mul_le_mul_left 64 hsize)

end Sys2Proof.Machine
end

section
/-! PROOFS. `NPRIMES_BOUND` against the reference definition over the reals and the n-th prime (spec/43_sieve_build.md
R186; log 11). -/

namespace Sys2Proof.Machine

/-- The required property of R186, with the n-th prime as Mathlib counts it. -/
theorem atLeastNthPrime_eq_max_nth (n b : Nat) (h : 1 ≤ n) :
    atLeastNthPrime n b = max (Nat.nth Nat.Prime (n - 1)) b := by
  rw [atLeastNthPrime_pos n b h, primeAt_eq_nth]

/-- The integer logarithms stay below the exact value from n = 3 on, and so do their floors. -/
theorem boundLo_le_floor (n : Nat) (hn : 3 ≤ n) :
    boundLo n ≤ ⌊(n : ℝ) * (Real.log n + Real.log (Real.log n))⌋₊ := by
  have hsum : ((lnLo n + lnLnLo n : ℕ) : ℝ) ≤ 2 ^ 192 * (Real.log n + Real.log (Real.log n)) := by
    push_cast
    linarith [lnLo_le n, lnLnLo_le n hn]
  rw [boundLo, ← Nat.floor_div_eq_div (K := ℝ)]
  refine Nat.floor_mono ?_
  rw [Nat.cast_mul, Nat.cast_pow, Nat.cast_ofNat, div_le_iff₀ (by positivity)]
  calc (n : ℝ) * (lnLo n + lnLnLo n : ℕ)
      ≤ n * (2 ^ 192 * (Real.log n + Real.log (Real.log n))) := by gcongr
    _ = n * (Real.log n + Real.log (Real.log n)) * 2 ^ 192 := by ring

theorem floor_le_boundHi (n : Nat) (hn : 3 ≤ n) :
    ⌊(n : ℝ) * (Real.log n + Real.log (Real.log n))⌋₊ ≤ boundHi n := by
  have hsum : 2 ^ 192 * (Real.log n + Real.log (Real.log n)) ≤ ((lnHi n + lnLnHi n : ℕ) : ℝ) := by
    push_cast
    linarith [le_lnHi n (by omega), le_lnLnHi n hn]
  rw [boundHi, ← Nat.floor_div_eq_div (K := ℝ)]
  refine Nat.floor_mono ?_
  rw [Nat.cast_mul, Nat.cast_pow, Nat.cast_ofNat, le_div_iff₀ (by positivity)]
  calc (n * (Real.log n + Real.log (Real.log n)) * 2 ^ 192 : ℝ)
      = n * (2 ^ 192 * (Real.log n + Real.log (Real.log n))) := by ring
    _ ≤ n * (lnHi n + lnLnHi n : ℕ) := by gcongr

/-- The reference floor over the reals lies between the model's two integer bounds. -/
theorem isReferenceBound.between {f : Nat → Nat} (hf : isReferenceBound f) {n : Nat} (hn : 6 ≤ n) :
    boundLo n ≤ f n ∧ f n ≤ boundHi n := by
  rw [hf n, if_neg (by omega)]
  exact ⟨boundLo_le_floor n (by omega), floor_le_boundHi n (by omega)⟩

theorem boundLo_le_boundHi (n : Nat) (hn : 3 ≤ n) : boundLo n ≤ boundHi n :=
  (boundLo_le_floor n hn).trans (floor_le_boundHi n hn)

theorem nth_prime_le_nprimesBound (c : Config) (n : Nat) (h : 1 ≤ n) :
    Nat.nth Nat.Prime (n - 1) ≤ nprimesBound c n := by
  rw [nprimesBound, atLeastNthPrime_eq_max_nth _ _ h]
  exact le_max_left ..

/-- An engine that overrides every count below `m` by the value of `g` has `g` as its bound there. -/
theorem nprimesBound_graph (c : Config) {g : Nat → Nat} (m : Nat)
    (hg : ∀ n, 1 ≤ n → Nat.nth Nat.Prime (n - 1) ≤ g n) {n : Nat} (hn : n < m) :
    nprimesBound { c with boundOverrides := (List.range m).map fun k => (k, g k) } n = g n := by
  rw [nprimesBound_of_some _ n (g n) (List.lookup_graph g (List.mem_range.2 hn))]
  refine atLeastNthPrime_of_le n (g n) fun h => ?_
  rw [primeAt_eq_nth]
  exact hg n h

/-- The fifth prime is 11, so up to 5 the reference definition has the required property. -/
theorem nprimesBound_small (c : Config) {n : Nat} (h : c.boundOverrides.lookup n = none) (hn : n ≤ 5) :
    nprimesBound c n = 11 := by
  have hprimes : ∀ k ≤ 5, primeAt (k - 1) ≤ 11 := by decide
  rw [nprimesBound_of_none c n h, referenceBound_small n hn]
  exact atLeastNthPrime_of_le n 11 fun _ => hprimes n hn

theorem nprimesBound_large (c : Config) {n : Nat} (h : c.boundOverrides.lookup n = none) (hn : 6 ≤ n) :
    nprimesBound c n = max (Nat.nth Nat.Prime (n - 1)) (referenceFloor n) := by
  rw [nprimesBound_of_none c n h, referenceBound_large n hn, atLeastNthPrime_eq_max_nth n _ (by omega)]

/-- Where the integer bounds agree, the model's floor is the reference floor. -/
theorem referenceFloor_eq_of_eq {f : Nat → Nat} (hf : isReferenceBound f) {n : Nat} (hn : 6 ≤ n)
    (he : boundLo n = boundHi n) : referenceFloor n = f n := by
  obtain ⟨hlo, hhi⟩ := hf.between hn
  rw [referenceFloor_of_eq n he]
  omega

/-- The values of V-B6. -/
theorem nprimesBound_of_nil (c : Config) (h : c.boundOverrides = []) :
    nprimesBound c 6 = 14 ∧ nprimesBound c 7 = 18 ∧ nprimesBound c 50 = 263 ∧ nprimesBound c 100 = 613 := by
  have hnone : ∀ n, nprimesBound c n = atLeastNthPrime n (referenceBound n) := fun n =>
    nprimesBound_of_none c n (by rw [h, List.lookup_nil])
  simp only [hnone]
  decide +kernel

/-- Settles O43: the integer bounds enclose the real floor, and the maximum with the n-th prime does the rest. -/
theorem nprimesBoundReachesTheNthPrime : Obligations.NprimesBoundReachesTheNthPrime := by
  refine ⟨nth_prime_le_nprimesBound, fun c g m hg => ⟨_, fun n hn => nprimesBound_graph c m hg hn⟩,
    fun c n hnone => ⟨nprimesBound_small c hnone, fun hn f hf => ⟨hf.between hn, ?_, fun he => ?_⟩⟩,
    nprimesBound_of_nil⟩
  · obtain ⟨hlo, hhi⟩ := referenceFloor_between n (boundLo_le_boundHi n (by omega))
    exact ⟨referenceFloor n, hlo, hhi, nprimesBound_large c hnone hn⟩
  · rw [nprimesBound_large c hnone hn, referenceFloor_eq_of_eq hf hn he]

end Sys2Proof.Machine
end

section
/-! PROOFS. Everything a completion can do, command by command (spec/60_exceptions.md R240 (b), R242), so that a
statement about all commands is proved over these endings and not over the bodies of 23 commands. -/

namespace Sys2Proof.Machine

/-- The ways in which command `i` can complete from `s`: in an error, with an answer, or with the one write that it is
there for. -/
inductive Completion (s : State) : Instr → State → Prop
  | raised (i : Instr) (e : Err) : Completion s i (raise e s)
  | nop : Completion s .nop (finish s)
  | answered (i : Instr) (r0 r1 : Word)
      (hi : i ∈ [.codecMap, .storeGet, .scrGet, .scrReadWord, .qLimit, .qNumPrimes, .isPrime, .nthPrime, .rankFind,
        .storeWord]) :
      Completion s i (finishWith r0 r1 s)
  | indeterminate (i : Instr) (hi : i ∈ [.isPrime, .nthPrime, .rankFind]) : Completion s i (finishIndet s)
  | scratchWritten (i : Instr) (scr : List Word) (hi : i ∈ [.scrFill, .scrSetOn, .scrSetOff, .scrWriteWord])
      (hlen : s.scr.length = s.cfg.segmentLen → scr.length = s.cfg.segmentLen) :
      Completion s i (finish { s with scr := scr })
  | wheelStarted (hok : wheelOperandsOk (operand0 s) (operand1 s) = true) :
      Completion s .wheelNew
        (finish { s with wnum := operandWord0 s, widx := wheelPos (operand1 s / operand0 s), wv := true })
  | wheelTurned (r0 r1 : Word) : Completion s .wheelNext (finishWith r0 r1 { s with widx := s.widx + 1 })
  | cursorPlaced (i : Instr) (ph : BitVec 2) (w : Word) (hi : i ∈ [.iterStart, .iterSeek]) (hr : s.ready = true)
      (hw : w.toNat ≤ s.nwords.toNat) :
      Completion s i (finish { s with
        itph := ph, itw := w, itcur := cursorWord .store s.store s.nwords.toNat w.toNat, itv := true })
  | implicitPrime (r0 : Word) (hr : s.ready = true) (hv : s.itv = true) :
      Completion s .iterNext (finishWith r0 0 { s with itph := s.itph + 1 })
  | decodedValue (v w : Nat) (cur : Word) (hr : s.ready = true) (hv : s.itv = true)
      (hd : decNext .store s.store s.nwords.toNat s.itw.toNat s.itcur = .value v w cur) :
      Completion s .iterNext (finishWith (word v) 0 { s with itw := word w, itcur := cur })
  | decodedEnd (w : Nat) (cur : Word) (hr : s.ready = true) (hv : s.itv = true)
      (hd : decNext .store s.store s.nwords.toNat s.itw.toNat s.itcur = .ended w cur) :
      Completion s .iterNext (finishIndet { s with itw := word w, itcur := cur })
  | built (i : Instr) (w : Nat) (hi : i ∈ [.buildLimit, .buildNprimes]) (hr : s.ready = false)
      (hw : w ≤ s.cfg.maxWords) :
      Completion s i (publishStore w (constructStore w s))
  | cleared :
      Completion s .clear
        (finish { s with ready := false, limit := 0, nwords := 0, itv := false, store := [], pfx := [] })

/-- A command behind the READY check ends in NOSTORE or as its body does (R210). -/
theorem Completion.withStore {s go : State} {i : Instr} (h : s.ready = true → Completion s i go) :
    Completion s i (withStore s go) := by
  obtain ⟨hr, he⟩ | ⟨_, he⟩ := withStore_cases s go <;> rw [he]
  · exact h hr
  · exact .raised i .noStore

theorem Completion.withScratchIndex {s go : State} {i : Instr} (h : Completion s i go) :
    Completion s i (withScratchIndex s go) := by
  obtain ⟨_, he⟩ | ⟨_, he⟩ := withScratchIndex_cases s go <;> rw [he]
  · exact h
  · exact .raised i .range

theorem Completion.withScratchWord {s go : State} {i : Instr} (h : Completion s i go) :
    Completion s i (withScratchWord s go) := by
  obtain ⟨_, he⟩ | ⟨_, he⟩ := withScratchWord_cases s go <;> rw [he]
  · exact h
  · exact .raised i .range

theorem Completion.ite {s a b : State} {i : Instr} {c : Prop} [Decidable c] (ha : c → Completion s i a)
    (hb : ¬ c → Completion s i b) : Completion s i (if c then a else b) := by
  split
  · exact ha ‹_›
  · exact hb ‹_›

/-- Both builds, whatever number they build to (R171, R187). -/
theorem Completion.build {s : State} {i : Instr} (limit : Nat) (hi : i ∈ [.buildLimit, .buildNprimes]) :
    Completion s i (if s.ready then raise .state s else build limit s) := by
  refine .ite (fun _ => .raised i .state) fun hr => ?_
  obtain ⟨_, he⟩ | ⟨hw, he⟩ := build_cases limit s <;> rw [he]
  · exact .raised i .capacity
  · exact .built i _ hi (by simpa using hr) hw

theorem Completion.iterDecode {s : State} (hr : s.ready = true) (hv : s.itv = true) :
    Completion s .iterNext (iterDecode s) := by
  unfold Machine.iterDecode
  split
  · exact .decodedValue _ _ _ hr hv ‹_›
  · exact .decodedEnd _ _ hr hv ‹_›

/-- The answer of a rank search, if there is one, and INDET otherwise (R218, R219). -/
theorem Completion.ofRank {s : State} {i : Instr} (m : Nat) (r0 r1 : Nat × Nat → Word)
    (hi : i ∈ [.nthPrime, .rankFind]) :
    Completion s i
      (match rankFind s m with
       | some r => finishWith (r0 r) (r1 r) s
       | none => finishIndet s) := by
  split
  · exact .answered i _ _ (by revert hi; cases i <;> decide)
  · exact .indeterminate i (by revert hi; cases i <;> decide)

/-- Every completion is one of these. -/
theorem exec_completion {i : Instr} {s t : State} (h : exec i s = .next t) : Completion s i t := by
  cases i <;> injection h with h <;> subst h
  case nop => exact .nop
  case codecMap => exact .answered _ _ _ (by decide)
  case storeGet => exact .withStore fun _ => .ite (fun _ => .raised _ _) fun _ => .answered _ _ _ (by decide)
  case scrFill => exact .scratchWritten _ _ (by decide) fun _ => List.length_replicate
  case scrGet => exact .withScratchIndex (.answered _ _ _ (by decide))
  case scrSetOn => exact .withScratchIndex (.scratchWritten _ _ (by decide) (codecSetOn_length s.scr _).trans)
  case scrSetOff => exact .withScratchIndex (.scratchWritten _ _ (by decide) (codecSetOff_length s.scr _).trans)
  case scrReadWord => exact .withScratchWord (.answered _ _ _ (by decide))
  case scrWriteWord => exact .withScratchWord (.scratchWritten _ _ (by decide) List.length_set.trans)
  case wheelNew => exact .ite .wheelStarted fun _ => .raised _ _
  case wheelNext => exact .ite (fun _ => .wheelTurned _ _) fun _ => .raised _ _
  case iterStart => exact .withStore fun hr => .cursorPlaced _ 0 0 (by decide) hr (Nat.zero_le _)
  case iterSeek =>
    exact .withStore fun hr => .ite (fun _ => .raised _ _) fun hw =>
      .cursorPlaced _ 3 (operandWord0 s) (by decide) hr (Nat.le_of_not_gt hw)
  case iterNext =>
    exact .withStore fun hr => .ite
      (fun hv => .ite (fun _ => .implicitPrime _ hr hv) fun _ => .iterDecode hr hv) fun _ => .raised _ _
  case buildLimit => exact .build _ (by decide)
  case buildNprimes => exact .build _ (by decide)
  case qLimit => exact .withStore fun _ => .answered _ _ _ (by decide)
  case qNumPrimes => exact .withStore fun _ => .answered _ _ _ (by decide)
  case isPrime =>
    refine .withStore fun _ => ?_
    split
    · exact .answered _ _ _ (by decide)
    · exact .indeterminate _ (by decide)
  case nthPrime =>
    exact .withStore fun _ => .ite (fun _ => .answered _ _ _ (by decide)) fun _ =>
      .ite (fun _ => .indeterminate _ (by decide)) fun _ => .ofRank _ _ _ (by decide)
  case rankFind =>
    exact .withStore fun _ => .ite (fun _ => .indeterminate _ (by decide)) fun _ => .ofRank _ _ _ (by decide)
  case storeWord => exact .withStore fun _ => .ite (fun _ => .raised _ _) fun _ => .answered _ _ _ (by decide)
  case clear => exact .cleared

end Sys2Proof.Machine
end

section
/-! PROOFS. Everything a step can do, and what each register access does in a step (spec/20_memory.md R51-R56,
spec/60_exceptions.md R240, R241, spec/70_reset_and_hazards.md R270, R283). -/

namespace Sys2Proof.Machine

/-! ## The register map -/

theorem regAt_eq_cmd_iff (off : Nat) : regAt off = .cmd ↔ off = 0x08 := by
  unfold regAt; split <;> simp_all

theorem regAt_eq_status_iff (off : Nat) : regAt off = .status ↔ off = 0x10 := by
  unfold regAt; split <;> simp_all

theorem regAt_eq_arg0_iff (off : Nat) : regAt off = .arg0 ↔ off = 0x18 := by
  unfold regAt; split <;> simp_all

theorem regAt_eq_arg1_iff (off : Nat) : regAt off = .arg1 ↔ off = 0x20 := by
  unfold regAt; split <;> simp_all

theorem regAt_reserved {off : Nat} (h : 0x48 ≤ off) : regAt off = .reserved := by
  unfold regAt; split <;> simp_all

theorem inRegisterSpace_offset {base off : Nat} (h : off < 256) : inRegisterSpace base (base + off) = true := by
  simp [inRegisterSpace, h]

theorem aligned64_offset {off : Nat} (h : off % 8 = 0) : aligned64 off 8 = true := by
  simp [aligned64, h]

/-- An aligned access at an offset of the register space reaches the register that the map names there (R51, R52). -/
theorem withAccess_at {s : State} {off : Nat} (go : Reg → State) (hoff : off < 256) (hal : off % 8 = 0) :
    withAccess s (s.cfg.regBase + off) 8 go = .next (go (regAt off)) := by
  rw [withAccess, if_pos (inRegisterSpace_offset hoff), Nat.add_sub_cancel_left, if_pos (aligned64_offset hal)]

/-- An access that has a meaning is 8 bytes wide and lies at some offset from REG_BASE. -/
theorem access_at_offset {base addr size : Nat} (hin : inRegisterSpace base addr = true)
    (hal : aligned64 (addr - base) size = true) : size = 8 ∧ addr = base + (addr - base) := by
  simp only [inRegisterSpace, aligned64, Bool.and_eq_true, decide_eq_true_eq, beq_iff_eq] at hin hal
  omega

/-! ## One step -/

theorem step_of_host {s : State} (h : engineMoves s = false) : step s = hostStep (tick s) := by
  simp [step, h]

theorem step_write {s : State} {off : Nat} {v : Word} {rest : HostProg} (hm : engineMoves s = false)
    (hh : s.host = .wr (s.cfg.regBase + off) 8 v rest) (hoff : off < 256) (hal : off % 8 = 0) :
    step s = .next (writeReg { tick s with host := rest } (regAt off) v) := by
  have hh' : (tick s).host = .wr ((tick s).cfg.regBase + off) 8 v rest := by simpa using hh
  rw [step_of_host hm, hostStep, hh']
  exact withAccess_at _ hoff hal

theorem step_read {s : State} {off : Nat} {rest : HostProg} (hm : engineMoves s = false)
    (hh : s.host = .rd (s.cfg.regBase + off) 8 rest) (hoff : off < 256) (hal : off % 8 = 0) :
    step s = .next (deliver (regAt off) (readReg { tick s with host := rest } (regAt off))
      { tick s with host := rest }) := by
  have hh' : (tick s).host = .rd ((tick s).cfg.regBase + off) 8 rest := by simpa using hh
  rw [step_of_host hm, hostStep, hh']
  exact withAccess_at _ hoff hal

theorem resetEngine_tick (s : State) (rest : HostProg) : resetEngine (tick s) rest = resetEngine s rest := by
  simp [resetEngine]

theorem step_reset {s : State} {rest : HostProg} (hm : engineMoves s = false) (hh : s.host = .reset rest) :
    step s = .next (resetEngine s rest) := by
  have hh' : (tick s).host = .reset rest := by simpa using hh
  rw [step_of_host hm, hostStep, hh', ← resetEngine_tick]

/-! ## What the host leaves -/

/-- The items that no host access but a reset writes, the others blanked. -/
def enginePart (s : State) : State :=
  { s with
    busy := false, ovr := false, arg0 := 0, arg1 := 0, lcmd := 0, larg0 := 0, larg1 := 0
    delay := 0, draws := 0, host := .done, reads := [] }

@[simp] theorem enginePart_tick (s : State) : enginePart (tick s) = enginePart s := by
  unfold tick; split <;> rfl

theorem enginePart_writeReg (s : State) (r : Reg) (v : Word) : enginePart (writeReg s r v) = enginePart s := by
  cases r
  case cmd =>
    obtain ⟨_, h⟩ | ⟨_, _, h⟩ | ⟨_, _, h⟩ := writeCmd_cases s v <;> rw [writeReg, h] <;> rfl
  case status =>
    rw [writeReg, writeStatus]; split <;> rfl
  all_goals rfl

/-! ## The kinds of step -/

/-- The kinds of step: a completion, an illegal word, a reset, a register write, or a host step that touches nothing of
the engine but the delay. -/
inductive StepKind (s : State) : State → Prop
  | completes {t : State} (i : Instr) (hc : completesNext s i) (h : Completion s i t) : StepKind s t
  | illegal (hm : engineMoves s = true) : StepKind s (raise .illegal s)
  | reset (rest : HostProg) (hr : resetsNext s) : StepKind s (resetEngine s rest)
  | write (off : Nat) (v : Word) (rest : HostProg) (hw : writesNext s off v) :
      StepKind s (writeReg { tick s with host := rest } (regAt off) v)
  | hostOnly (host : HostProg) (reads : List (Reg × Word)) (hm : engineMoves s = false) :
      StepKind s { tick s with host := host, reads := reads }

theorem step_kind {s t : State} (h : step s = .next t) : StepKind s t := by
  obtain ⟨hm, i, hi, hx⟩ | ⟨hm, _, rfl⟩ | ⟨hm, hh⟩ := step_cases h
  · exact .completes i ⟨hm, hi⟩ (exec_completion hx)
  · exact .illegal hm
  · obtain ⟨_, rfl⟩ | ⟨addr, size, v, rest, hs, hin, hal, rfl⟩ | ⟨_, _, _, _, _, _, rfl⟩ | ⟨rest, _, rfl⟩ |
      ⟨_, _, rfl⟩ | ⟨rest, hs, rfl⟩ := hostStep_cases hh
    · exact .hostOnly _ _ hm
    · obtain ⟨rfl, haddr⟩ := access_at_offset hin hal
      rw [tick_host] at hs
      exact .write _ v rest ⟨hm, rest, by rw [hs, ← tick_cfg s, ← haddr]⟩
    · exact .hostOnly _ _ hm
    · split
      · exact .hostOnly _ _ hm
      · exact .hostOnly _ _ hm
    · exact .hostOnly _ _ hm
    · rw [tick_host] at hs
      rw [resetEngine_tick]
      exact .reset rest ⟨hm, rest, hs⟩

/-- A host step that is no reset leaves the engine's part. -/
theorem StepKind.enginePart_eq {s t : State} (h : StepKind s t) (hm : engineMoves s = false) (hr : ¬ resetsNext s) :
    enginePart t = enginePart s := by
  cases h with
  | completes _ hc => exact absurd (hm.symm.trans hc.1) Bool.false_ne_true
  | illegal hm' => exact absurd (hm.symm.trans hm') Bool.false_ne_true
  | reset _ hr' => exact absurd hr' hr
  | write => exact (enginePart_writeReg _ _ _).trans (enginePart_tick s)
  | hostOnly => exact enginePart_tick s

end Sys2Proof.Machine
end

section
/-! PROOFS. The structural invariant over all steps (spec/10_state.md R30, R32, R41-R43). -/

namespace Sys2Proof.Machine

/-! ## What the invariant reads -/

/-- The items that the invariant speaks of, the others blanked: STATUS but READY, ITV and WV, the host registers, the
latch, the construction's own state and the model's fields say nothing about it. -/
def invPart (s : State) : State :=
  { s with
    busy := false, rv := false, ovr := false, fatal := false, err := .none
    arg0 := 0, arg1 := 0, res0 := 0, res1 := 0, lcmd := 0, larg0 := 0, larg1 := 0
    small := [], track := [], ntrack := 0, widx := 0, itph := 0
    delay := 0, draws := 0, host := .done, reads := [] }

theorem inv_invPart (s : State) : Inv (invPart s) ↔ Inv s := by
  constructor
  · rintro ⟨h1, h2, h3, h4, h5, h6, h7, h8, h9, h10, h11⟩
    exact ⟨h1, h2, h3, h4, h5, h6, h7, h8, h9, h10, h11⟩
  · rintro ⟨h1, h2, h3, h4, h5, h6, h7, h8, h9, h10, h11⟩
    exact ⟨h1, h2, h3, h4, h5, h6, h7, h8, h9, h10, h11⟩

theorem storeExact_invPart (s : State) : StoreExact (invPart s) ↔ StoreExact s := Iff.rfl

theorem Inv.of_invPart_eq {s t : State} (h : Inv s) (he : invPart t = invPart s) : Inv t := by
  rwa [← inv_invPart, he, inv_invPart]

theorem StoreExact.of_invPart_eq {s t : State} (h : StoreExact s) (he : invPart t = invPart s) : StoreExact t := by
  rwa [← storeExact_invPart, he, storeExact_invPart]

/-- Nothing that only the host writes is read by the invariant. -/
theorem invPart_eq_of_enginePart_eq {s t : State} (h : enginePart t = enginePart s) : invPart t = invPart s :=
  show invPart (enginePart t) = invPart (enginePart s) from congrArg invPart h

/-! ## Reset -/

theorem inv_afterReset {c : Config} (hc : c.wf = true) (n : Nat) (p : HostProg) (r : List (Reg × Word)) :
    Inv (State.afterReset c n p r) where
  cfgWf := hc
  memory := afterReset_memory_wf c n p r
  limitIs := rfl
  nwordsLe := Nat.zero_le _
  emptyIs _ := rfl
  pfxIs := rfl
  itvReady := nofun
  itwLe := nofun
  itwEnd := nofun
  itcurSub := nofun
  wheelRange := nofun

theorem storeExact_afterReset (c : Config) (n : Nat) (p : HostProg) (r : List (Reg × Word)) :
    StoreExact (State.afterReset c n p r) :=
  fun i _ hi => absurd hi (Nat.not_lt_zero i)

theorem engine_wf : Config.engine.wf = true := by
  have hseg : Config.engine.segmentLen = Config.segmentLenLess.val + 1 := rfl
  have hmax : Config.engine.maxWords = Config.maxWordsLess.val + 1 := rfl
  simp only [Config.wf, maxWordsCap, Bool.and_eq_true, decide_eq_true_eq]
  omega

/-- Settles O58: the parameters of the engine are ones R7 allows, and no store, cursor or wheel is valid. -/
theorem resetMeetsTheInvariant : Obligations.ResetMeetsTheInvariant :=
  ⟨inv_afterReset engine_wf _ _ _, storeExact_afterReset _ _ _ _⟩

/-! ## The cursor -/

/-- The clauses of R43 on a cursor at word `w` with unconsumed bits `cur`. -/
structure CursorOk (s : State) (w cur : Word) : Prop where
  le : w.toNat ≤ s.nwords.toNat
  atEnd : w = s.nwords → cur = 0
  sub : w.toNat < s.nwords.toNat → ∀ b, cur.getLsbD b = true → (wordAt .store s.store w.toNat).getLsbD b = true

theorem Inv.cursorOk {s : State} (h : Inv s) (hv : s.itv = true) : CursorOk s s.itw s.itcur :=
  ⟨h.itwLe hv, h.itwEnd hv, h.itcurSub hv⟩

theorem Inv.withCursor {s : State} {w cur : Word} (h : Inv s) (hc : CursorOk s w cur) (ph : BitVec 2) {v : Bool}
    (hv : v = true → s.ready = true) : Inv { s with itph := ph, itw := w, itcur := cur, itv := v } where
  cfgWf := h.cfgWf
  memory := h.memory
  limitIs := h.limitIs
  nwordsLe := h.nwordsLe
  emptyIs := h.emptyIs
  pfxIs := h.pfxIs
  itvReady := hv
  itwLe _ := hc.le
  itwEnd _ := hc.atEnd
  itcurSub _ := hc.sub
  wheelRange := h.wheelRange

/-- A cursor placed at the start of a word has all its bits, and none at NWORDS (R152, R153). -/
theorem cursorOk_placed {s : State} {w : Word} (hw : w.toNat ≤ s.nwords.toNat) :
    CursorOk s w (cursorWord .store s.store s.nwords.toNat w.toNat) where
  le := hw
  atEnd he := by rw [he, cursorWord, if_neg (Nat.lt_irrefl _)]
  sub hlt b hb := by rwa [cursorWord, if_pos hlt] at hb

theorem toNat_word {n : Nat} (h : n < 2 ^ 64) : (word n).toNat = n := Nat.mod_eq_of_lt h

theorem word_toNat (w : Word) : word w.toNat = w := by simp [word]

theorem clearLowest_sub {w : Word} {b : Nat} (h : (clearLowest w).getLsbD b = true) : w.getLsbD b = true := by
  rw [clearLowest, BitVec.getLsbD_and, Bool.and_eq_true] at h
  exact h.1

/-- A cursor inside a word below NWORDS that has lost its lowest bit. -/
theorem cursorOk_clearLowest {s : State} {w : Nat} {cur : Word} (hw : w < s.nwords.toNat)
    (hsub : ∀ b, cur.getLsbD b = true → (wordAt .store s.store w).getLsbD b = true) :
    CursorOk s (word w) (clearLowest cur) := by
  have hn : (word w).toNat = w := toNat_word (hw.trans s.nwords.isLt)
  refine ⟨by omega, fun he => ?_, fun _ b hb => ?_⟩
  · rw [he] at hn; omega
  · rw [hn]; exact hsub b (clearLowest_sub hb)

/-- A decode step that gives a value leaves the cursor in its word, or in the next nonzero one (R151, R155). -/
theorem CursorOk.decNext_value {s : State} {itw itcur cur : Word} {v w : Nat} (h : CursorOk s itw itcur)
    (hd : decNext .store s.store s.nwords.toNat itw.toNat itcur = .value v w cur) : CursorOk s (word w) cur := by
  obtain ⟨hne, he⟩ | ⟨_, u, _, hu, _, _, he⟩ | ⟨_, _, he⟩ :=
    decNext_cases .store s.store s.nwords.toNat itw.toNat itcur <;> rw [he] at hd <;> cases hd
  · have hw : itw.toNat < s.nwords.toNat :=
      Nat.lt_of_le_of_ne h.le fun heq => hne (h.atEnd (BitVec.eq_of_toNat_eq heq))
    exact cursorOk_clearLowest hw (h.sub hw)
  · exact cursorOk_clearLowest hu fun _ hb => hb

/-- A decode step that ends leaves the cursor at NWORDS (R151, R156). -/
theorem cursorOk_decNext_ended {s : State} {itw itcur cur : Word} {w : Nat}
    (hd : decNext .store s.store s.nwords.toNat itw.toNat itcur = .ended w cur) : CursorOk s (word w) cur := by
  obtain ⟨_, he⟩ | ⟨_, _, _, _, _, _, he⟩ | ⟨_, _, he⟩ :=
    decNext_cases .store s.store s.nwords.toNat itw.toNat itcur <;> rw [he] at hd <;> cases hd
  rw [word_toNat]
  exact ⟨Nat.le_refl _, fun _ => rfl, fun hlt => absurd hlt (Nat.lt_irrefl _)⟩

/-! ## The wheel, the arrays and a build -/

theorem wheelOperandsOk_range {num mult : Nat} (h : wheelOperandsOk num mult = true) :
    1 ≤ num ∧ num ≤ wheelBaseCap := by
  simp only [wheelOperandsOk, Bool.and_eq_true, decide_eq_true_eq] at h
  obtain ⟨⟨⟨hne, hle⟩, _⟩, _⟩ := h
  exact ⟨Nat.one_le_iff_ne_zero.mpr hne, hle⟩

theorem Inv.withWheel {s : State} {num : Word} (h : Inv s) (hn : 1 ≤ num.toNat ∧ num.toNat ≤ wheelBaseCap)
    (wi : BitVec 3) : Inv { s with wnum := num, widx := wi, wv := true } :=
  { h with wheelRange := fun _ => hn }

theorem Inv.withScr {s : State} {scr : List Word} (h : Inv s) (hlen : scr.length = s.cfg.segmentLen) :
    Inv { s with scr := scr } :=
  { h with memory := (memory_wf_iff _).mpr ⟨hlen, ((memory_wf_iff s).mp h.memory).2⟩ }

/-- R7's bounds keep every number of a store that fits below 2^64. -/
theorem cfgWf_bounds {c : Config} (h : c.wf = true) :
    1 ≤ c.segmentLen ∧ c.segmentLen < 2 ^ 64 ∧ 240 * c.maxWords < 2 ^ 64 := by
  simp only [Config.wf, maxWordsCap, Bool.and_eq_true, decide_eq_true_eq] at h
  omega

theorem Inv.cleared {s : State} (h : Inv s) :
    Inv { s with ready := false, limit := 0, nwords := 0, itv := false, store := [], pfx := [] } where
  cfgWf := h.cfgWf
  memory := (memory_wf_iff _).mpr ⟨((memory_wf_iff s).mp h.memory).1, rfl, rfl⟩
  limitIs := rfl
  nwordsLe := Nat.zero_le _
  emptyIs _ := rfl
  pfxIs := rfl
  itvReady := nofun
  itwLe := nofun
  itwEnd := nofun
  itcurSub := nofun
  wheelRange := h.wheelRange

/-- From EMPTY no cursor is valid, so a build may publish any store of the right length with its running
popcounts. -/
theorem Inv.published {s : State} {w : Nat} (h : Inv s) (hr : s.ready = false) (hw : w ≤ s.cfg.maxWords) :
    Inv (publishStore w (constructStore w s)) := by
  obtain ⟨hseg, _, hcap⟩ := cfgWf_bounds h.cfgWf
  obtain ⟨small, scr, track, ntrack, store, he, hl⟩ := constructStore_shape w s hseg
  have hn : (word w).toNat = w := toNat_word (by omega)
  have hitv : s.itv ≠ true := fun hv => by simp [h.itvReady hv] at hr
  rw [he]
  exact
    { cfgWf := h.cfgWf
      memory := (memory_wf_iff _).mpr
        ⟨drawWords_length .., hl.trans hn.symm, (prefixCounts_length 0 store).trans (hl.trans hn.symm)⟩
      limitIs := by
        change (word (240 * w)).toNat = 240 * (word w).toNat
        rw [hn, toNat_word (by omega)]
      nwordsLe := hn.trans_le hw
      emptyIs := nofun
      pfxIs := rfl
      itvReady := fun hv => absurd hv hitv
      itwLe := fun hv => absurd hv hitv
      itwEnd := fun hv => absurd hv hitv
      itcurSub := fun hv => absurd hv hitv
      wheelRange := h.wheelRange }

/-! ## Every step -/

theorem Inv.completion {s t : State} {i : Instr} (h : Inv s) (hc : Completion s i t) : Inv t := by
  cases hc with
  | raised | nop | answered | indeterminate | wheelTurned | implicitPrime => exact h.of_invPart_eq rfl
  | scratchWritten _ scr _ hlen =>
    exact (h.withScr (hlen ((memory_wf_iff s).mp h.memory).1)).of_invPart_eq rfl
  | wheelStarted hok => exact (h.withWheel (wheelOperandsOk_range hok) s.widx).of_invPart_eq rfl
  | cursorPlaced _ ph w _ hr hw => exact (h.withCursor (cursorOk_placed hw) ph fun _ => hr).of_invPart_eq rfl
  | decodedValue v w cur _ hv hd =>
    exact (h.withCursor ((h.cursorOk hv).decNext_value hd) s.itph h.itvReady).of_invPart_eq rfl
  | decodedEnd w cur _ _ hd =>
    exact (h.withCursor (cursorOk_decNext_ended hd) s.itph h.itvReady).of_invPart_eq rfl
  | built _ w _ hr hw => exact h.published hr hw
  | cleared => exact h.cleared.of_invPart_eq rfl

theorem Inv.stepKind {s t : State} (h : Inv s) (hk : StepKind s t) : Inv t := by
  cases hk with
  | completes i _ hc => exact h.completion hc
  | illegal => exact h.of_invPart_eq rfl
  | reset rest => exact inv_afterReset h.cfgWf _ _ _
  | write => exact h.of_invPart_eq (invPart_eq_of_enginePart_eq ((enginePart_writeReg _ _ _).trans (enginePart_tick s)))
  | hostOnly => exact h.of_invPart_eq (invPart_eq_of_enginePart_eq (enginePart_tick s))

/-- Settles O59, by the kinds of step and the endings of a completion. -/
theorem everyStepKeepsTheInvariant : Obligations.EveryStepKeepsTheInvariant :=
  fun _ _ h hs => h.stepKind (step_kind hs)

end Sys2Proof.Machine
end

section
/-! PROOFS. What a decoder yields over a whole array (spec/42_decoder.md R150, R151, R159): the numbers of its set
lanes, ascending. -/

namespace Sys2Proof.Machine

/-- The numbers that a decoder at word `w` with unconsumed bits `cur` has still to yield. -/
def Pending (item : Item) (a : List Word) (n w : Nat) (cur : Word) (p : Nat) : Prop :=
  (∃ b < 64, cur.getLsbD b = true ∧ p = 240 * w + offset b) ∨
  ∃ j b, w < j ∧ j < n ∧ b < 64 ∧ (wordAt item a j).getLsbD b = true ∧ p = 240 * j + offset b

/-- A bound on how many numbers are pending. -/
def pendingBound (n w : Nat) (cur : Word) : Nat := popcount cur + 64 * (n - 1 - w)

theorem clearLowest_getLsbD_iff {w : Word} (h : w ≠ 0) (b : Nat) :
    (clearLowest w).getLsbD b = true ↔ w.getLsbD b = true ∧ b ≠ tz w := by
  rw [clearLowest_getLsbD h, Bool.and_eq_true, decide_eq_true_eq]

/-- Taking the lowest bit of a cursor takes one pending number. -/
theorem pending_clearLowest {item : Item} {a : List Word} {n w : Nat} {cur : Word} (h : cur ≠ 0) (p : Nat) :
    Pending item a n w cur p ↔ p = 240 * w + offset (tz cur) ∨ Pending item a n w (clearLowest cur) p := by
  obtain ⟨hlt, hset, _⟩ := tz_spec h
  simp only [Pending, clearLowest_getLsbD_iff h]
  constructor
  · rintro (⟨b, hb, hbit, rfl⟩ | hlater)
    · by_cases hbt : b = tz cur
      · exact .inl (by rw [hbt])
      · exact .inr (.inl ⟨b, hb, ⟨hbit, hbt⟩, rfl⟩)
    · exact .inr (.inr hlater)
  · rintro (rfl | ⟨b, hb, ⟨hbit, _⟩, rfl⟩ | hlater)
    · exact .inl ⟨_, hlt, hset, rfl⟩
    · exact .inl ⟨b, hb, hbit, rfl⟩
    · exact .inr hlater

/-- It is the least one. -/
theorem lt_of_pending_clearLowest {item : Item} {a : List Word} {n w p : Nat} {cur : Word} (h : cur ≠ 0)
    (hp : Pending item a n w (clearLowest cur) p) : 240 * w + offset (tz cur) < p := by
  obtain ⟨hlt, _, hlow⟩ := tz_spec h
  obtain ⟨b, hb, hbit, rfl⟩ | ⟨j, b, hj, _, _, _, rfl⟩ := hp
  · obtain ⟨hbit, hne⟩ := (clearLowest_getLsbD_iff h b).mp hbit
    have hge : ¬ b < tz cur := fun hc => by simp [hlow b hc] at hbit
    have := offset_lt_offset (b := tz cur) (c := b) (by omega) hb
    omega
  · have := offset_lt hlt
    omega

theorem not_bit_of_zero {b : Nat} : (0 : Word).getLsbD b ≠ true := by simp

/-- Over words of zeros nothing is pending. -/
theorem pending_skip {item : Item} {a : List Word} {n w v : Nat} (hw : w < v) (hv : v < n)
    (hz : ∀ u, w < u → u < v → wordAt item a u = 0) (p : Nat) :
    Pending item a n w 0 p ↔ Pending item a n v (wordAt item a v) p := by
  constructor
  · rintro (⟨b, _, hbit, _⟩ | ⟨j, b, hj, hjn, hb, hbit, rfl⟩)
    · exact absurd hbit not_bit_of_zero
    · rcases Nat.lt_trichotomy j v with hlt | rfl | hgt
      · rw [hz j hj hlt] at hbit
        exact absurd hbit not_bit_of_zero
      · exact .inl ⟨b, hb, hbit, rfl⟩
      · exact .inr ⟨j, b, hgt, hjn, hb, hbit, rfl⟩
  · rintro (⟨b, hb, hbit, rfl⟩ | ⟨j, b, hj, hjn, hb, hbit, rfl⟩)
    · exact .inr ⟨v, b, hw, hv, hb, hbit, rfl⟩
    · exact .inr ⟨j, b, hw.trans hj, hjn, hb, hbit, rfl⟩

theorem not_pending_ended {item : Item} {a : List Word} {n w : Nat}
    (hz : ∀ u, w < u → u < n → wordAt item a u = 0) (p : Nat) : ¬ Pending item a n w 0 p := by
  rintro (⟨b, _, hbit, _⟩ | ⟨j, b, hj, hjn, _, hbit, _⟩)
  · exact not_bit_of_zero hbit
  · rw [hz j hj hjn] at hbit
    exact not_bit_of_zero hbit

/-- A decode step yields the least pending number and leaves the others, or nothing is pending and it ends (R151). -/
theorem decNext_pending (item : Item) (a : List Word) (n w : Nat) (cur : Word) :
    (∃ v w' cur', decNext item a n w cur = .value v w' cur' ∧
      (∀ p, Pending item a n w cur p ↔ p = v ∨ Pending item a n w' cur' p) ∧
      (∀ p, Pending item a n w' cur' p → v < p) ∧ pendingBound n w' cur' < pendingBound n w cur) ∨
    (∃ w' cur', decNext item a n w cur = .ended w' cur' ∧ ∀ p, ¬ Pending item a n w cur p) := by
  obtain ⟨hne, he⟩ | ⟨rfl, v, hw, hv, hz, hne, he⟩ | ⟨rfl, hz, he⟩ := decNext_cases item a n w cur
  · refine .inl ⟨_, _, _, he, pending_clearLowest hne, fun _ => lt_of_pending_clearLowest hne, ?_⟩
    have := popcount_clearLowest hne
    simp only [pendingBound]
    omega
  · refine .inl ⟨_, _, _, he, fun p => (pending_skip hw hv hz p).trans (pending_clearLowest hne p),
      fun _ => lt_of_pending_clearLowest hne, ?_⟩
    have := popcount_clearLowest hne
    have := popcount_le (wordAt item a v)
    simp only [pendingBound]
    omega
  · exact .inr ⟨_, _, he, not_pending_ended hz⟩

/-- With turns enough a decoder yields what is pending and nothing else. -/
theorem mem_decodeFrom_iff {item : Item} {a : List Word} {n fuel w : Nat} {cur : Word}
    (hf : pendingBound n w cur ≤ fuel) (p : Nat) :
    p ∈ decodeFrom item a n fuel w cur ↔ Pending item a n w cur p := by
  induction fuel generalizing w cur with
  | zero =>
    obtain ⟨_, _, _, _, _, _, hlt⟩ | ⟨_, _, _, hno⟩ := decNext_pending item a n w cur
    · omega
    · simp [decodeFrom, hno]
  | succ fuel ih =>
    obtain ⟨v, w', cur', he, hp, _, hlt⟩ | ⟨_, _, he, hno⟩ := decNext_pending item a n w cur
    · rw [decodeFrom, he, hp, ← ih (by omega), List.mem_cons]
    · simp [decodeFrom, he, hno]

theorem decodeFrom_pairwise {item : Item} {a : List Word} {n fuel w : Nat} {cur : Word}
    (hf : pendingBound n w cur ≤ fuel) : (decodeFrom item a n fuel w cur).Pairwise (· < ·) := by
  induction fuel generalizing w cur with
  | zero => exact List.Pairwise.nil
  | succ fuel ih =>
    obtain ⟨v, w', cur', he, _, hmin, hlt⟩ | ⟨_, _, he, _⟩ := decNext_pending item a n w cur
    · rw [decodeFrom, he]
      exact .cons (fun p hp => hmin p ((mem_decodeFrom_iff (by omega) p).mp hp)) (ih (by omega))
    · rw [decodeFrom, he]
      exact List.Pairwise.nil

theorem pendingBound_start (item : Item) (a : List Word) (n : Nat) :
    pendingBound n 0 (cursorWord item a n 0) ≤ 64 * n := by
  unfold pendingBound cursorWord
  split
  · have := popcount_le (wordAt item a 0)
    omega
  · have hzero : popcount (0 : Word) = 0 := popcount_zero
    omega

/-- A whole decode yields the numbers of the set lanes of the first `n` words (R150, R159). -/
theorem mem_decodeAll_iff (item : Item) (a : List Word) (n p : Nat) :
    p ∈ decodeAll item a n ↔
      ∃ j b, j < n ∧ b < 64 ∧ (wordAt item a j).getLsbD b = true ∧ p = 240 * j + offset b := by
  rw [decodeAll, mem_decodeFrom_iff (pendingBound_start item a n)]
  unfold cursorWord
  constructor
  · rintro (⟨b, hb, hbit, rfl⟩ | ⟨j, b, _, hj⟩)
    · split at hbit
      · exact ⟨0, b, ‹_›, hb, hbit, rfl⟩
      · exact absurd hbit not_bit_of_zero
    · exact ⟨j, b, hj⟩
  · rintro ⟨j, b, hj, hb, hbit, rfl⟩
    rcases Nat.eq_zero_or_pos j with rfl | hpos
    · exact .inl ⟨b, hb, by rwa [if_pos hj], rfl⟩
    · exact .inr ⟨j, b, hpos, hj, hb, hbit, rfl⟩

/-- And it yields them in ascending order. -/
theorem decodeAll_pairwise (item : Item) (a : List Word) (n : Nat) : (decodeAll item a n).Pairwise (· < ·) :=
  decodeFrom_pairwise (pendingBound_start item a n)

end Sys2Proof.Machine
end

section
/-! PROOFS. Crossing off leaves exactly the primes: the numbers of the lanes, and the ascending pass over SMALL
(spec/40_codec.md R101, R102, spec/43_sieve_build.md R175). -/

namespace Sys2Proof.Machine

/-! ## Lanes and primes -/

theorem gcd_thirty_of_dvd {d m : Nat} (hm : Nat.gcd m 30 = 1) (hd : d ∣ m) : Nat.gcd d 30 = 1 :=
  Nat.Coprime.coprime_dvd_left hd hm

theorem seven_le_of_prime {p : Nat} (hp : Nat.Prime p) (hg : Nat.gcd p 30 = 1) : 7 ≤ p := by
  have hsmall : ∀ q < 7, 2 ≤ q → Nat.gcd q 30 ≠ 1 := by decide
  by_contra hlt
  exact hsmall p (by omega) hp.two_le hg

theorem gcd_thirty_of_prime {p : Nat} (hp : Nat.Prime p) (h7 : 7 ≤ p) : Nat.gcd p 30 = 1 := by
  refine (Nat.Prime.coprime_iff_not_dvd hp).mpr fun hd => ?_
  rw [show 30 = 2 * 3 * 5 from rfl, hp.dvd_mul, hp.dvd_mul] at hd
  obtain (hd | hd) | hd := hd <;> have := Nat.le_of_dvd (by omega) hd <;> omega

/-- Every number coprime to 30 is the number of a lane (R101, R102). -/
theorem lane_of_gcd {m : Nat} (h : Nat.gcd m 30 = 1) : ∃ b < 64, m = 240 * (m / 240) + offset b := by
  obtain ⟨hne, _⟩ | ⟨_, b, hb, hm, _⟩ := codecMap_cases m
  · exact absurd h hne
  · exact ⟨b, hb, hm⟩

theorem lane_eq_one_iff {j b : Nat} (hb : b < 64) : 240 * j + offset b = 1 ↔ j = 0 ∧ b = 0 :=
  ⟨fun h => lane_number_inj (j := j) (k := 0) hb (by decide) h, fun ⟨hj, hb⟩ => by rw [hj, hb]; rfl⟩

/-- `m` is crossed off for `p`: a multiple of it by a multiplier from `p` on that is coprime to 30 (R175, R179). -/
def Crossed (p m : Nat) : Prop := ∃ x, p ≤ x ∧ Nat.gcd x 30 = 1 ∧ m = p * x

theorem Crossed.not_prime {p m : Nat} (h : Crossed p m) (hp : 7 ≤ p) : ¬ Nat.Prime m := by
  obtain ⟨x, hx, _, rfl⟩ := h
  exact Nat.not_prime_mul (by omega) (by omega)

theorem Crossed.dvd {p m : Nat} (h : Crossed p m) : p ∣ m := by
  obtain ⟨x, _, _, rfl⟩ := h
  exact Nat.dvd_mul_right p x

/-- A composite number that has a lane is crossed off for its least prime factor. -/
theorem crossed_minFac {m : Nat} (hg : Nat.gcd m 30 = 1) (hm : ¬ Nat.Prime m) (hpos : 0 < m) :
    Crossed m.minFac m := by
  have hmul : m.minFac * (m / m.minFac) = m := Nat.mul_div_cancel' m.minFac_dvd
  exact ⟨m / m.minFac, Nat.minFac_le_div hpos hm, gcd_thirty_of_dvd hg (Nat.div_dvd_of_dvd m.minFac_dvd),
    hmul.symm⟩

theorem seven_le_minFac {m : Nat} (hg : Nat.gcd m 30 = 1) (h1 : m ≠ 1) : 7 ≤ m.minFac :=
  seven_le_of_prime (Nat.minFac_prime h1) (gcd_thirty_of_dvd hg m.minFac_dvd)

/-- The set lanes of an array are the primes among its lane numbers (R42, R175). -/
def PrimeLanes (item : Item) (a : List Word) : Prop :=
  ∀ j b, j < a.length → b < 64 → ((wordAt item a j).getLsbD b = true ↔ Nat.Prime (240 * j + offset b))

/-! ## The small sieve -/

/-- `m` is not crossed off by the primes below `v`. -/
def Unsieved (v m : Nat) : Prop := m ≠ 1 ∧ (Nat.Prime m ∨ v ≤ m.minFac)

/-- SMALL when the ascending pass reads at `v`. -/
def SievedBelow (v : Nat) (a : List Word) : Prop :=
  ∀ j b, j < a.length → b < 64 → ((wordAt .small a j).getLsbD b = true ↔ Unsieved v (240 * j + offset b))

theorem unsieved_self {v : Nat} (h : 7 ≤ v) : Unsieved v v ↔ Nat.Prime v := by
  refine ⟨?_, fun hp => ⟨by omega, .inl hp⟩⟩
  rintro ⟨h1, hp | hle⟩
  · exact hp
  · have heq : v.minFac = v := Nat.le_antisymm (Nat.minFac_le (by omega)) hle
    exact heq ▸ Nat.minFac_prime h1

theorem unsieved_succ_of_not_prime {v : Nat} (hv : ¬ Nat.Prime v) (m : Nat) : Unsieved (v + 1) m ↔ Unsieved v m := by
  refine and_congr_right fun h1 => or_congr_right ⟨fun h => by omega, fun h => ?_⟩
  exact Nat.lt_of_le_of_ne h fun heq => hv (heq ▸ Nat.minFac_prime h1)

theorem unsieved_succ_of_prime {v m : Nat} (h7 : 7 ≤ v) (hg : Nat.gcd m 30 = 1) (hpos : 0 < m) :
    Unsieved (v + 1) m ↔ Unsieved v m ∧ ¬ Crossed v m := by
  constructor
  · rintro ⟨h1, hp | hlt⟩
    · exact ⟨⟨h1, .inl hp⟩, fun hc => hc.not_prime h7 hp⟩
    · exact ⟨⟨h1, .inr (by omega)⟩, fun hc => by have := Nat.minFac_le_of_dvd (by omega) hc.dvd; omega⟩
  · rintro ⟨⟨h1, hp | hle⟩, hnc⟩
    · exact ⟨h1, .inl hp⟩
    · by_cases hp : Nat.Prime m
      · exact ⟨h1, .inl hp⟩
      · exact ⟨h1, .inr (Nat.lt_of_le_of_ne hle fun heq => hnc (heq ▸ crossed_minFac hg hp hpos))⟩

/-- Every composite number below `v²` has been crossed off. -/
theorem unsieved_iff_prime {v m : Nat} (h : m < v * v) (hpos : 0 < m) : Unsieved v m ↔ Nat.Prime m := by
  refine ⟨?_, fun hp => ⟨hp.ne_one, .inl hp⟩⟩
  rintro ⟨_, hp | hle⟩
  · exact hp
  · by_contra hp
    have hsq := Nat.minFac_sq_le_self hpos hp
    have := Nat.mul_le_mul hle hle
    rw [sq] at hsq
    omega

theorem lane_pos (j : Nat) {b : Nat} (hb : b < 64) : 0 < 240 * j + offset b := by
  refine Nat.pos_of_ne_zero fun h => ?_
  have hg := lane_coprime j hb
  rw [h] at hg
  exact absurd hg (by decide)

theorem sievedBelow_fresh (n : Nat) : SievedBelow 7 (freshWords n true) := by
  intro j b hj hb
  rw [freshWords_length] at hj
  rw [freshWords_lane .small true hj hb, Unsieved, Ne, lane_eq_one_iff hb]
  have hmin := seven_le_minFac (lane_coprime j hb)
  rw [Ne, lane_eq_one_iff hb] at hmin
  simp only [Bool.true_and, Bool.not_eq_true', decide_eq_false_iff_not]
  exact ⟨fun h => ⟨h, .inr (hmin h)⟩, fun h => h.1⟩

/-- The pass finds the bit of `v` set exactly when `v` is prime (R175). -/
theorem SievedBelow.codecGet_iff {v : Nat} {a : List Word} (h : SievedBelow v a) (h7 : 7 ≤ v)
    (hv : v < 240 * a.length) : codecGet .small a v = true ↔ Nat.Prime v := by
  by_cases hg : Nat.gcd v 30 = 1
  · obtain ⟨b, hb, he⟩ := lane_of_gcd hg
    have hlane := h (v / 240) b (by omega) hb
    rw [← codecGet_lane _ _ _ hb, ← he] at hlane
    exact hlane.trans (unsieved_self h7)
  · rw [codecGet_of_not_coprime _ _ hg]
    exact ⟨nofun, fun hp => absurd (gcd_thirty_of_prime hp h7) hg⟩

/-- Crossing off from the square of a prime clears the multiples that are crossed off for it, within the array. -/
theorem crossOff_square_lane (item : Item) {p : Nat} {a : List Word} (hp : Nat.Prime p) (h7 : 7 ≤ p) {j b : Nat}
    (hj : j < a.length) (hb : b < 64) :
    (wordAt item (crossOff (240 * a.length) p (240 * a.length) (p * p) (wheelInit p (p * p)) a).1 j).getLsbD b = true ↔
      (wordAt item a j).getLsbD b = true ∧ ¬ Crossed p (240 * j + offset b) := by
  obtain ⟨_, hlanes, _⟩ := crossOff_spec (240 * a.length) p 0 (by omega) (240 * a.length) (p * p) p a
    (gcd_thirty_of_prime hp h7) (by omega) (by omega)
  have hlt : 240 * j + offset b < 240 * a.length := by have := offset_lt hb; omega
  rw [wheelInit_square (by omega), hlanes item j b hj hb]
  simp only [hlt, true_and, Nat.zero_add, Crossed]

theorem SievedBelow.succ {v : Nat} {a : List Word} (h : SievedBelow v a) (h7 : 7 ≤ v) (hv : v < 240 * a.length) :
    SievedBelow (v + 1) (if codecGet .small a v then
      (crossOff (240 * a.length) v (240 * a.length) (v * v) (wheelInit v (v * v)) a).1 else a) := by
  by_cases hp : Nat.Prime v
  · rw [if_pos ((h.codecGet_iff h7 hv).mpr hp)]
    intro j b hj hb
    rw [crossOff_length] at hj
    rw [crossOff_square_lane .small hp h7 hj hb, h j b hj hb,
      unsieved_succ_of_prime h7 (lane_coprime j hb) (lane_pos j hb)]
  · rw [if_neg (mt (h.codecGet_iff h7 hv).mp hp)]
    intro j b hj hb
    rw [h j b hj hb, unsieved_succ_of_not_prime hp]

theorem SievedBelow.primeLanes {v : Nat} {a : List Word} (h : SievedBelow v a) (hv : 240 * a.length ≤ v * v) :
    PrimeLanes .small a := by
  intro j b hj hb
  have := offset_lt hb
  rw [h j b hj hb, unsieved_iff_prime (by omega) (lane_pos j hb)]

theorem smallPass_primeLanes {fuel v : Nat} {a : List Word} (h : SievedBelow v a) (h7 : 7 ≤ v)
    (hf : 240 * a.length ≤ v + fuel) : PrimeLanes .small (smallPass (240 * a.length) fuel v a) := by
  induction fuel generalizing v a with
  | zero => exact h.primeLanes (hf.trans (Nat.le_mul_self v))
  | succ fuel ih =>
    unfold smallPass
    split
    · have hv : v < 240 * a.length := (Nat.le_mul_self v).trans_lt ‹_›
      have hnext := h.succ h7 hv
      generalize hb : (if codecGet .small a v then _ else a) = a' at hnext ⊢
      have hlen : a'.length = a.length := by
        rw [← hb]
        split
        · exact crossOff_length ..
        · rfl
      rw [← hlen]
      exact ih hnext (by omega) (by omega)
    · exact h.primeLanes (by omega)

/-- The small sieve is exact (R175). -/
theorem smallSieve_primeLanes (n : Nat) : PrimeLanes .small (smallSieve n) := by
  have h := smallPass_primeLanes (fuel := 240 * n) (sievedBelow_fresh n) (Nat.le_refl 7)
    (by rw [freshWords_length]; omega)
  rwa [freshWords_length] at h

end Sys2Proof.Machine
end

section
/-! PROOFS. The segments of a build: the tracked primes are in step with each segment's base, and so the words it
appends are exact (spec/43_sieve_build.md R176-R181, R185); the store stays exact over all steps (spec/10_state.md
R42). -/

namespace Sys2Proof.Machine

/-! ## The tracked primes -/

/-- `t` stands ready to cross off from `lo` on: its next index is the first of the multiples that are crossed off for
its prime from `lo` on, its wheel index that multiple's. -/
def TrackedAt (lo : Nat) (t : Tracked) : Prop :=
  ∃ k, t.p ≤ k ∧ Nat.gcd k 30 = 1 ∧ lo + t.nxt = t.p * k ∧ t.widx = wheelPos k ∧
    ∀ x, t.p ≤ x → x < k → Nat.gcd x 30 = 1 → t.p * x < lo

/-- A prime enters at its square (R178). -/
theorem trackedAt_square {lo p : Nat} (hp : Nat.Prime p) (h7 : 7 ≤ p) (hlo : lo ≤ p * p) :
    TrackedAt lo (Tracked.mk p (p * p - lo) (wheelInit p (p * p))) :=
  ⟨p, Nat.le_refl p, gcd_thirty_of_prime hp h7, Nat.add_sub_cancel' hlo, wheelInit_square (by omega),
    fun _ hge hlt => absurd hlt (Nat.not_lt.mpr hge)⟩

theorem crossTracked_length (len : Nat) (t : Tracked) (scr : List Word) :
    (crossTracked len t scr).1.length = scr.length := crossOff_length ..

/-- Crossing off for one tracked prime clears what is crossed off for it in the segment from `lo` on, and leaves the
prime ready for the next segment (R179). -/
theorem crossTracked_spec {lo : Nat} {t : Tracked} {scr : List Word} (ht : TrackedAt lo t) (hpos : 0 < t.p) :
    (∀ j b, j < scr.length → b < 64 →
      ((wordAt .scr (crossTracked (240 * scr.length) t scr).1 j).getLsbD b = true ↔
        (wordAt .scr scr j).getLsbD b = true ∧ ¬ Crossed t.p (lo + (240 * j + offset b)))) ∧
    TrackedAt (lo + 240 * scr.length) (crossTracked (240 * scr.length) t scr).2 := by
  obtain ⟨k, hpk, hk, hn, hw, hbelow⟩ := ht
  obtain ⟨_, hlanes, m, hkm, hm, hnm, hwm, hge, hbetween⟩ :=
    crossOff_spec (240 * scr.length) t.p lo hpos (240 * scr.length) t.nxt k scr hk hn (by omega)
  rw [← hw] at hlanes hnm hwm hge
  refine ⟨fun j b hj hb => ?_, m, hpk.trans hkm, hm, ?_, hwm, fun x hpx hxm hx => ?_⟩
  · have hlt : 240 * j + offset b < 240 * scr.length := by have := offset_lt hb; omega
    refine (hlanes .scr j b hj hb).trans (and_congr_right fun _ => not_congr ?_)
    constructor
    · rintro ⟨_, x, hx, hgx, he⟩
      exact ⟨x, hpk.trans hx, hgx, he⟩
    · rintro ⟨x, hx, hgx, he⟩
      refine ⟨hlt, x, ?_, hgx, he⟩
      by_contra hxk
      have := hbelow x hx (by omega) hgx
      omega
  · simp only [crossTracked]
    omega
  · rcases Nat.lt_or_ge x k with hxk | hxk
    · exact (hbelow x hpx hxk hx).trans_le (Nat.le_add_right ..)
    · exact hbetween x hxk hxm hx

/-- Crossing off for the whole table (R179). -/
theorem crossAll_spec {lo : Nat} {ts : List Tracked} {scr : List Word}
    (ht : ∀ t ∈ ts, 0 < t.p ∧ TrackedAt lo t) :
    (∀ j b, j < scr.length → b < 64 →
      ((wordAt .scr (crossAll (240 * scr.length) ts scr).1 j).getLsbD b = true ↔
        (wordAt .scr scr j).getLsbD b = true ∧ ∀ p ∈ ts.map Tracked.p, ¬ Crossed p (lo + (240 * j + offset b)))) ∧
    (crossAll (240 * scr.length) ts scr).2.map Tracked.p = ts.map Tracked.p ∧
    ∀ t ∈ (crossAll (240 * scr.length) ts scr).2, TrackedAt (lo + 240 * scr.length) t := by
  induction ts generalizing scr with
  | nil => simp [crossAll]
  | cons t ts ih =>
    rw [List.forall_mem_cons] at ht
    obtain ⟨⟨hpos, ht⟩, hts⟩ := ht
    obtain ⟨hlane, hnext⟩ := crossTracked_spec (scr := scr) ht hpos
    have hlen := crossTracked_length (240 * scr.length) t scr
    obtain ⟨hlanes, hps, hnexts⟩ := ih (scr := (crossTracked (240 * scr.length) t scr).1) hts
    rw [hlen] at hlanes hps hnexts
    simp only [crossAll, List.map_cons, List.forall_mem_cons]
    refine ⟨fun j b hj hb => ?_, ?_, hnext, hnexts⟩
    · rw [hlanes j b hj hb, hlane j b hj hb, and_assoc]
    · rw [hps]; rfl

/-! ## The table of tracked primes -/

/-- SP and TRACK between two steps of a build: what is left of SP has its squares from `hi` on, and the table is ready
to cross off from `lo` on. -/
structure TrackTable (lo hi : Nat) (sp : List Nat) (track : List Tracked) : Prop where
  sorted : sp.Pairwise (· < ·)
  waiting : ∀ p ∈ sp, Nat.Prime p ∧ 7 ≤ p ∧ hi ≤ p * p
  primes : ∀ p ∈ track.map Tracked.p, Nat.Prime p ∧ 7 ≤ p
  ready : ∀ t ∈ track, TrackedAt lo t

/-- The primes of SP and TRACK together; pulling moves them but forgets none. -/
def Known (sp : List Nat) (track : List Tracked) (p : Nat) : Prop := p ∈ sp ∨ p ∈ track.map Tracked.p

theorem TrackTable.pull {lo hi : Nat} {sp : List Nat} {track : List Tracked} (h : TrackTable lo lo sp track) :
    TrackTable lo hi (pullPrimes lo hi sp track).1 (pullPrimes lo hi sp track).2 ∧
    ∀ p, Known sp track p → Known (pullPrimes lo hi sp track).1 (pullPrimes lo hi sp track).2 p := by
  induction sp generalizing track with
  | nil => exact ⟨⟨.nil, nofun, h.primes, h.ready⟩, fun _ hp => hp⟩
  | cons q sp ih =>
    obtain ⟨hlt, hsorted⟩ := List.pairwise_cons.mp h.sorted
    obtain ⟨⟨hq, hq7, hqlo⟩, hwaiting⟩ := List.forall_mem_cons.mp h.waiting
    unfold pullPrimes
    split
    · obtain ⟨htable, hknown⟩ := ih (track := track ++ [Tracked.mk q (q * q - lo) (wheelInit q (q * q))])
        { sorted := hsorted
          waiting := hwaiting
          primes := by
            simp only [List.map_append, List.forall_mem_append]
            exact ⟨h.primes, by simpa using ⟨hq, hq7⟩⟩
          ready := List.forall_mem_append.mpr ⟨h.ready, by simpa using trackedAt_square hq hq7 hqlo⟩ }
      refine ⟨htable, fun p hp => hknown p ?_⟩
      simp only [Known, List.mem_cons, List.map_append, List.mem_append, List.map_cons, List.map_nil,
        List.not_mem_nil, or_false] at hp ⊢
      tauto
    · refine ⟨⟨h.sorted, List.forall_mem_cons.mpr ⟨⟨hq, hq7, by omega⟩, fun p hp => ?_⟩, h.primes, h.ready⟩,
        fun _ hp => hp⟩
      obtain ⟨hprime, hp7, _⟩ := hwaiting p hp
      have hsq : q * q ≤ p * p := Nat.mul_self_le_mul_self (hlt p hp).le
      exact ⟨hprime, hp7, by omega⟩

/-- When every prime whose square lies below `m` is known and the segment reaches beyond `m`, not being crossed off by
the table is being prime. -/
theorem TrackTable.prime_iff {lo hi m : Nat} {sp : List Nat} {track : List Tracked} (h : TrackTable lo hi sp track)
    (hg : Nat.gcd m 30 = 1) (hm : m < hi)
    (hknown : ∀ p, Nat.Prime p → 7 ≤ p → p * p ≤ m → Known sp track p) :
    (m ≠ 1 ∧ ∀ p ∈ track.map Tracked.p, ¬ Crossed p m) ↔ Nat.Prime m := by
  have hpos : 0 < m := Nat.pos_of_ne_zero fun h0 => absurd (h0 ▸ hg) (by decide)
  constructor
  · rintro ⟨h1, hnc⟩
    by_contra hp
    have hsq := Nat.minFac_sq_le_self hpos hp
    rw [sq] at hsq
    obtain hsp | htrack := hknown m.minFac (Nat.minFac_prime h1) (seven_le_minFac hg h1) hsq
    · have := (h.waiting _ hsp).2.2
      omega
    · exact hnc _ htrack (crossed_minFac hg hp hpos)
  · exact fun hp => ⟨hp.ne_one, fun p hpt hc => hc.not_prime (h.primes p hpt).2 hp⟩

/-! ## Segments -/

theorem wordAt_append_left {item : Item} {a c : List Word} {j : Nat} (h : j < a.length) :
    wordAt item (a ++ c) j = wordAt item a j := by
  rw [wordAt_lt h, wordAt_lt (by rw [List.length_append]; omega), List.getElem_append_left h]

theorem wordAt_append_right {item : Item} {a c : List Word} {j : Nat} (h : j < c.length) :
    wordAt item (a ++ c) (a.length + j) = wordAt item c j := by
  rw [wordAt_lt h, wordAt_lt (by rw [List.length_append]; omega), List.getElem_append_right (by omega)]
  simp

theorem wordAt_take {item item' : Item} {a : List Word} {j n : Nat} (h : j < (a.take n).length) :
    wordAt item (a.take n) j = wordAt item' a j := by
  rw [wordAt_lt h, wordAt_lt (h.trans_le (List.length_take_le' n a)), List.getElem_take]

/-- SP and TRACK before segment `seg` of a build of `w` words. -/
structure BuildTable (w seg : Nat) (sp : List Nat) (s : State) : Prop where
  table : TrackTable (seg * segmentNumbers s.cfg) (seg * segmentNumbers s.cfg) sp s.track
  known : ∀ p, Nat.Prime p → 7 ≤ p → p * p < 240 * w → Known sp s.track p

/-- STORE before segment `seg`: the words of the segments before it, and they are exact. -/
structure StorePrefix (w seg : Nat) (s : State) : Prop where
  length : s.store.length = min (seg * s.cfg.segmentLen) w
  exact : PrimeLanes .store s.store

/-- A segment leaves the table ready for the next one, and its scratch is exact below the store's end (R178-R180). -/
theorem BuildTable.segment {w seg : Nat} {sp : List Nat} {s : State} (h : BuildTable w seg sp s) :
    BuildTable w (seg + 1) (buildSegment w seg sp s).1 (buildSegment w seg sp s).2 ∧
    ∀ j b, j < s.cfg.segmentLen → seg * s.cfg.segmentLen + j < w → b < 64 →
      ((wordAt .scr (buildSegment w seg sp s).2.scr j).getLsbD b = true ↔
        Nat.Prime (240 * (seg * s.cfg.segmentLen + j) + offset b)) := by
  have hfresh := freshWords_length s.cfg.segmentLen (seg == 0)
  obtain ⟨htable, hknown⟩ := h.table.pull (hi := seg * segmentNumbers s.cfg + segmentNumbers s.cfg)
  have hready : ∀ t ∈ (pullPrimes (seg * segmentNumbers s.cfg)
      (seg * segmentNumbers s.cfg + segmentNumbers s.cfg) sp s.track).2,
      0 < t.p ∧ TrackedAt (seg * segmentNumbers s.cfg) t := fun t ht =>
    ⟨(htable.primes t.p (List.mem_map_of_mem ht)).1.pos, htable.ready t ht⟩
  obtain ⟨hlanes, hps, hnext⟩ := crossAll_spec (scr := freshWords s.cfg.segmentLen (seg == 0)) hready
  rw [hfresh] at hlanes hps hnext
  have hbase : seg * segmentNumbers s.cfg + segmentNumbers s.cfg = (seg + 1) * segmentNumbers s.cfg :=
    (Nat.succ_mul ..).symm
  refine ⟨⟨?_, fun p hp hp7 hpw => ?_⟩, fun j b hj hjw hb => ?_⟩
  · exact
      { sorted := htable.sorted
        waiting := hbase ▸ htable.waiting
        primes := fun p hp => htable.primes p (hps ▸ hp)
        ready := fun t ht => hbase ▸ hnext t ht }
  · exact (hknown p (h.known p hp hp7 hpw)).imp_right fun hmem => hps.symm ▸ hmem
  · have hm : seg * segmentNumbers s.cfg + (240 * j + offset b) =
        240 * (seg * s.cfg.segmentLen + j) + offset b := by rw [segmentNumbers]; ring
    have hoff := offset_lt hb
    have hlt : 240 * (seg * s.cfg.segmentLen + j) + offset b <
        seg * segmentNumbers s.cfg + segmentNumbers s.cfg := by rw [← hm, segmentNumbers]; omega
    have hone : (seg == 0 && decide (j = 0 ∧ b = 0)) = true ↔
        240 * (seg * s.cfg.segmentLen + j) + offset b = 1 := by
      rw [lane_eq_one_iff hb]
      simp only [Bool.and_eq_true, beq_iff_eq, decide_eq_true_eq, Nat.add_eq_zero_iff, Nat.mul_eq_zero]
      have : s.cfg.segmentLen ≠ 0 := by omega
      tauto
    refine (hlanes j b hj hb).trans ?_
    rw [freshWords_lane .scr _ hj hb, hm, Bool.not_eq_true', ← Bool.not_eq_true, hone]
    exact htable.prime_iff (lane_coprime _ hb) hlt fun p hp hp7 hpm =>
      hknown p (h.known p hp hp7 (by omega))

/-- The words that a segment appends are exact (R181). -/
theorem StorePrefix.segment {w seg : Nat} {sp : List Nat} {s : State} (h : StorePrefix w seg s)
    (ht : BuildTable w seg sp s) : StorePrefix w (seg + 1) (buildSegment w seg sp s).2 := by
  obtain ⟨_, hscr⟩ := ht.segment
  have hstore : (buildSegment w seg sp s).2.store = s.store ++ (buildSegment w seg sp s).2.scr.take
      (min s.cfg.segmentLen (w - seg * s.cfg.segmentLen)) := rfl
  have htake : ((buildSegment w seg sp s).2.scr.take
      (min s.cfg.segmentLen (w - seg * s.cfg.segmentLen))).length =
      min s.cfg.segmentLen (w - seg * s.cfg.segmentLen) := by
    simp [buildSegment, crossAll_scr_length, freshWords_length]
  have hlen := h.length
  refine ⟨?_, fun j b hj hb => ?_⟩
  · change _ = min ((seg + 1) * s.cfg.segmentLen) w
    rw [hstore, List.length_append, hlen, htake, Nat.succ_mul]
    omega
  · rw [hstore, List.length_append, htake] at hj
    rw [hstore]
    rcases Nat.lt_or_ge j s.store.length with hold | hnew
    · rw [wordAt_append_left hold]
      exact h.exact j b hold hb
    · obtain ⟨i, rfl⟩ := Nat.exists_eq_add_of_le hnew
      have hi : i < min s.cfg.segmentLen (w - seg * s.cfg.segmentLen) := by omega
      have hbase : s.store.length = seg * s.cfg.segmentLen := by omega
      rw [wordAt_append_right (by rwa [htake]), wordAt_take (item' := .scr) (by rwa [htake]), hbase]
      exact hscr i b (by omega) (by omega) hb

theorem buildSegments_storePrefix {w count seg : Nat} {sp : List Nat} {s : State} (h : StorePrefix w seg s)
    (ht : BuildTable w seg sp s) : StorePrefix w (seg + count) (buildSegments w count seg sp s) := by
  induction count generalizing seg sp s with
  | zero => exact h
  | succ count ih =>
    rw [buildSegments, Nat.add_comm count, ← Nat.add_assoc]
    exact ih (h.segment ht) ht.segment.1

/-! ## A whole build -/

/-- SP holds the primes from 7 to below the end of SMALL (R176). -/
theorem mem_smallPrimes_iff {w p : Nat} {s : State} (hs : s.small = smallSieve (smallWords w)) :
    p ∈ smallPrimes w s ↔ Nat.Prime p ∧ 7 ≤ p ∧ p < 240 * smallWords w := by
  have hexact := smallSieve_primeLanes (smallWords w)
  rw [PrimeLanes, smallSieve_length] at hexact
  rw [smallPrimes, mem_decodeAll_iff, hs]
  constructor
  · rintro ⟨j, b, hj, hb, hbit, rfl⟩
    have hp := (hexact j b hj hb).mp hbit
    have := offset_lt hb
    exact ⟨hp, seven_le_of_prime hp (lane_coprime j hb), by omega⟩
  · rintro ⟨hp, hp7, hlt⟩
    obtain ⟨b, hb, he⟩ := lane_of_gcd (gcd_thirty_of_prime hp hp7)
    have hj : p / 240 < smallWords w := by omega
    exact ⟨p / 240, b, hj, hb, (hexact _ b hj hb).mpr (he ▸ hp), he⟩

/-- SMALL reaches every prime whose square lies below the store's end (R174). -/
theorem lt_smallWords {w p : Nat} (h : p * p < 240 * w) : p < 240 * smallWords w := by
  have hle : p ≤ isqrt (240 * w) := by
    rw [isqrt_eq_sqrt, Nat.le_sqrt]
    exact h.le
  unfold smallWords
  omega

theorem buildTable_start {w : Nat} {s : State} (hs : s.small = smallSieve (smallWords w)) (htrack : s.track = []) :
    BuildTable w 0 (smallPrimes w s) s where
  table :=
    { sorted := decodeAll_pairwise _ _ _
      waiting := fun p hp => by
        obtain ⟨hp, hp7, _⟩ := (mem_smallPrimes_iff hs).mp hp
        exact ⟨hp, hp7, by omega⟩
      primes := by rw [htrack]; nofun
      ready := by rw [htrack]; nofun }
  known p hp hp7 hpw := .inl ((mem_smallPrimes_iff hs).mpr ⟨hp, hp7, lt_smallWords hpw⟩)

/-- What a construction leaves in STORE is exact, whatever SEGMENT_LEN is (R185). -/
theorem constructStore_primeLanes (w : Nat) (s : State) : PrimeLanes .store (constructStore w s).store := by
  have hstart : StorePrefix w 0 (buildSmall w (startBuild s)) :=
    ⟨by simp [buildSmall, startBuild], fun j _ hj => absurd hj (Nat.not_lt_zero j)⟩
  exact (buildSegments_storePrefix hstart (buildTable_start rfl rfl)).exact

/-! ## Every step -/

theorem StoreExact.completion {s t : State} {i : Instr} (h : StoreExact s) (hc : Completion s i t)
    (ht : Inv t) : StoreExact t := by
  cases hc with
  | built _ w =>
    have hlen : (constructStore w s).store.length = (word w).toNat := ((memory_wf_iff _).mp ht.memory).2.1
    exact fun j b hj hb => constructStore_primeLanes w s j b (hlen ▸ hj) hb
  | cleared => exact fun j _ hj => absurd hj (Nat.not_lt_zero j)
  | _ => exact h

theorem InvExact.stepKind {s t : State} (h : InvExact s) (hk : StepKind s t) : InvExact t := by
  obtain ⟨hinv, hexact⟩ := h
  have ht := hinv.stepKind hk
  refine ⟨ht, ?_⟩
  cases hk with
  | completes i _ hc => exact hexact.completion hc ht
  | illegal => exact hexact.of_invPart_eq rfl
  | reset rest => exact storeExact_afterReset _ _ _ _
  | write =>
    exact hexact.of_invPart_eq (invPart_eq_of_enginePart_eq ((enginePart_writeReg _ _ _).trans (enginePart_tick s)))
  | hostOnly => exact hexact.of_invPart_eq (invPart_eq_of_enginePart_eq (enginePart_tick s))

/-- Settles O60: only a build writes a store with words in it, and what it writes is exact. -/
theorem everyStepKeepsTheStoreExact : Obligations.EveryStepKeepsTheStoreExact :=
  fun _ _ h hs => h.stepKind (step_kind hs)

end Sys2Proof.Machine
end

section
/-! PROOFS. Which commands write which items, and which they read (spec/10_state.md R22, R24, R29-R33, R36, R37,
spec/42_decoder.md R158). -/

namespace Sys2Proof.Machine

/-! ## Writers -/

/-- A build writes the construction's arrays, the facade registers and its own counter of draws, and completes
(R172-R183). -/
theorem built_frame (w : Nat) (s : State) :
    ∃ limit nwords store pfx scr small track ntrack draws,
      publishStore w (constructStore w s) = finish { s with
        limit := limit, nwords := nwords, ready := true, store := store, pfx := pfx, scr := scr, small := small
        track := track, ntrack := ntrack, draws := draws } := by
  obtain ⟨scr, track, ntrack, store, he, _⟩ :=
    buildSegments_shape w (segmentCount s.cfg w) 0 (smallPrimes w (buildSmall w (startBuild s)))
      (buildSmall w (startBuild s)) (by simp [buildSmall, startBuild])
  rw [constructStore, he]
  exact ⟨_, _, _, _, _, _, _, _, _, rfl⟩

/-- Which items a completion leaves, by command (R31-R33, R36, R189, R285). -/
theorem Completion.writers {s t : State} {i : Instr} (h : Completion s i t) :
    (i ∉ [.buildLimit, .buildNprimes, .clear] →
      t.store = s.store ∧ t.pfx = s.pfx ∧ t.ready = s.ready ∧ t.limit = s.limit ∧ t.nwords = s.nwords) ∧
    (i ∉ [.buildLimit, .buildNprimes, .scrFill, .scrSetOn, .scrSetOff, .scrWriteWord] → t.scr = s.scr) ∧
    (i ∉ [.buildLimit, .buildNprimes] → t.small = s.small ∧ t.track = s.track ∧ t.ntrack = s.ntrack) ∧
    (i ≠ .wheelNew → t.wv = s.wv ∧ t.wnum = s.wnum) ∧
    (i ∉ [.wheelNew, .wheelNext] → t.widx = s.widx) := by
  cases h with
  | scratchWritten _ _ hi =>
    exact ⟨fun _ => ⟨rfl, rfl, rfl, rfl, rfl⟩,
      fun hn => (hn (List.mem_append_right [Instr.buildLimit, Instr.buildNprimes] hi)).elim,
      fun _ => ⟨rfl, rfl, rfl⟩, fun _ => ⟨rfl, rfl⟩, fun _ => rfl⟩
  | wheelStarted =>
    exact ⟨fun _ => ⟨rfl, rfl, rfl, rfl, rfl⟩, fun _ => rfl, fun _ => ⟨rfl, rfl, rfl⟩,
      fun hn => absurd rfl hn, fun hn => absurd (by decide) hn⟩
  | wheelTurned =>
    exact ⟨fun _ => ⟨rfl, rfl, rfl, rfl, rfl⟩, fun _ => rfl, fun _ => ⟨rfl, rfl, rfl⟩,
      fun _ => ⟨rfl, rfl⟩, fun hn => absurd (by decide) hn⟩
  | built _ w hi =>
    obtain ⟨_, _, _, _, _, _, _, _, _, he⟩ := built_frame w s
    rw [he]
    exact ⟨fun hn => (hn (List.mem_append_left [Instr.clear] hi)).elim,
      fun hn => (hn (List.mem_append_left [Instr.scrFill, Instr.scrSetOn, Instr.scrSetOff, Instr.scrWriteWord]
        hi)).elim,
      fun hn => absurd hi hn, fun _ => ⟨rfl, rfl⟩, fun _ => rfl⟩
  | cleared =>
    exact ⟨fun hn => absurd (by decide) hn, fun _ => rfl, fun _ => ⟨rfl, rfl, rfl⟩, fun _ => ⟨rfl, rfl⟩,
      fun _ => rfl⟩
  | _ =>
    exact ⟨fun _ => ⟨rfl, rfl, rfl, rfl, rfl⟩, fun _ => rfl, fun _ => ⟨rfl, rfl, rfl⟩, fun _ => ⟨rfl, rfl⟩,
      fun _ => rfl⟩

/-- Settles O54, by the endings of a completion. -/
theorem arraysAndWheelHaveOnlyTheirWriters : Obligations.ArraysAndWheelHaveOnlyTheirWriters :=
  fun _ _ _ h => (exec_completion h).writers

/-- A completion leaves the host's side (R22, R29, R39, R240). -/
theorem Completion.hostSide {s t : State} {i : Instr} (h : Completion s i t) :
    t.arg0 = s.arg0 ∧ t.arg1 = s.arg1 ∧ t.lcmd = s.lcmd ∧ t.larg0 = s.larg0 ∧ t.larg1 = s.larg1 ∧
    t.ovr = s.ovr ∧ t.fatal = s.fatal ∧ t.cfg = s.cfg ∧ t.host = s.host ∧ t.delay = s.delay ∧
    t.reads = s.reads ∧ t.busy = false := by
  cases h with
  | built _ w =>
    obtain ⟨_, _, _, _, _, _, _, _, _, he⟩ := built_frame w s
    rw [he]
    exact ⟨rfl, rfl, rfl, rfl, rfl, rfl, rfl, rfl, rfl, rfl, rfl, rfl⟩
  | _ => exact ⟨rfl, rfl, rfl, rfl, rfl, rfl, rfl, rfl, rfl, rfl, rfl, rfl⟩

/-- The commands whose rule names no result (R24). -/
def resultless : List Instr :=
  [.nop, .scrFill, .scrSetOn, .scrSetOff, .scrWriteWord, .wheelNew, .iterStart, .iterSeek, .buildLimit, .buildNprimes,
    .clear]

theorem not_answering_of_resultless {i : Instr} (h : i ∈ resultless) :
    i ∉ [.codecMap, .storeGet, .scrGet, .scrReadWord, .qLimit, .qNumPrimes, .isPrime, .nthPrime, .rankFind,
      .storeWord] ∧ i ∉ [.isPrime, .nthPrime, .rankFind] := by
  revert h; cases i <;> decide

/-- A command whose rule names no result leaves RES0 and RES1, whether it succeeds or not (R24). -/
theorem Completion.no_result {s t : State} {i : Instr} (h : Completion s i t) (hi : i ∈ resultless) :
    t.res0 = s.res0 ∧ t.res1 = s.res1 ∧ t.rv = false := by
  cases h with
  | answered _ _ _ ha => exact absurd ha (not_answering_of_resultless hi).1
  | indeterminate _ ha => exact absurd ha (not_answering_of_resultless hi).2
  | wheelTurned | implicitPrime | decodedValue | decodedEnd => exact absurd hi (by decide)
  | built _ w =>
    obtain ⟨_, _, _, _, _, _, _, _, _, he⟩ := built_frame w s
    rw [he]
    exact ⟨rfl, rfl, rfl⟩
  | _ => exact ⟨rfl, rfl, rfl⟩

/-- Settles O55, by the endings of a completion. -/
theorem commandsLeaveTheHostSide : Obligations.CommandsLeaveTheHostSide := by
  intro i s t h
  have hc := exec_completion h
  obtain ⟨h1, h2, h3, h4, h5, h6, h7, h8, h9, h10, h11, h12⟩ := hc.hostSide
  exact ⟨h1, h2, h3, h4, h5, h6, h7, h8, h9, h10, h11, h12, hc.no_result⟩

/-! ## The cursor -/

/-- Only the iterator commands and CLEAR write the cursor (R37, R158). -/
theorem Completion.cursor_frame {s t : State} {i : Instr} (h : Completion s i t)
    (hi : i ∉ [.iterStart, .iterSeek, .iterNext, .clear]) :
    t.itv = s.itv ∧ t.itph = s.itph ∧ t.itw = s.itw ∧ t.itcur = s.itcur := by
  cases h with
  | cursorPlaced _ _ _ hp => exact (hi (List.mem_append_left [Instr.iterNext, Instr.clear] hp)).elim
  | implicitPrime | decodedValue | decodedEnd | cleared => exact absurd (by decide) hi
  | built _ w =>
    obtain ⟨_, _, _, _, _, _, _, _, _, he⟩ := built_frame w s
    rw [he]
    exact ⟨rfl, rfl, rfl, rfl⟩
  | _ => exact ⟨rfl, rfl, rfl, rfl⟩

/-- A valid cursor keeps a build out, and CLEAR ends it, so the store below it stays (R158). -/
theorem Completion.store_of_itv {s t : State} {i : Instr} (h : Completion s i t) (hs : Inv s) (hv : s.itv = true)
    (htv : t.itv = true) : t.store = s.store ∧ t.nwords = s.nwords ∧ t.limit = s.limit := by
  cases h with
  | built _ _ _ hr => exact absurd (hr.symm.trans (hs.itvReady hv)) Bool.false_ne_true
  | cleared => exact absurd htv Bool.false_ne_true
  | _ => exact ⟨rfl, rfl, rfl⟩

/-- Settles O36, by the endings of a completion. -/
theorem cursorHasOnlyItsWriters : Obligations.CursorHasOnlyItsWriters :=
  fun _ _ _ h => ⟨(exec_completion h).cursor_frame, (exec_completion h).store_of_itv⟩

/-! ## Readers -/

/-- `s` with its operands changed, in the host's registers (`f0`, `f1`) and in the latch (`g0`, `g1`). -/
def mapOperands (f0 f1 g0 g1 : Word → Word) (s : State) : State :=
  { s with arg0 := f0 s.arg0, arg1 := f1 s.arg1, larg0 := g0 s.larg0, larg1 := g1 s.larg1 }

section
variable (f0 f1 g0 g1 : Word → Word)

theorem buildSegments_mapOperands (w count seg : Nat) (sp : List Nat) (s : State) :
    buildSegments w count seg sp (mapOperands f0 f1 g0 g1 s) =
      mapOperands f0 f1 g0 g1 (buildSegments w count seg sp s) := by
  induction count generalizing seg sp s with
  | zero => rfl
  | succ count ih => exact ih (seg + 1) _ (buildSegment w seg sp s).2

theorem constructStore_mapOperands (w : Nat) (s : State) :
    constructStore w (mapOperands f0 f1 g0 g1 s) = mapOperands f0 f1 g0 g1 (constructStore w s) :=
  congrArg buildIndex (buildSegments_mapOperands f0 f1 g0 g1 _ _ _ _ (buildSmall w (startBuild s)))

/-- A build reads its limit and nothing else of the operands. -/
theorem build_mapOperands (limit : Nat) (s : State) :
    build limit (mapOperands f0 f1 g0 g1 s) = mapOperands f0 f1 g0 g1 (build limit s) := by
  unfold build
  rw [constructStore_mapOperands, apply_ite (mapOperands f0 f1 g0 g1)]
  rfl

/-! The checks that stand before a command's body go the same way, whatever the operands that they do not read. -/

variable {f0 f1 g0 g1}

theorem ite_mapOperands {c : Prop} [Decidable c] {a b a' b' : State} (ha : a' = mapOperands f0 f1 g0 g1 a)
    (hb : b' = mapOperands f0 f1 g0 g1 b) :
    (if c then a' else b') = mapOperands f0 f1 g0 g1 (if c then a else b) := by
  rw [ha, hb, apply_ite (mapOperands f0 f1 g0 g1)]

theorem withStore_mapOperands {s go go' : State} (h : go' = mapOperands f0 f1 g0 g1 go) :
    withStore (mapOperands f0 f1 g0 g1 s) go' = mapOperands f0 f1 g0 g1 (withStore s go) :=
  ite_mapOperands h rfl

theorem withScratchIndex_mapOperands {s go go' : State} (h : go' = mapOperands f0 f1 id g1 go) :
    withScratchIndex (mapOperands f0 f1 id g1 s) go' = mapOperands f0 f1 id g1 (withScratchIndex s go) :=
  ite_mapOperands rfl h

theorem withScratchWord_mapOperands {s go go' : State} (h : go' = mapOperands f0 f1 id g1 go) :
    withScratchWord (mapOperands f0 f1 id g1 s) go' = mapOperands f0 f1 id g1 (withScratchWord s go) :=
  ite_mapOperands rfl h

theorem iterDecode_mapOperands (s : State) :
    iterDecode (mapOperands f0 f1 g0 g1 s) = mapOperands f0 f1 g0 g1 (iterDecode s) := by
  have hd : ∀ d : Decoded, (match d with
      | .value v w cur => finishWith (word v) 0 { mapOperands f0 f1 g0 g1 s with itw := word w, itcur := cur }
      | .ended w cur => finishIndet { mapOperands f0 f1 g0 g1 s with itw := word w, itcur := cur }) =
      mapOperands f0 f1 g0 g1 (match d with
      | .value v w cur => finishWith (word v) 0 { s with itw := word w, itcur := cur }
      | .ended w cur => finishIndet { s with itw := word w, itcur := cur }) := by
    rintro (_ | _) <;> rfl
  exact hd _

end

/-- A completion reads the latch and not ARG0 and ARG1 (R29, R283). -/
theorem exec_mapArgs (f0 f1 : Word → Word) {i : Instr} {s t : State} (h : exec i s = .next t) :
    exec i (mapOperands f0 f1 id id s) = .next (mapOperands f0 f1 id id t) := by
  cases i <;> injection h with h <;> subst h <;> refine congrArg Host.Outcome.next ?_
  case nop => rfl
  case codecMap => rfl
  case storeGet => exact withStore_mapOperands (ite_mapOperands rfl rfl)
  case scrFill => rfl
  case scrGet => exact withScratchIndex_mapOperands rfl
  case scrSetOn => exact withScratchIndex_mapOperands rfl
  case scrSetOff => exact withScratchIndex_mapOperands rfl
  case scrReadWord => exact withScratchWord_mapOperands rfl
  case scrWriteWord => exact withScratchWord_mapOperands rfl
  case wheelNew => exact ite_mapOperands rfl rfl
  case wheelNext => exact ite_mapOperands rfl rfl
  case iterStart => exact withStore_mapOperands rfl
  case iterSeek => exact withStore_mapOperands (ite_mapOperands rfl rfl)
  case iterNext =>
    exact withStore_mapOperands (ite_mapOperands (ite_mapOperands rfl (iterDecode_mapOperands s)) rfl)
  case buildLimit => exact ite_mapOperands rfl (build_mapOperands ..)
  case buildNprimes => exact ite_mapOperands rfl (build_mapOperands ..)
  case qLimit => exact withStore_mapOperands rfl
  case qNumPrimes => exact withStore_mapOperands rfl
  case isPrime =>
    refine withStore_mapOperands ?_
    rw [show primality (mapOperands f0 f1 id id s) (operand0 (mapOperands f0 f1 id id s)) =
      primality s (operand0 s) from rfl]
    cases primality s (operand0 s) <;> rfl
  case nthPrime =>
    refine withStore_mapOperands (ite_mapOperands rfl (ite_mapOperands rfl ?_))
    rw [show rankFind (mapOperands f0 f1 id id s) (operand0 (mapOperands f0 f1 id id s) - 3) =
      rankFind s (operand0 s - 3) from rfl]
    cases rankFind s (operand0 s - 3) <;> rfl
  case rankFind =>
    refine withStore_mapOperands (ite_mapOperands rfl ?_)
    rw [show rankFind (mapOperands f0 f1 id id s) (operand0 (mapOperands f0 f1 id id s)) =
      rankFind s (operand0 s) from rfl]
    cases rankFind s (operand0 s) <;> rfl
  case storeWord => exact withStore_mapOperands (ite_mapOperands rfl rfl)
  case clear => rfl

/-- Settles O56, command by command: the change of ARG0 and ARG1 passes through every ending. -/
theorem commandsReadOnlyTheLatch : Obligations.CommandsReadOnlyTheLatch :=
  fun _ _ _ a b h => exec_mapArgs (fun _ => a) (fun _ => b) h

end Sys2Proof.Machine
end

section
/-! PROOFS. STATUS over all steps: which event changes which field (spec/10_state.md R39, spec/60_exceptions.md R240,
R241, R247). -/

namespace Sys2Proof.Machine

/-- A bit that is 0 here and 1 there is not the same bit. -/
theorem false_ne_true_bit {P : Prop} {a b : Bool} (ha : a = false) (hb : b = true) (he : a = b) : P :=
  absurd (ha.symm.trans (he.trans hb)) Bool.false_ne_true

/-! ## BUSY and OVR under a register write -/

theorem writeReg_busy_of_busy {s : State} (r : Reg) (v : Word) (h : s.busy = true) : (writeReg s r v).busy = true := by
  cases r
  case cmd =>
    obtain ⟨_, he⟩ | ⟨_, _, he⟩ | ⟨_, _, he⟩ := writeCmd_cases s v <;> rw [writeReg, he]
    · exact h
    · exact h
  case status => rw [writeReg, writeStatus]; split <;> exact h
  all_goals exact h

theorem writeReg_busy_rises {s : State} {r : Reg} {v : Word} (h : s.busy = false)
    (ht : (writeReg s r v).busy = true) : r = .cmd := by
  cases r
  case cmd => rfl
  case status =>
    rw [writeReg, writeStatus] at ht
    split at ht <;> exact false_ne_true_bit h ht rfl
  all_goals exact false_ne_true_bit h ht rfl

theorem writeReg_ovr_rises {s : State} {r : Reg} {v : Word} (h : s.ovr = false) (ht : (writeReg s r v).ovr = true) :
    r = .cmd ∧ s.busy = true := by
  cases r
  case cmd =>
    obtain ⟨_, he⟩ | ⟨_, hb, _⟩ | ⟨_, _, he⟩ := writeCmd_cases s v
    · rw [writeReg, he] at ht
      exact false_ne_true_bit h ht rfl
    · exact ⟨rfl, hb⟩
    · rw [writeReg, he] at ht
      exact false_ne_true_bit h ht rfl
  case status =>
    rw [writeReg, writeStatus] at ht
    split at ht
    · exact absurd ht Bool.false_ne_true
    · exact false_ne_true_bit h ht rfl
  all_goals exact false_ne_true_bit h ht rfl

theorem writeReg_ovr_falls {s : State} {r : Reg} {v : Word} (h : s.ovr = true) (ht : (writeReg s r v).ovr = false) :
    r = .status ∧ v.getLsbD 5 = true := by
  cases r
  case cmd =>
    obtain ⟨_, he⟩ | ⟨_, _, he⟩ | ⟨_, _, he⟩ := writeCmd_cases s v <;> rw [writeReg, he] at ht
    · exact false_ne_true_bit ht h rfl
    · exact absurd ht.symm Bool.false_ne_true
    · exact false_ne_true_bit ht h rfl
  case status =>
    rw [writeReg, writeStatus] at ht
    split at ht
    · exact ⟨rfl, ‹_›⟩
    · exact false_ne_true_bit ht h rfl
  all_goals exact false_ne_true_bit ht h rfl

/-! ## OVR and BUSY -/

theorem Completion.ovr_eq {s t : State} {i : Instr} (h : Completion s i t) : t.ovr = s.ovr := by
  obtain ⟨_, _, _, _, _, hovr, _⟩ := h.hostSide
  exact hovr

theorem Completion.fatal_eq {s t : State} {i : Instr} (h : Completion s i t) : t.fatal = s.fatal := by
  obtain ⟨_, _, _, _, _, _, hfatal, _⟩ := h.hostSide
  exact hfatal

theorem Completion.busy_eq {s t : State} {i : Instr} (h : Completion s i t) : t.busy = false := by
  obtain ⟨_, _, _, _, _, _, _, _, _, _, _, hbusy⟩ := h.hostSide
  exact hbusy

theorem StepKind.ovr_rises {s t : State} (hk : StepKind s t) (h : s.ovr = false) (ht : t.ovr = true) :
    s.busy = true ∧ ∃ c, writesNext s 0x08 c := by
  cases hk with
  | completes _ _ hc => exact false_ne_true_bit h ht hc.ovr_eq.symm
  | illegal => exact false_ne_true_bit h ht rfl
  | reset => exact absurd ht Bool.false_ne_true
  | write off v rest hw =>
    obtain ⟨hr, hb⟩ := writeReg_ovr_rises (s := { tick s with host := rest }) ((tick_ovr s).trans h) ht
    rw [regAt_eq_cmd_iff] at hr
    exact ⟨(tick_busy s).symm.trans hb, v, hr ▸ hw⟩
  | hostOnly => exact false_ne_true_bit h ht (tick_ovr s).symm

theorem StepKind.ovr_falls {s t : State} (hk : StepKind s t) (h : s.ovr = true) (ht : t.ovr = false) :
    resetsNext s ∨ ∃ v, writesNext s 0x10 v ∧ v.getLsbD 5 = true := by
  cases hk with
  | completes _ _ hc => exact false_ne_true_bit ht h hc.ovr_eq
  | illegal => exact false_ne_true_bit ht h rfl
  | reset _ hr => exact .inl hr
  | write off v rest hw =>
    obtain ⟨hr, hv⟩ := writeReg_ovr_falls (s := { tick s with host := rest }) ((tick_ovr s).trans h) ht
    rw [regAt_eq_status_iff] at hr
    exact .inr ⟨v, hr ▸ hw, hv⟩
  | hostOnly => exact false_ne_true_bit ht h (tick_ovr s)

/-- Settles O16, by the kinds of step. -/
theorem ovrHasOnlyItsWriters : Obligations.OvrHasOnlyItsWriters :=
  fun _ _ hs => ⟨(step_kind hs).ovr_rises, (step_kind hs).ovr_falls⟩

theorem StepKind.busy_rises {s t : State} (hk : StepKind s t) (h : s.busy = false) (ht : t.busy = true) :
    ∃ c, writesNext s 0x08 c := by
  cases hk with
  | completes _ _ hc => exact false_ne_true_bit hc.busy_eq ht rfl
  | illegal | reset => exact absurd ht Bool.false_ne_true
  | write off v rest hw =>
    have hr := writeReg_busy_rises (s := { tick s with host := rest }) ((tick_busy s).trans h) ht
    rw [regAt_eq_cmd_iff] at hr
    exact ⟨v, hr ▸ hw⟩
  | hostOnly => exact false_ne_true_bit h ht (tick_busy s).symm

theorem StepKind.busy_falls {s t : State} (hk : StepKind s t) (h : s.busy = true) (ht : t.busy = false) :
    engineMoves s = true ∨ resetsNext s := by
  cases hk with
  | completes _ hc => exact .inl hc.1
  | illegal hm => exact .inl hm
  | reset _ hr => exact .inr hr
  | write off v rest =>
    have hb := writeReg_busy_of_busy (s := { tick s with host := rest }) (regAt off) v ((tick_busy s).trans h)
    exact false_ne_true_bit ht hb rfl
  | hostOnly => exact false_ne_true_bit ht h (tick_busy s)

/-! ## The other fields -/

/-- What is read of the engine's part alone agrees where the engine's part does. -/
theorem eq_of_enginePart_eq {α : Type} {s t : State} (f : State → α) (hf : ∀ u, f (enginePart u) = f u)
    (he : enginePart t = enginePart s) : f t = f s := by
  rw [← hf, he, hf]

/-- A field that neither the host nor an illegal word writes changes only at a completion or a reset. -/
theorem StepKind.changed {α : Type} {s t : State} (hk : StepKind s t) (f : State → α)
    (hf : ∀ u, f (enginePart u) = f u) (hill : f (raise .illegal s) = f s) (h : f t ≠ f s) :
    (∃ i, completesNext s i ∧ Completion s i t) ∨ (resetsNext s ∧ ∃ rest, t = resetEngine s rest) := by
  have hhost : enginePart t ≠ enginePart s := fun he => h (eq_of_enginePart_eq f hf he)
  cases hk with
  | completes i hc hx => exact .inl ⟨i, hc, hx⟩
  | illegal => exact absurd hill h
  | reset rest hr => exact .inr ⟨hr, rest, rfl⟩
  | write => exact (hhost ((enginePart_writeReg _ _ _).trans (enginePart_tick s))).elim
  | hostOnly => exact (hhost (enginePart_tick s)).elim

/-- Such a bit, if reset clears it, rises only at a completion. -/
theorem StepKind.rises {s t : State} (hk : StepKind s t) (f : State → Bool) (hf : ∀ u, f (enginePart u) = f u)
    (hill : f (raise .illegal s) = f s) (hreset : ∀ rest, f (resetEngine s rest) = false) (h : f s = false)
    (ht : f t = true) : ∃ i, completesNext s i ∧ Completion s i t := by
  obtain hc | ⟨_, rest, rfl⟩ := hk.changed f hf hill fun he => false_ne_true_bit h ht he.symm
  · exact hc
  · exact false_ne_true_bit (hreset rest) ht rfl

theorem Completion.ready_rises {s t : State} {i : Instr} (hc : Completion s i t) (h : s.ready = false)
    (ht : t.ready = true) : i = .buildLimit ∨ i = .buildNprimes := by
  cases hc with
  | built _ _ hi => simpa using hi
  | cleared => exact absurd ht Bool.false_ne_true
  | _ => exact false_ne_true_bit h ht rfl

theorem Completion.ready_falls {s t : State} {i : Instr} (hc : Completion s i t) (h : s.ready = true)
    (ht : t.ready = false) : i = .clear := by
  cases hc with
  | built => exact absurd ht.symm Bool.false_ne_true
  | cleared => rfl
  | _ => exact false_ne_true_bit ht h rfl

theorem Completion.itv_rises {s t : State} {i : Instr} (hc : Completion s i t) (h : s.itv = false)
    (ht : t.itv = true) : i = .iterStart ∨ i = .iterSeek := by
  by_cases hi : i ∈ [.iterStart, .iterSeek, .iterNext, .clear]
  · cases hc with
    | cursorPlaced _ _ _ hp => simpa using hp
    | cleared => exact absurd ht Bool.false_ne_true
    | built _ _ hb => revert hb hi; cases i <;> decide
    | _ => exact false_ne_true_bit h ht rfl
  · exact false_ne_true_bit h ht (hc.cursor_frame hi).1.symm

theorem Completion.itv_falls {s t : State} {i : Instr} (hc : Completion s i t) (h : s.itv = true)
    (ht : t.itv = false) : i = .clear := by
  by_cases hi : i ∈ [.iterStart, .iterSeek, .iterNext, .clear]
  · cases hc with
    | cursorPlaced => exact absurd ht.symm Bool.false_ne_true
    | cleared => rfl
    | built _ _ hb => revert hb hi; cases i <;> decide
    | _ => exact false_ne_true_bit ht h rfl
  · exact false_ne_true_bit ht h (hc.cursor_frame hi).1

theorem Completion.wv_rises {s t : State} {i : Instr} (hc : Completion s i t) (h : s.wv = false)
    (ht : t.wv = true) : i = .wheelNew := by
  obtain ⟨_, _, _, hwheel, _⟩ := hc.writers
  by_contra hi
  exact false_ne_true_bit h ht (hwheel hi).1.symm

theorem Completion.wv_of_wv {s t : State} {i : Instr} (hc : Completion s i t) (h : s.wv = true) : t.wv = true := by
  cases hc with
  | wheelStarted => rfl
  | built _ w =>
    obtain ⟨_, _, _, _, _, _, _, _, _, he⟩ := built_frame w s
    rw [he]
    exact h
  | _ => exact h

/-- Settles O17: each field by the completions that write it. -/
theorem statusFieldsHaveOnlyTheirWriters : Obligations.StatusFieldsHaveOnlyTheirWriters := by
  intro s t hs
  have hk := step_kind hs
  refine ⟨fun h ht => ?_, fun h ht => ?_, fun h ht => ?_, fun h ht => ?_, fun h ht => ?_, fun h ht => ?_,
    hk.busy_rises, hk.busy_falls, fun h => ?_, fun ht => ?_, fun h ht => ?_⟩
  · obtain ⟨i, hi, hc⟩ := hk.rises State.ready (fun _ => rfl) rfl (fun _ => rfl) h ht
    obtain rfl | rfl := hc.ready_rises h ht
    · exact .inl hi
    · exact .inr hi
  · obtain ⟨i, hi, hc⟩ | ⟨hr, _⟩ := hk.changed State.ready (fun _ => rfl) rfl (false_ne_true_bit ht h)
    · exact .inl (hc.ready_falls h ht ▸ hi)
    · exact .inr hr
  · obtain ⟨i, hi, hc⟩ := hk.rises State.itv (fun _ => rfl) rfl (fun _ => rfl) h ht
    obtain rfl | rfl := hc.itv_rises h ht
    · exact .inl hi
    · exact .inr hi
  · obtain ⟨i, hi, hc⟩ | ⟨hr, _⟩ := hk.changed State.itv (fun _ => rfl) rfl (false_ne_true_bit ht h)
    · exact .inl (hc.itv_falls h ht ▸ hi)
    · exact .inr hr
  · obtain ⟨i, hi, hc⟩ := hk.rises State.wv (fun _ => rfl) rfl (fun _ => rfl) h ht
    exact hc.wv_rises h ht ▸ hi
  · obtain ⟨_, _, hc⟩ | ⟨hr, _⟩ := hk.changed State.wv (fun _ => rfl) rfl (false_ne_true_bit ht h)
    · exact false_ne_true_bit ht (hc.wv_of_wv h) rfl
    · exact hr
  · by_contra hno
    obtain ⟨hm, hr⟩ := not_or.mp hno
    have he := hk.enginePart_eq (by simpa using hm) hr
    exact h.elim (· (eq_of_enginePart_eq State.rv (fun _ => rfl) he))
      (· (eq_of_enginePart_eq State.err (fun _ => rfl) he))
  · by_contra h
    obtain ⟨_, _, hc⟩ := hk.rises State.fatal (fun _ => rfl) rfl (fun _ => rfl) (by simpa using h) ht
    exact h (hc.fatal_eq.symm.trans ht)
  · obtain ⟨_, _, hc⟩ | ⟨hr, _⟩ := hk.changed State.fatal (fun _ => rfl) rfl (false_ne_true_bit ht h)
    · exact false_ne_true_bit ht h hc.fatal_eq
    · exact hr

end Sys2Proof.Machine
end

section
/-! PROOFS. The register space as the host sees it, access by access (spec/10_state.md R21-R27, R41, R44,
spec/20_memory.md R53, R56, spec/60_exceptions.md R240, R241, R247, spec/70_reset_and_hazards.md R270, R283). -/

namespace Sys2Proof.Machine

theorem tick_of_busy {s : State} (h : s.busy = true) : tick s = { s with delay := s.delay - 1 } := by
  simp [tick, h]

theorem engineMoves_of_idle {s : State} (h : s.busy = false) : engineMoves s = false := by
  simp [engineMoves, h]

/-! ## Writes -/

/-- The acceptance of a command (R25, R240 (a)). -/
theorem writeCmd_accepted {s : State} (c : Word) (hf : s.fatal = false) (hb : s.busy = false) :
    writeCmd s c = { s with
      lcmd := c
      larg0 := s.arg0
      larg1 := s.arg1
      busy := true
      delay := Config.completionDelay s.draws
      draws := s.draws + 1 } := by
  simp [writeCmd, hf, hb]

/-- An overrun (R241). -/
theorem writeCmd_overrun {s : State} (c : Word) (hf : s.fatal = false) (hb : s.busy = true) :
    writeCmd s c = { s with ovr := true } := by
  simp [writeCmd, hf, hb]

theorem writeCmd_fatal {s : State} (c : Word) (hf : s.fatal = true) : writeCmd s c = s := by
  simp [writeCmd, hf]

/-- STATUS is W1C in bit 5 (R23, R53). -/
theorem writeStatus_eq (s : State) (v : Word) : writeStatus s v = { s with ovr := s.ovr && !v.getLsbD 5 } := by
  unfold writeStatus
  cases v.getLsbD 5
  · rw [Bool.not_false, Bool.and_true]; rfl
  · rw [Bool.not_true, Bool.and_false]; rfl

theorem writeReg_ignored {s : State} {r : Reg} (v : Word) (h : r ∉ [.cmd, .status, .arg0, .arg1]) :
    writeReg s r v = s := by
  cases r
  case cmd | status | arg0 | arg1 => exact absurd (by decide) h
  all_goals rfl

/-- Settles O7, by the three cases of a CMD write. -/
theorem cmdWriteIssuesOrIsDropped : Obligations.CmdWriteIssuesOrIsDropped := by
  refine ⟨fun _ => rfl, fun s c rest hm hh => ?_⟩
  have hstep : step s = .next (writeCmd { tick s with host := rest } c) := step_write hm hh (by decide) (by decide)
  refine ⟨fun hb hf => ?_, fun hb hf => ?_, fun hb hf => ?_⟩
  · rw [hstep, tick_of_idle hb]
    exact congrArg Host.Outcome.next (writeCmd_accepted (s := { s with host := rest }) c hf hb)
  · rw [hstep, tick_of_busy hb]
    exact congrArg Host.Outcome.next (writeCmd_overrun (s := { s with host := rest, delay := s.delay - 1 }) c hf hb)
  · rw [hstep, tick_of_idle hb]
    exact congrArg Host.Outcome.next (writeCmd_fatal (s := { s with host := rest }) c hf)

/-- Settles O13, from what a write of each register does. -/
theorem registerWritesHaveTheirEffect : Obligations.RegisterWritesHaveTheirEffect := by
  intro s off v rest hm hh hoff hal
  have hstep := step_write hm hh hoff hal
  refine ⟨?_, ?_, ?_, fun hcmd hstatus harg0 harg1 => ?_⟩
  · rintro rfl
    rw [hstep, ← tick_ovr s]
    exact congrArg Host.Outcome.next (writeStatus_eq _ v)
  · rintro rfl
    exact hstep
  · rintro rfl
    exact hstep
  · rw [hstep, writeReg_ignored]
    simp only [List.mem_cons, List.not_mem_nil, or_false, regAt_eq_cmd_iff, regAt_eq_status_iff, regAt_eq_arg0_iff,
      regAt_eq_arg1_iff]
    omega

/-! ## Reads -/

theorem statusWord_of_idle {s : State} (h : s.busy = false) :
    statusWord s = packStatus false s.ready s.rv s.itv s.wv s.ovr s.fatal s.err.code := by
  simp [statusWord, h]

/-- The STATUS fields at their bits while BUSY = 0 (R23). -/
theorem statusWord_idle_bits {s : State} (h : s.busy = false) :
    (statusWord s).getLsbD 0 = false ∧ (statusWord s).getLsbD 1 = s.ready ∧ (statusWord s).getLsbD 2 = s.rv ∧
    (statusWord s).getLsbD 3 = s.itv ∧ (statusWord s).getLsbD 4 = s.wv ∧ (statusWord s).getLsbD 5 = s.ovr ∧
    (statusWord s).getLsbD 6 = s.fatal ∧ ((statusWord s).extractLsb' 8 8).toNat = s.err.code := by
  rw [statusWord_of_idle h]
  obtain ⟨h0, h1, h2, h3, h4, h5, h6, _, herr, _⟩ :=
    packStatus_bits false s.ready s.rv s.itv s.wv s.ovr s.fatal s.err.code
  have := err_code_lt s.err
  exact ⟨h0, h1, h2, h3, h4, h5, h6, herr.trans (Nat.mod_eq_of_lt (by omega))⟩

/-- STATUS is laid out in one way in every state (R23, R282). -/
theorem statusWord_packed (s : State) :
    ∃ busy ready rv itv wv ovr fatal err, statusWord s = packStatus busy ready rv itv wv ovr fatal err := by
  unfold statusWord
  split
  · exact ⟨_, _, _, _, _, _, _, _, rfl⟩
  · exact ⟨_, _, _, _, _, _, _, _, rfl⟩

theorem readReg_reserved (s : State) {off : Nat} (h : 0x48 ≤ off) : readReg s (regAt off) = 0 := by
  rw [regAt_reserved h]; rfl

/-- Settles O10: the step delivers what the register holds, and STATUS by its layout. -/
theorem idleReadsReturnTheRegisters : Obligations.IdleReadsReturnTheRegisters := by
  intro s off rest hb hh hoff hal
  have hstep := step_read (engineMoves_of_idle hb) hh hoff hal
  rw [tick_of_idle hb] at hstep
  refine ⟨readReg { s with host := rest } (regAt off), hstep, ?_, ?_, ?_, ?_, ?_, ?_, ?_, ?_, ?_, readReg_reserved _⟩
  · rintro rfl; rfl
  · rintro rfl; rfl
  · rintro rfl
    exact statusWord_idle_bits (s := { s with host := rest }) hb
  · rintro rfl; rfl
  · rintro rfl; rfl
  · rintro rfl
    exact if_neg (by simp [hb])
  · rintro rfl
    exact if_neg (by simp [hb])
  · rintro rfl; rfl
  · rintro rfl; rfl

/-- Settles O12: STATUS is packed in every state, and the reserved offsets are one register. -/
theorem reservedBitsReadZero : Obligations.ReservedBitsReadZero := by
  intro s
  obtain ⟨busy, ready, rv, itv, wv, ovr, fatal, err, he⟩ := statusWord_packed s
  obtain ⟨_, _, _, _, _, _, _, h7, _, hhigh⟩ := packStatus_bits busy ready rv itv wv ovr fatal err
  rw [he]
  exact ⟨h7, hhigh, fun _ => readReg_reserved s⟩

/-! ## Reset -/

/-- Settles O15: the state after a reset has each item by definition, and SCR its length. -/
theorem resetSetsTheTable : Obligations.ResetSetsTheTable := by
  intro s rest hm hh
  exact ⟨_, step_reset hm hh, rfl, rfl, rfl, rfl, rfl, rfl, rfl, rfl, rfl, rfl, rfl, rfl, rfl, rfl, rfl, rfl, rfl, rfl,
    rfl, drawWords_length ..⟩

end Sys2Proof.Machine
end

section
/-! PROOFS. PFX against the store (spec/10_state.md R32). -/

namespace Sys2Proof.Machine

/-- The lanes set in the first words, counted in the list of words. -/
theorem storedBelow_eq_take {s : State} {i : Nat} (h : i ≤ s.store.length) :
    storedBelow s i = ((s.store.take i).map popcount).sum := by
  refine congrArg List.sum (List.ext_getElem (by simp [h]) fun j hj _ => ?_)
  have hj : j < s.store.length := by simp at hj; omega
  simp [wordAt_lt hj]

theorem storedBelow_succ (s : State) (i : Nat) :
    storedBelow s (i + 1) = storedBelow s i + popcount (wordAt .store s.store i) := by
  simp [storedBelow, List.range_succ]

theorem storedBelow_mono (s : State) {i j : Nat} (h : i ≤ j) : storedBelow s i ≤ storedBelow s j :=
  monotone_nat_of_le_succ (fun i => by rw [storedBelow_succ]; exact Nat.le_add_right ..) h

theorem storedBelow_le (s : State) (i : Nat) : storedBelow s i ≤ 64 * i := by
  induction i with
  | zero => exact Nat.le_refl 0
  | succ i ih =>
    have := popcount_le (wordAt .store s.store i)
    rw [storedBelow_succ]
    omega

/-- Every count of a store that fits is below 2^64 (R7, R32). -/
theorem Inv.storedBelow_lt {s : State} (h : Inv s) {i : Nat} (hi : i ≤ s.nwords.toNat) : storedBelow s i < 2 ^ 64 := by
  obtain ⟨_, _, hcap⟩ := cfgWf_bounds h.cfgWf
  have := storedBelow_le s i
  have := h.nwordsLe
  omega

/-- PFX is the running popcount of STORE, word by word (R32). -/
theorem Inv.pfx_eq {s : State} (h : Inv s) {i : Nat} (hi : i < s.nwords.toNat) :
    (wordAt .pfx s.pfx i).toNat = storedBelow s (i + 1) := by
  obtain ⟨_, hstore, _⟩ := (memory_wf_iff s).mp h.memory
  have hlen : i < s.store.length := by rwa [hstore]
  have hlt := h.storedBelow_lt (Nat.succ_le_of_lt hi)
  have hsum := storedBelow_eq_take (Nat.succ_le_of_lt hlen)
  rw [h.pfxIs, wordAt, prefixCounts_getD 0 s.store i hlen, Nat.zero_add, ← hsum, toNat_word hlt]

/-- Settles O45, from the value of each entry. -/
theorem prefixIndexCountsTheStore : Obligations.PrefixIndexCountsTheStore := by
  intro s h
  refine ⟨fun i => h.pfx_eq, fun i j hij hj => ?_, ?_⟩
  · rw [h.pfx_eq hj, h.pfx_eq (hij.trans_lt hj)]
    exact storedBelow_mono s (Nat.succ_le_succ hij)
  · unfold totalPrimes storedPrimes
    split
    · rw [h.pfx_eq (by omega), Nat.sub_add_cancel ‹_›]
    · rw [Nat.eq_zero_of_not_pos (n := s.nwords.toNat) ‹_›]; rfl

end Sys2Proof.Machine
end

section
/-! PROOFS. The byte view of a word (spec/20_memory.md R54 (b)): each lane bit by bit, and the number that the first
lanes spell. -/

namespace Sys2Proof

theorem byteLane_getLsbD (w : Word) (k : Nat) {j : Nat} (hj : j < 8) :
    (byteLane w k).getLsbD j = w.getLsbD (8 * k + j) := by
  simp [byteLane, hj]

theorem byteLane_toNat (w : Word) (k : Nat) : (byteLane w k).toNat = w.toNat / 2 ^ (8 * k) % 256 := by
  simp [byteLane, Nat.shiftRight_eq_div_pow]

@[simp] theorem bytesOfWord_length (w : Word) : (bytesOfWord w).length = 8 := by
  simp [bytesOfWord]

theorem bytesOfWord_getD (w : Word) {k : Nat} (hk : k < 8) : (bytesOfWord w).getD k 0 = byteLane w k := by
  simp [bytesOfWord, hk]

/-- The first `n` lanes, byte 0 first, spell the word's lowest 8n bits; what the later bytes spell stands above. -/
theorem foldr_byteLane (w : Word) (n above : Nat) :
    ((List.range n).map (byteLane w)).foldr (fun b acc => b.toNat + 256 * acc) above =
      w.toNat % 2 ^ (8 * n) + 2 ^ (8 * n) * above := by
  induction n generalizing above with
  | zero => simp [Nat.mod_one]
  | succ n ih =>
    have hpow : 2 ^ (8 * (n + 1)) = 2 ^ (8 * n) * 256 := Nat.pow_add 2 (8 * n) 8
    rw [List.range_succ, List.map_append, List.foldr_append, ih]
    change _ + _ * ((byteLane w n).toNat + 256 * above) = _
    rw [byteLane_toNat, hpow, Nat.mod_mul]
    ring

theorem wordOfBytes_bytesOfWord (w : Word) : wordOfBytes (bytesOfWord w) = w := by
  have hlt : w.toNat < 2 ^ (8 * 8) := w.isLt
  rw [wordOfBytes, bytesOfWord, foldr_byteLane, Nat.mod_eq_of_lt hlt]
  simp

/-- Settles O3, from the bits of one lane and the number that the eight lanes spell. -/
theorem byteLanesAreLittleEndian : Obligations.ByteLanesAreLittleEndian := by
  refine fun w => ⟨bytesOfWord_length w, fun k j hk hj => ?_, wordOfBytes_bytesOfWord w⟩
  rw [bytesOfWord_getD w hk, byteLane_getLsbD w k hj]

end Sys2Proof
end

section
/-! PROOFS. The host accesses that have no meaning (spec/20_memory.md R51, R52; log 9, log 10). -/

namespace Sys2Proof.Machine

theorem inRegisterSpace_iff (base addr : Nat) : inRegisterSpace base addr = true ↔ base ≤ addr ∧ addr < base + 256 := by
  simp [inRegisterSpace]

theorem aligned64_iff (off size : Nat) : aligned64 off size = true ↔ size = 8 ∧ off % 8 = 0 := by
  simp [aligned64]

theorem withAccess_misaligned {s : State} {addr size : Nat} (go : Reg → State)
    (hin : inRegisterSpace s.cfg.regBase addr = true) (hal : ¬ aligned64 (addr - s.cfg.regBase) size = true) :
    withAccess s addr size go = .refused (.notAligned64 (addr - s.cfg.regBase) size) := by
  rw [withAccess, if_pos hin, if_neg hal]

theorem withAccess_outside {s : State} {addr : Nat} (size : Nat) (go : Reg → State)
    (hout : ¬ inRegisterSpace s.cfg.regBase addr = true) :
    withAccess s addr size go = .fault (.outsideRegisterSpace addr) := by
  rw [withAccess, if_neg hout]

/-- A read and a write reach the register space in the same way, at any address and of any size (R52). -/
theorem step_access {s : State} {addr size : Nat} {v : Word} {rest : HostProg} (hm : engineMoves s = false)
    (hh : s.host = .wr addr size v rest ∨ s.host = .rd addr size rest) :
    ∃ go, step s = withAccess { tick s with host := rest } addr size go := by
  rw [← tick_host s] at hh
  rw [step_of_host hm, hostStep]
  obtain hh | hh := hh
  · rw [hh]; exact ⟨_, rfl⟩
  · rw [hh]; exact ⟨_, rfl⟩

/-- Settles O14: the access is placed by its address, and then by its size and alignment. -/
theorem otherAccessesHaveNoMeaning : Obligations.OtherAccessesHaveNoMeaning := by
  intro s addr size v rest hm hh
  obtain ⟨go, hstep⟩ := step_access hm hh
  have hbase : ({ tick s with host := rest } : State).cfg.regBase = s.cfg.regBase := congrArg Config.regBase (tick_cfg s)
  rw [hstep, ← hbase]
  refine ⟨fun hlo hhi hbad => ?_, fun hout => ?_⟩
  · refine withAccess_misaligned go ((inRegisterSpace_iff ..).mpr ⟨hlo, hhi⟩) fun hal => ?_
    obtain ⟨hsize, hoff⟩ := (aligned64_iff ..).mp hal
    exact hbad.elim (· hsize) (· hoff)
  · refine withAccess_outside size go fun hin => ?_
    obtain ⟨hlo, hhi⟩ := (inRegisterSpace_iff ..).mp hin
    omega

end Sys2Proof.Machine
end

section
/-! PROOFS. Decoding and encoding a command word (spec/30_encoding.md R70-R76): the opcode map and its inverse, then the
two fields of a word, then the word as eight bytes. -/

namespace Sys2Proof

/-! ## The opcode map -/

theorem instrOfOpcode_opcodeOf (i : Instr) : instrOfOpcode (opcodeOf i) = some i := by
  cases i <;> rfl

theorem opcodeOf_of_instrOfOpcode {n : Nat} {i : Instr} (h : instrOfOpcode n = some i) : opcodeOf i = n := by
  unfold instrOfOpcode at h
  split at h <;> cases h <;> rfl

/-- No two opcodes are one command, and no two commands share an opcode (R73). -/
theorem instrOfOpcode_eq_some_iff (n : Nat) (i : Instr) : instrOfOpcode n = some i ↔ opcodeOf i = n :=
  ⟨opcodeOf_of_instrOfOpcode, fun h => h ▸ instrOfOpcode_opcodeOf i⟩

theorem opcodeOf_lt (i : Instr) : opcodeOf i < 256 := by
  cases i <;> decide

theorem opcodeOf_mem (i : Instr) : opcodeOf i ∈ assignedOpcodes := by
  cases i <;> decide

theorem exists_opcodeOf_eq_of_mem : ∀ n ∈ assignedOpcodes, ∃ i, opcodeOf i = n := by
  have hdec : ∀ n ∈ assignedOpcodes, (instrOfOpcode n).isSome = true := by decide
  intro n hn
  obtain ⟨i, hi⟩ := Option.isSome_iff_exists.mp (hdec n hn)
  exact ⟨i, opcodeOf_of_instrOfOpcode hi⟩

/-- The 23 opcodes of R73 are those of the commands. -/
theorem mem_assignedOpcodes_iff (n : Nat) : n ∈ assignedOpcodes ↔ ∃ i, opcodeOf i = n :=
  ⟨exists_opcodeOf_eq_of_mem n, fun ⟨i, hi⟩ => hi ▸ opcodeOf_mem i⟩

/-! ## The fields of a command word -/

/-- A word is its two fields (R70). -/
theorem toNat_eq_fields (c : Word) : c.toNat = 256 * rsvField c + opcField c :=
  (Nat.div_add_mod c.toNat 256).symm

theorem opcField_lt (c : Word) : opcField c < 256 :=
  Nat.mod_lt _ (by decide)

theorem rsvField_eq_extract (c : Word) : rsvField c = (c.extractLsb' 8 56).toNat := by
  have := c.isLt
  rw [BitVec.extractLsb'_toNat, Nat.shiftRight_eq_div_pow, rsvField]
  omega

theorem opcField_eq_extract (c : Word) : opcField c = (c.extractLsb' 0 8).toNat := by
  simp [opcField]

theorem encode_toNat (i : Instr) : (encode i).toNat = opcodeOf i := by
  have := opcodeOf_lt i
  simp only [encode, BitVec.toNat_ofNat]
  omega

/-- The word of a command has RSV 0 and its opcode, and no other word has (R70). -/
theorem eq_encode_iff (c : Word) (i : Instr) : c = encode i ↔ rsvField c = 0 ∧ opcodeOf i = opcField c := by
  have := opcodeOf_lt i
  have := opcField_lt c
  rw [← BitVec.toNat_inj, encode_toNat, toNat_eq_fields]
  omega

/-- Everything the decoder accepts (R71). -/
theorem decode_eq_ok_iff (c : Word) (i : Instr) : decode c = .ok i ↔ rsvField c = 0 ∧ opcodeOf i = opcField c := by
  rw [← instrOfOpcode_eq_some_iff]
  unfold decode
  split
  case isTrue hrsv => simp [hrsv]
  case isFalse hrsv =>
    cases instrOfOpcode (opcField c) with
    | none => simp
    | some j => simp [not_not.mp hrsv]

theorem decode_eq_ok_iff_encode (c : Word) (i : Instr) : decode c = .ok i ↔ c = encode i :=
  (decode_eq_ok_iff c i).trans (eq_encode_iff c i).symm

/-- A word is legal iff its reserved bits are 0 and its opcode is assigned (R71). -/
theorem exists_decode_iff (c : Word) : (∃ i, decode c = .ok i) ↔ rsvField c = 0 ∧ opcField c ∈ assignedOpcodes := by
  simp only [decode_eq_ok_iff, mem_assignedOpcodes_iff, exists_and_left]

/-! ## The byte view -/

/-- The first eight bytes are the word, and the rest is given back (R54 (b), R76). -/
theorem decodeBytes_bytesOfWord_append (c : Word) (rest : List Byte) :
    decodeBytes (bytesOfWord c ++ rest) = (decode c).map (fun i => (i, rest)) := by
  have hlong : ¬ (bytesOfWord c ++ rest).length < 8 := by simp
  rw [decodeBytes, if_neg hlong, List.take_left' (bytesOfWord_length c), List.drop_left' (bytesOfWord_length c),
    wordOfBytes_bytesOfWord]

/-- Settles O2: both sides say the same of the word's two fields, and the eight bytes give the word back. -/
theorem decodeAndEncodeAgree : Obligations.DecodeAndEncodeAgree := by
  refine ⟨fun i c => decode_eq_ok_iff_encode c i, fun i rest => ?_⟩
  rw [decodeBytes_bytesOfWord_append, (decode_eq_ok_iff_encode _ i).mpr rfl]
  rfl

/-! ## Legal and illegal words -/

namespace Machine

/-- A word that is no command completes with ILLEGAL and no other effect (R71, R243). -/
theorem step_of_illegal {s : State} (hm : engineMoves s = true) (h : ¬ ∃ i, decode s.lcmd = .ok i) :
    step s = .next (raise .illegal s) := by
  rw [step, if_pos hm]
  obtain ⟨i, _, hi, _⟩ | ⟨_, _, hill⟩ := engineStep_cases s
  · exact absurd ⟨i, hi⟩ h
  · exact hill

end Machine

/-- Settles O1, from what the decoder accepts. -/
theorem wordIsLegalIffReservedZeroAndOpcodeAssigned : Obligations.WordIsLegalIffReservedZeroAndOpcodeAssigned := by
  intro c
  refine ⟨?_, fun hill s hm hc => Machine.step_of_illegal hm (hc ▸ hill)⟩
  rw [exists_decode_iff, rsvField_eq_extract, opcField_eq_extract, ← BitVec.toNat_inj]
  rfl

/-! ## Words written out -/

theorem decode_toBool (c : Word) : (decode c).toBool = commandWordWf c := by
  have hbool : (decode c).toBool = true ↔ ∃ i, decode c = .ok i := by
    cases decode c <;> simp [Except.toBool]
  rw [Bool.eq_iff_iff, hbool, exists_decode_iff]
  simp [commandWordWf]

/-- A word with RSV 0 is legal as its opcode is assigned (R74). -/
theorem commandWordWf_ofNat {n : Nat} (h : n < 256) :
    commandWordWf (BitVec.ofNat 64 n) = assignedOpcodes.contains n := by
  have hn : (BitVec.ofNat 64 n).toNat = n := Nat.mod_eq_of_lt (by omega)
  simp [commandWordWf, rsvField, opcField, hn, Nat.div_eq_of_lt h, Nat.mod_eq_of_lt h]

/-- The opcodes are all below 256, each listed once (R70, R73). -/
theorem filter_assigned_perm : ((List.range 256).filter (assignedOpcodes.contains ·)).Perm assignedOpcodes := by
  have hlt : ∀ n ∈ assignedOpcodes, n < 256 := by decide
  refine (List.perm_ext_iff_of_nodup (List.nodup_range.filter _) (by decide)).mpr fun n => ?_
  simpa using hlt n

/-- R74: of the opcode values with RSV 0, all but the 23 of R73's map are rejected. -/
theorem rejected_opcodes_length :
    ((List.range 256).filter (fun n => !(decode (BitVec.ofNat 64 n)).toBool)).length = 233 := by
  have hmap : (List.range 256).filter (fun n => !(decode (BitVec.ofNat 64 n)).toBool) =
      (List.range 256).filter (fun n => !assignedOpcodes.contains n) :=
    List.filter_congr fun n hn => by rw [decode_toBool, commandWordWf_ofNat (List.mem_range.mp hn)]
  have hassigned : ((List.range 256).filter (assignedOpcodes.contains ·)).length = 23 := filter_assigned_perm.length_eq
  have hsplit := List.length_eq_length_filter_add (l := List.range 256) (assignedOpcodes.contains ·)
  rw [List.length_range, hassigned] at hsplit
  rw [hmap]
  omega

/-- Settles O4: six words of commands, the two ways to be rejected, and R74's count. -/
theorem sampleWordsDecode : Obligations.SampleWordsDecode := by
  have hcmd : ∀ i, decode (encode i) = .ok i := fun i => (decode_eq_ok_iff_encode _ i).mpr rfl
  exact ⟨hcmd .nop, hcmd .scrWriteWord, hcmd .wheelNew, hcmd .iterNext, hcmd .buildNprimes, hcmd .clear, rfl, rfl,
    rejected_opcodes_length⟩

end Sys2Proof
end

section
/-! PROOFS. The host's assembler and its WAIT (spec/30_encoding.md R77-R79). -/

namespace Sys2Proof.Machine

/-! ## Pseudo-instructions -/

theorem issue_one {i : Instr} (h : operandCount i = 1) (base : Nat) (a b : Word) (rest : HostProg) :
    issue base i a b rest = wrReg base .arg0 a (wrReg base .cmd (encode i) (.wait rest)) := by
  simp only [issue, h]

theorem issue_two {i : Instr} (h : operandCount i = 2) (base : Nat) (a b : Word) (rest : HostProg) :
    issue base i a b rest = wrReg base .arg0 a (wrReg base .arg1 b (wrReg base .cmd (encode i) (.wait rest))) := by
  simp only [issue, h]

/-- A register write stands in the encoding with its offset, wherever the register space lies (R78). -/
@[simp] theorem registerWrites_wrReg (base : Nat) (r : Reg) (v : Word) (rest : HostProg) :
    registerWrites base (wrReg base r v rest) =
      (registerWrites base rest).map (fun ws => (regOffset r, v) :: ws) := by
  simp [wrReg, registerWrites]

/-- Settles O5: the two commands by their number of operands, and their writes one by one. -/
theorem pseudoInstructionsExpandToTheirWrites : Obligations.PseudoInstructionsExpandToTheirWrites := by
  intro base
  have hbuild := issue_one (i := .buildLimit) rfl base 1000 0 .done
  have hwheel := issue_two (i := .wheelNew) rfl base 7 77 .done
  refine ⟨hbuild, ?_, hwheel, ?_⟩
  · rw [hbuild, registerWrites_wrReg, registerWrites_wrReg]; rfl
  · rw [hwheel, registerWrites_wrReg, registerWrites_wrReg, registerWrites_wrReg]; rfl

/-! ## WAIT -/

/-- BUSY is bit 0 of STATUS, also while a command is in flight (R23, R282). -/
theorem statusWord_bit_busy (s : State) : (statusWord s).getLsbD 0 = s.busy := by
  cases hb : s.busy
  · exact (statusWord_idle_bits hb).1
  · simp only [statusWord, hb, if_true]
    exact (packStatus_bits ..).1

@[simp] theorem statusWord_tick (s : State) : statusWord (tick s) = statusWord s := by
  simp [statusWord]

/-- A step at WAIT reads STATUS once, and goes on as the value read has BUSY = 0 (R77). -/
theorem step_wait {s : State} {rest : HostProg} (hm : engineMoves s = false) (hh : s.host = .wait rest) :
    step s = .next (deliver .status (statusWord s) (if s.busy then tick s else { s with host := rest })) := by
  have hh' : (tick s).host = .wait rest := (tick_host s).trans hh
  rw [step_of_host hm, hostStep, hh']
  simp only [statusWord_tick, statusWord_bit_busy]
  by_cases hb : s.busy = true
  · rw [if_pos hb, if_pos hb, hostRead_status (tick s), statusWord_tick]
  · rw [if_neg hb, if_neg hb, tick_of_idle (Bool.eq_false_iff.mpr hb)]
    exact hostRead_status { s with host := rest }

/-- Settles O9, from the step at WAIT and STATUS bit 0. -/
theorem waitPollsStatusUntilIdle : Obligations.WaitPollsStatusUntilIdle := by
  intro s rest hm hh
  refine ⟨fun hb => ⟨?_, (statusWord_bit_busy s).trans hb⟩, fun hb => ⟨?_, (statusWord_bit_busy s).trans hb⟩⟩
  · rw [step_wait hm hh, if_pos hb, tick_of_busy hb]; rfl
  · rw [step_wait hm hh, if_neg (by simp [hb])]; rfl

end Sys2Proof.Machine
end

section
/-! PROOFS. A completion reads no more of the latched operands than its command uses (spec/30_encoding.md R72). -/

namespace Sys2Proof.Machine

/-! What the primality and rank functions read is no operand, and an operand is read from its own half of the latch. -/

section
variable (f0 f1 g0 g1 : Word → Word) (s : State)

theorem primality_mapOperands (n : Nat) : primality (mapOperands f0 f1 g0 g1 s) n = primality s n := rfl

theorem rankFind_mapOperands (m : Nat) : rankFind (mapOperands f0 f1 g0 g1 s) m = rankFind s m := rfl

theorem operand0_mapOperands : operand0 (mapOperands f0 f1 id g1 s) = operand0 s := rfl

end

/-- A command without operands reads neither LARG0 nor LARG1 (R72). -/
theorem exec_mapLatch (g0 g1 : Word → Word) {i : Instr} {s t : State} (hi : operandCount i = 0)
    (h : exec i s = .next t) : exec i (mapOperands id id g0 g1 s) = .next (mapOperands id id g0 g1 t) := by
  cases i <;> injection h with h <;> subst h <;> refine congrArg Host.Outcome.next ?_
  case nop => rfl
  case wheelNext => exact ite_mapOperands rfl rfl
  case iterStart => exact withStore_mapOperands rfl
  case iterNext =>
    exact withStore_mapOperands (ite_mapOperands (ite_mapOperands rfl (iterDecode_mapOperands s)) rfl)
  case qLimit => exact withStore_mapOperands rfl
  case qNumPrimes => exact withStore_mapOperands rfl
  case clear => rfl
  all_goals exact absurd hi (by decide)

/-- A command with one operand reads it from LARG0, and nothing from LARG1 (R72). -/
theorem exec_mapLarg1 (g1 : Word → Word) {i : Instr} {s t : State} (hi : operandCount i = 1)
    (h : exec i s = .next t) : exec i (mapOperands id id id g1 s) = .next (mapOperands id id id g1 t) := by
  cases i <;> injection h with h <;> subst h <;> refine congrArg Host.Outcome.next ?_
  case codecMap => rfl
  case storeGet => exact withStore_mapOperands (ite_mapOperands rfl rfl)
  case scrFill => rfl
  case scrGet => exact withScratchIndex_mapOperands rfl
  case scrSetOn => exact withScratchIndex_mapOperands rfl
  case scrSetOff => exact withScratchIndex_mapOperands rfl
  case scrReadWord => exact withScratchWord_mapOperands rfl
  case iterSeek => exact withStore_mapOperands (ite_mapOperands rfl rfl)
  case buildLimit => exact ite_mapOperands rfl (build_mapOperands ..)
  case buildNprimes => exact ite_mapOperands rfl (build_mapOperands ..)
  case isPrime =>
    refine withStore_mapOperands ?_
    rw [primality_mapOperands, operand0_mapOperands]
    cases primality s (operand0 s) <;> rfl
  case nthPrime =>
    refine withStore_mapOperands (ite_mapOperands rfl (ite_mapOperands rfl ?_))
    rw [rankFind_mapOperands, operand0_mapOperands]
    cases rankFind s (operand0 s - 3) <;> rfl
  case rankFind =>
    refine withStore_mapOperands (ite_mapOperands rfl ?_)
    rw [rankFind_mapOperands, operand0_mapOperands]
    cases rankFind s (operand0 s) <;> rfl
  case storeWord => exact withStore_mapOperands (ite_mapOperands rfl rfl)
  all_goals exact absurd hi (by decide)

/-- Settles O57, by the number of operands: the change of what is not read passes through every ending.
That a build's SCR and NTRACK agree as well is the model's choice of draws by occasion (log 3), not R72's. -/
theorem commandsReadOnlyTheirOperands : Obligations.CommandsReadOnlyTheirOperands := by
  intro i s t a b h
  refine ⟨fun hle => ?_, fun hzero => exec_mapLatch (fun _ => a) (fun _ => b) hzero h⟩
  obtain hlt | hone := Nat.lt_or_eq_of_le hle
  · exact exec_mapLatch id (fun _ => b) (Nat.lt_one_iff.mp hlt) h
  · exact exec_mapLarg1 (fun _ => b) hone h

end Sys2Proof.Machine
end

section
/-! PROOFS. The codec family (spec/40_codec.md R102-R119): its tables, the reads and writes of one lane, and the array
that decoding and re-encoding give back. -/

namespace Sys2Proof.Machine

/-! ## Laws of the checks, the results and the arrays -/

theorem withScratchIndex_inside {s : State} (t : State) (h : operand0 s < 240 * s.cfg.segmentLen) :
    withScratchIndex s t = t := by
  obtain ⟨_, he⟩ | ⟨hge, _⟩ := withScratchIndex_cases s t
  · exact he
  · omega

theorem withScratchIndex_outside {s : State} (t : State) (h : 240 * s.cfg.segmentLen ≤ operand0 s) :
    withScratchIndex s t = raise .range s := by
  obtain ⟨hlt, _⟩ | ⟨_, he⟩ := withScratchIndex_cases s t
  · omega
  · exact he

theorem withScratchWord_inside {s : State} (t : State) (h : operand0 s < s.cfg.segmentLen) :
    withScratchWord s t = t := by
  obtain ⟨_, he⟩ | ⟨hge, _⟩ := withScratchWord_cases s t
  · exact he
  · omega

theorem withScratchWord_outside {s : State} (t : State) (h : s.cfg.segmentLen ≤ operand0 s) :
    withScratchWord s t = raise .range s := by
  obtain ⟨hlt, _⟩ | ⟨_, he⟩ := withScratchWord_cases s t
  · omega
  · exact he

theorem bitWord_eq_zero_or_one (b : Bool) : bitWord b = 0 ∨ bitWord b = 1 := by
  cases b
  · exact .inl rfl
  · exact .inr rfl

theorem bitWord_eq_one_iff (b : Bool) : bitWord b = 1 ↔ b = true := by
  cases b <;> decide

theorem wordAt_replicate (item : Item) {n j : Nat} (w : Word) (h : j < n) :
    wordAt item (List.replicate n w) j = w := by
  simp [wordAt, h]

theorem wordAt_set_self (item : Item) {a : List Word} {j : Nat} (w : Word) (h : j < a.length) :
    wordAt item (a.set j w) j = w := by
  simp [wordAt, h]

theorem wordAt_set_of_ne (item : Item) (a : List Word) {i j : Nat} (w : Word) (h : j ≠ i) :
    wordAt item (a.set i w) j = wordAt item a j := by
  simp [wordAt, List.getElem?_set_ne h.symm]

/-- An array is its lanes (R108). -/
theorem eq_of_lanes_eq (item : Item) {a c : List Word} (hlen : a.length = c.length)
    (h : ∀ j b, j < c.length → b < 64 → (wordAt item a j).getLsbD b = (wordAt item c j).getLsbD b) : a = c := by
  refine List.ext_getElem hlen fun j ha hc => BitVec.eq_of_getLsbD_eq fun b hb => ?_
  rw [← wordAt_lt (item := item) ha, ← wordAt_lt (item := item) hc]
  exact h j b hc hb

/-! ## The tables -/

theorem one_shiftLeft_eq_ofNat (b : Nat) : 1#64 <<< b = BitVec.ofNat 64 (2 ^ b) := by
  apply BitVec.eq_of_toNat_eq
  simp [Nat.one_shiftLeft]

/-- Settles O21, from the tables' laws: RESID is the written-out list, and the lanes of word 0 are the numbers below
240 that are coprime to 30. -/
theorem offsetListsTheCoprimeResidues : Obligations.OffsetListsTheCoprimeResidues := by
  refine ⟨fun _ _ => rfl, fun _ _ => offset_lt_offset, fun r hr => ⟨lane_of_coprime r hr, ?_⟩, fun b hb => ?_,
    fun r hr => (bitmap_eq_zero_iff hr).mpr⟩
  · rintro ⟨b, hb, rfl⟩
    exact offset_coprime hb
  · rw [bitmap_offset hb, one_shiftLeft_eq_ofNat]

/-- Settles O22: the mask is 0 at an index without a lane, and else it is the bit of the lane. -/
theorem codecMapGivesWordAndMask : Obligations.CodecMapGivesWordAndMask := by
  refine ⟨by decide, fun s => ⟨(codecMap s.larg0.toNat).2, rfl, ?_, fun b hb hr => ?_⟩⟩
  · obtain ⟨hg, hm⟩ | ⟨hg, b, hb, _, hm⟩ := codecMap_cases s.larg0.toNat <;> rw [hm]
    · exact iff_of_true rfl hg
    · exact iff_of_false (one_shiftLeft_ne_zero hb) (not_not_intro hg)
  · rw [codecMap, hr, bitmap_offset hb, one_shiftLeft_eq_ofNat]

/-! ## Reads -/

/-- `get` of any index: 1 iff the index has a lane and that lane is set (R104). -/
theorem codecGet_iff_lane (item : Item) (a : List Word) (idx : Nat) :
    codecGet item a idx = true ↔
      ∃ b, b < 64 ∧ idx % 240 = offset b ∧ (wordAt item a (idx / 240)).getLsbD b = true := by
  constructor
  · intro hget
    have hg : Nat.gcd idx 30 = 1 := by
      by_contra hne
      rw [codecGet_of_not_coprime item a hne] at hget
      cases hget
    obtain ⟨b, hb, hidx⟩ := lane_of_gcd hg
    rw [hidx, codecGet_lane item a _ hb] at hget
    exact ⟨b, hb, by omega, hget⟩
  · rintro ⟨b, hb, hmod, hbit⟩
    rwa [← codecGet_lane item a _ hb, ← hmod, Nat.div_add_mod] at hbit

/-- The result word of a `get` (R110, R114). -/
theorem bitWord_codecGet (item : Item) (a : List Word) (idx : Nat) :
    (bitWord (codecGet item a idx) = 0 ∨ bitWord (codecGet item a idx) = 1) ∧
    (bitWord (codecGet item a idx) = 1 ↔
      ∃ b, b < 64 ∧ idx % 240 = offset b ∧ (wordAt item a (idx / 240)).getLsbD b = true) :=
  ⟨bitWord_eq_zero_or_one _, (bitWord_eq_one_iff _).trans (codecGet_iff_lane item a idx)⟩

/-- Settles O23, by the two checks of STORE_GET in their order. -/
theorem storeGetReadsTheStoredBit : Obligations.StoreGetReadsTheStoredBit := by
  refine ⟨by decide, fun s => ⟨fun hr hlt => ⟨_, ?_, bitWord_codecGet .store s.store s.larg0.toNat⟩,
    fun hr hge => ?_, fun hr => ?_⟩⟩
  · exact congrArg Host.Outcome.next ((withStore_ready hr).trans (if_neg (Nat.not_le.mpr hlt)))
  · exact congrArg Host.Outcome.next ((withStore_ready hr).trans (if_pos hge))
  · exact congrArg Host.Outcome.next (withStore_empty hr)

/-- Settles O24, by the check of the index. -/
theorem scratchReads : Obligations.ScratchReads := by
  refine ⟨by decide, by decide, fun s => ⟨fun h => ⟨_, ?_, bitWord_codecGet .scr s.scr s.larg0.toNat⟩,
    fun h => ?_, fun h => ?_, fun h => ?_⟩⟩
  · exact congrArg Host.Outcome.next (withScratchIndex_inside _ h)
  · exact congrArg Host.Outcome.next (withScratchIndex_outside _ h)
  · exact congrArg Host.Outcome.next (withScratchWord_inside _ h)
  · exact congrArg Host.Outcome.next (withScratchWord_outside _ h)

/-! ## Writes -/

/-- Settles O25, from what `set_on` and `set_off` do to every lane. -/
theorem scratchLaneWrites : Obligations.ScratchLaneWrites := by
  refine ⟨by decide, by decide, fun s _ => ⟨fun h => ⟨?_, ?_⟩, fun h => ⟨?_, ?_⟩⟩⟩
  · refine ⟨codecSetOn s.scr s.larg0.toNat, congrArg Host.Outcome.next (withScratchIndex_inside _ h),
      codecSetOn_length .., fun j b hj hb => ?_⟩
    rw [codecSetOn_lane .scr _ hj hb, Bool.or_eq_true, decide_eq_true_eq]
  · refine ⟨codecSetOff s.scr s.larg0.toNat, congrArg Host.Outcome.next (withScratchIndex_inside _ h),
      codecSetOff_length .., fun j b hj hb => ?_⟩
    rw [codecSetOff_lane .scr _ hj hb, Bool.and_eq_true, decide_eq_true_eq]
  · exact congrArg Host.Outcome.next (withScratchIndex_outside _ h)
  · exact congrArg Host.Outcome.next (withScratchIndex_outside _ h)

/-- Settles O26: a fill writes the one word everywhere, a word write its own word; SCR has SEGMENT_LEN words (R112). -/
theorem scratchWordWrites : Obligations.ScratchWordWrites := by
  refine ⟨by decide, by decide, fun s hwf => ?_⟩
  obtain ⟨hscr, _, _⟩ := (memory_wf_iff s).mp hwf
  refine ⟨⟨List.replicate s.cfg.segmentLen s.larg0, rfl, List.length_replicate,
      fun _ => wordAt_replicate .scr s.larg0⟩,
    fun h => ⟨s.scr.set s.larg0.toNat s.larg1, congrArg Host.Outcome.next (withScratchWord_inside _ h), ?_,
      wordAt_set_self .scr s.larg1 (hscr.symm ▸ h), fun j => wordAt_set_of_ne .scr s.scr s.larg1⟩,
    fun h => congrArg Host.Outcome.next (withScratchWord_outside _ h)⟩
  rw [List.length_set, hscr]

/-! ## Decoding and re-encoding -/

theorem foldl_codecSetOn_length (vs : List Nat) (a : List Word) : (vs.foldl codecSetOn a).length = a.length := by
  induction vs generalizing a with
  | nil => rfl
  | cons v vs ih => rw [List.foldl_cons, ih, codecSetOn_length]

theorem foldl_codecSetOff_length (vs : List Nat) (a : List Word) : (vs.foldl codecSetOff a).length = a.length := by
  induction vs generalizing a with
  | nil => rfl
  | cons v vs ih => rw [List.foldl_cons, ih, codecSetOff_length]

/-- Setting a list of numbers sets the lanes of its members and no other (R105). -/
theorem foldl_codecSetOn_lane (item : Item) (vs : List Nat) {a : List Word} {j b : Nat} (hj : j < a.length)
    (hb : b < 64) :
    (wordAt item (vs.foldl codecSetOn a) j).getLsbD b = true ↔
      (wordAt item a j).getLsbD b = true ∨ 240 * j + offset b ∈ vs := by
  induction vs generalizing a with
  | nil => simp
  | cons v vs ih =>
    rw [List.foldl_cons, ih (by rwa [codecSetOn_length]), codecSetOn_lane item v hj hb, Bool.or_eq_true,
      decide_eq_true_eq, List.mem_cons, or_assoc]

/-- Clearing a list of numbers clears the lanes of its members and no other (R106). -/
theorem foldl_codecSetOff_lane (item : Item) (vs : List Nat) {a : List Word} {j b : Nat} (hj : j < a.length)
    (hb : b < 64) :
    (wordAt item (vs.foldl codecSetOff a) j).getLsbD b = true ↔
      (wordAt item a j).getLsbD b = true ∧ 240 * j + offset b ∉ vs := by
  induction vs generalizing a with
  | nil => simp
  | cons v vs ih =>
    rw [List.foldl_cons, ih (by rwa [codecSetOff_length]), codecSetOff_lane item v hj hb, Bool.and_eq_true,
      decide_eq_true_eq, List.mem_cons, not_or, and_assoc]

/-- A decode yields the number of a lane iff that lane is set (R150). -/
theorem lane_mem_decodeAll_iff (item : Item) (a : List Word) {n j b : Nat} (hj : j < n) (hb : b < 64) :
    240 * j + offset b ∈ decodeAll item a n ↔ (wordAt item a j).getLsbD b = true := by
  rw [mem_decodeAll_iff]
  constructor
  · rintro ⟨k, c, _, hc, hbit, he⟩
    obtain ⟨rfl, rfl⟩ := lane_number_inj hb hc he
    exact hbit
  · exact fun hbit => ⟨j, b, hj, hb, hbit, rfl⟩

/-- Settles O27, lane by lane: the number of a lane is among the values decoded iff the lane is set in the array, and
among the others iff it is not, so each lane is written once, to what it was. -/
theorem decodeThenReencodeGivesTheArrayBack : Obligations.DecodeThenReencodeGivesTheArrayBack := by
  intro a a0 hlen values others
  refine eq_of_lanes_eq .scr (by rw [foldl_codecSetOff_length, foldl_codecSetOn_length, hlen]) fun j b hj hb => ?_
  have hvalues : 240 * j + offset b ∈ values ↔ (wordAt .scr a j).getLsbD b = true :=
    lane_mem_decodeAll_iff .scr a hj hb
  have hothers : 240 * j + offset b ∈ others ↔ 240 * j + offset b ∉ values := by
    have hoff := offset_lt hb
    have hlt : 240 * j + offset b < 240 * a.length := by omega
    simp [others, hlt, lane_coprime j hb]
  rw [Bool.eq_iff_iff, foldl_codecSetOff_lane .scr others (by rwa [foldl_codecSetOn_length, hlen]) hb,
    foldl_codecSetOn_lane .scr values (by rwa [hlen]) hb, hothers, not_not, hvalues]
  exact and_iff_right_of_imp .inr

end Sys2Proof.Machine
end

section
/-! PROOFS. The wheel family (spec/41_wheel.md R133-R135): what its two commands do, and the multiples that the gaps
lead through. -/

namespace Sys2Proof.Machine

/-! ## The two commands -/

/-- The operand check of WHEEL_NEW is R133's domain. -/
theorem wheelOperandsOk_iff (num mult : Nat) :
    wheelOperandsOk num mult = true ↔
      1 ≤ num ∧ num ≤ 3074457345618258602 ∧ num ∣ mult ∧ Nat.Coprime (mult / num) 30 := by
  simp only [wheelOperandsOk, Bool.and_eq_true, decide_eq_true_eq, and_assoc, Nat.one_le_iff_ne_zero,
    Nat.dvd_iff_mod_eq_zero]
  rfl

theorem exec_wheelNew_accepted {s : State} (h : wheelOperandsOk s.larg0.toNat s.larg1.toNat = true) :
    exec .wheelNew s = .next (finish { s with
      wnum := s.larg0, widx := wheelPos (s.larg1.toNat / s.larg0.toNat), wv := true }) :=
  congrArg Host.Outcome.next (if_pos h)

theorem exec_wheelNew_rejected {s : State} (h : ¬ wheelOperandsOk s.larg0.toNat s.larg1.toNat = true) :
    exec .wheelNew s = .next (raise .operand s) :=
  congrArg Host.Outcome.next (if_neg h)

theorem exec_wheelNext_valid {s : State} (h : s.wv = true) :
    exec .wheelNext s = .next (finishWith (word (gap s.widx * s.wnum.toNat)) (s.widx.setWidth 64)
      { s with widx := s.widx + 1 }) :=
  congrArg Host.Outcome.next (if_pos h)

theorem exec_wheelNext_invalid {s : State} (h : s.wv = false) : exec .wheelNext s = .next (raise .state s) :=
  congrArg Host.Outcome.next (if_neg (by simp [h]))

/-- R133's cap on the base keeps every gap in a word: no gap is above 6, and `6·cap < 2^64`. -/
theorem toNat_word_gap_mul {num : Nat} (wi : BitVec 3) (h : num ≤ 3074457345618258602) :
    (word (gap wi * num)).toNat = gap wi * num := by
  obtain ⟨_, hgap⟩ := gap_bounds wi
  exact toNat_word ((Nat.mul_le_mul hgap h).trans_lt (by decide))

/-- Settles O28, by the operand check. -/
theorem wheelNewStartsAtTheMultiplier : Obligations.WheelNewStartsAtTheMultiplier := by
  refine ⟨by decide, fun s => ⟨fun h => ?_, fun h => ?_⟩⟩
  · have ⟨_, _, _, hcop⟩ := h
    exact ⟨_, exec_wheelNew_accepted ((wheelOperandsOk_iff _ _).mpr h), wheelPos_spec hcop⟩
  · exact exec_wheelNew_rejected (mt (wheelOperandsOk_iff _ _).mp h)

/-- Settles O29: the gap fits a word, so RES0 is exact. -/
theorem wheelNextGivesTheGap : Obligations.WheelNextGivesTheGap :=
  ⟨by decide, fun s => ⟨fun hv hcap => ⟨_, exec_wheelNext_valid hv, toNat_word_gap_mul s.widx hcap⟩,
    exec_wheelNext_invalid⟩⟩

/-! ## The multipliers: R135's `k_0 < k_1 < k_2 < ...` -/

/-- `k_n`: the `n`-th integer from `k` on that is coprime to 30. -/
noncomputable def multiplierFrom (k n : Nat) : Nat := Nat.nth (fun x => k ≤ x ∧ Nat.Coprime x 30) n

/-- The next member of an infinite set after its `n`-th is its `n+1`-st. -/
theorem nth_succ_eq_of_next {p : Nat → Prop} (hinf : (Set.ofPred p).Infinite) {n m : Nat} (hm : p m)
    (hlt : Nat.nth p n < m) (hnone : ∀ x, Nat.nth p n < x → x < m → ¬ p x) : Nat.nth p (n + 1) = m := by
  refine Nat.le_antisymm (Nat.le_of_not_lt fun h => ?_) (Nat.le_of_not_lt fun h => ?_)
  · exact Nat.not_le_of_lt hlt (Nat.le_nth_of_lt_nth_succ h hm)
  · exact hnone _ (Nat.nth_strictMono hinf n.lt_succ_self) h (Nat.nth_mem_of_infinite hinf (n + 1))

/-- The multipliers never end: `k + 30·j` is one for every `j`. -/
theorem multipliers_infinite {k : Nat} (hk : Nat.Coprime k 30) :
    (Set.ofPred fun x => k ≤ x ∧ Nat.Coprime x 30).Infinite := by
  refine Set.infinite_of_injective_forall_mem (f := fun j => k + 30 * j) (fun i j h => ?_) fun j => ?_
  · simpa using h
  · exact ⟨Nat.le_add_right .., (Nat.coprime_add_mul_left_left ..).mpr hk⟩

theorem le_multiplierFrom {k : Nat} (hk : Nat.Coprime k 30) (n : Nat) : k ≤ multiplierFrom k n :=
  (Nat.nth_mem_of_infinite (multipliers_infinite hk) n).1

theorem multiplierFrom_coprime {k : Nat} (hk : Nat.Coprime k 30) (n : Nat) : Nat.Coprime (multiplierFrom k n) 30 :=
  (Nat.nth_mem_of_infinite (multipliers_infinite hk) n).2

theorem multiplierFrom_zero {k : Nat} (hk : Nat.Coprime k 30) : multiplierFrom k 0 = k :=
  Nat.nth_zero.trans (IsLeast.csInf_eq ⟨⟨Nat.le_refl k, hk⟩, fun _ hx => hx.1⟩)

/-- One gap further is the next multiplier (R131, R132). -/
theorem multiplierFrom_succ {k : Nat} (hk : Nat.Coprime k 30) (n : Nat) :
    multiplierFrom k (n + 1) = multiplierFrom k n + gap (wheelPos (multiplierFrom k n)) := by
  obtain ⟨hcop, _, hnone⟩ := gap_next (multiplierFrom_coprime hk n)
  obtain ⟨hpos, _⟩ := gap_bounds (wheelPos (multiplierFrom k n))
  exact nth_succ_eq_of_next (multipliers_infinite hk) ⟨Nat.le_add_right_of_le (le_multiplierFrom hk n), hcop⟩
    (Nat.lt_add_of_pos_right (by omega)) fun x hlo hhi hx => hnone x hlo hhi hx.2

/-- A base coprime to 30 takes the multipliers to all its multiples that are coprime to 30: multiplying by it keeps the
order, and it changes no factor 2, 3 or 5. -/
theorem mul_multiplierFrom {num k : Nat} (hnum : 1 ≤ num) (hk : Nat.Coprime k 30) (hcop : Nat.Coprime num 30)
    (n : Nat) : num * multiplierFrom k n = Nat.nth (fun m => num * k ≤ m ∧ num ∣ m ∧ Nat.Coprime m 30) n := by
  have hmono : StrictMono (num * ·) := strictMono_mul_left_of_pos hnum
  have hiff : ∀ x, (num * k ≤ num * x ∧ num ∣ num * x ∧ Nat.Coprime (num * x) 30) ↔ (k ≤ x ∧ Nat.Coprime x 30) := by
    intro x
    rw [hmono.le_iff_le, Nat.coprime_mul_iff_left, and_iff_right (Nat.dvd_mul_right num x), and_iff_right hcop]
  have hinf : (Set.ofPred fun m => num * k ≤ m ∧ num ∣ m ∧ Nat.Coprime m 30).Infinite :=
    ((multipliers_infinite hk).image hmono.injective.injOn).mono (Set.image_subset_iff.mpr fun x hx => (hiff x).mpr hx)
  have hrange : ∀ m, (num * k ≤ m ∧ num ∣ m ∧ Nat.Coprime m 30) → m ∈ Set.range (num * ·) := by
    rintro _ ⟨_, ⟨x, rfl⟩, _⟩
    exact ⟨x, rfl⟩
  have hnth := Nat.nth_comp_of_strictMono (n := n) hmono hrange fun hfin => absurd hfin hinf
  simp only [hiff] at hnth
  exact hnth

/-! ## A run of WHEEL_NEXT -/

theorem repeatCommand_succ (i : Instr) (n : Nat) (s : State) :
    repeatCommand i (n + 1) s = stateOr (repeatCommand i n s) (exec i (repeatCommand i n s)) := by
  induction n generalizing s with
  | zero => rfl
  | succ n ih => exact ih (stateOr s (exec i s))

/-- The wheel unit stands at the multiple `num·k` of its base. -/
structure WheelAt (num k : Nat) (s : State) : Prop where
  valid : s.wv = true
  base : s.wnum.toNat = num
  index : s.widx = wheelPos k

/-- WHEEL_NEW leaves the unit at the multiple it is given (R133). -/
theorem WheelAt.ofWheelNew {s : State} {num k : Nat} (hnum : 1 ≤ num) (hcap : num ≤ 3074457345618258602)
    (hk : Nat.Coprime k 30) (h0 : s.larg0.toNat = num) (h1 : s.larg1.toNat = num * k) :
    WheelAt num k (stateOr s (exec .wheelNew s)) := by
  have hquot : s.larg1.toNat / s.larg0.toNat = k := by rw [h0, h1, Nat.mul_div_cancel_left k hnum]
  have hok : wheelOperandsOk s.larg0.toNat s.larg1.toNat = true := by
    rw [wheelOperandsOk_iff, hquot, h0, h1]
    exact ⟨hnum, hcap, Nat.dvd_mul_right num k, hk⟩
  rw [exec_wheelNew_accepted hok]
  exact ⟨rfl, h0, congrArg wheelPos hquot⟩

/-- WHEEL_NEXT takes the unit one gap further and answers with the exact distance (R134). -/
theorem WheelAt.next {s : State} {num k : Nat} (h : WheelAt num k s) (hcap : num ≤ 3074457345618258602)
    (hk : Nat.Coprime k 30) :
    WheelAt num (k + gap (wheelPos k)) (stateOr s (exec .wheelNext s)) ∧
      (stateOr s (exec .wheelNext s)).res0.toNat = gap (wheelPos k) * num := by
  obtain ⟨hv, hbase, hidx⟩ := h
  obtain ⟨_, hnext, _⟩ := gap_next hk
  rw [exec_wheelNext_valid hv, hbase, hidx]
  exact ⟨⟨hv, hbase, hnext.symm⟩, toNat_word_gap_mul (wheelPos k) hcap⟩

/-- After `n` gaps the unit stands at `num·k_n`, and the start plus the gaps is that number. -/
theorem WheelAt.repeatNext {s : State} {num k : Nat} (h : WheelAt num k s) (hcap : num ≤ 3074457345618258602)
    (hk : Nat.Coprime k 30) (n : Nat) :
    WheelAt num (multiplierFrom k n) (repeatCommand .wheelNext n s) ∧
      num * k + wheelSum s n = num * multiplierFrom k n := by
  induction n with
  | zero =>
    rw [multiplierFrom_zero hk]
    exact ⟨h, rfl⟩
  | succ n ih =>
    obtain ⟨hat, hsum⟩ := ih
    obtain ⟨hat', hres⟩ := hat.next hcap (multiplierFrom_coprime hk n)
    rw [wheelSum, repeatCommand_succ, multiplierFrom_succ hk, hres, ← Nat.add_assoc, hsum, Nat.mul_add,
      Nat.mul_comm (gap _)]
    exact ⟨hat', rfl⟩

/-- Settles O30: the run of WHEEL_NEXT follows the multipliers, and a base coprime to 30 carries them to its
multiples. -/
theorem wheelEnumeratesTheMultiples : Obligations.WheelEnumeratesTheMultiples := by
  intro s num k hnum hcap hk h0 h1 n
  obtain ⟨_, hsum⟩ := (WheelAt.ofWheelNew hnum hcap hk h0 h1).repeatNext hcap hk n
  exact ⟨hsum, fun hcop => hsum.trans (mul_multiplierFrom hnum hk hcop n)⟩

end Sys2Proof.Machine
end

section
/-! PROOFS. The iterator commands, one equation per outcome (spec/42_decoder.md R152-R156), and what an iterator that
has ended does next. -/

namespace Sys2Proof.Machine

/-! ## ITER_START and ITER_SEEK -/

theorem exec_iterStart_ready {s : State} (h : s.ready = true) :
    exec .iterStart s = .next (finish { s with
      itph := 0, itw := 0, itcur := cursorWord .store s.store s.nwords.toNat 0, itv := true }) :=
  congrArg Host.Outcome.next (withStore_ready h)

theorem exec_iterStart_empty {s : State} (h : s.ready = false) : exec .iterStart s = .next (raise .noStore s) :=
  congrArg Host.Outcome.next (withStore_empty h)

theorem exec_iterSeek_inside {s : State} (h : s.ready = true) (hi : s.larg0.toNat ≤ s.nwords.toNat) :
    exec .iterSeek s = .next (finish { s with
      itph := 3, itw := s.larg0, itcur := cursorWord .store s.store s.nwords.toNat s.larg0.toNat, itv := true }) :=
  congrArg Host.Outcome.next ((withStore_ready h).trans (if_neg (Nat.not_lt.mpr hi)))

theorem exec_iterSeek_beyond {s : State} (h : s.ready = true) (hi : s.nwords.toNat < s.larg0.toNat) :
    exec .iterSeek s = .next (raise .range s) :=
  congrArg Host.Outcome.next ((withStore_ready h).trans (if_pos hi))

theorem exec_iterSeek_empty {s : State} (h : s.ready = false) : exec .iterSeek s = .next (raise .noStore s) :=
  congrArg Host.Outcome.next (withStore_empty h)

/-- Settles O31, clause by clause. -/
theorem iteratorStartsAndSeeks : Obligations.IteratorStartsAndSeeks :=
  ⟨by decide, by decide, fun _ => ⟨exec_iterStart_ready, exec_iterStart_empty, exec_iterSeek_inside,
    exec_iterSeek_beyond, exec_iterSeek_empty⟩⟩

/-! ## ITER_NEXT -/

theorem exec_iterNext_empty {s : State} (h : s.ready = false) : exec .iterNext s = .next (raise .noStore s) :=
  congrArg Host.Outcome.next (withStore_empty h)

theorem exec_iterNext_noCursor {s : State} (h : s.ready = true) (hv : s.itv = false) :
    exec .iterNext s = .next (raise .state s) :=
  congrArg Host.Outcome.next ((withStore_ready h).trans (if_neg (by simp [hv])))

theorem exec_iterNext_implicit {s : State} (h : s.ready = true) (hv : s.itv = true) (hp : s.itph.toNat < 3) :
    exec .iterNext s =
      .next (finishWith (word (implicitPrimes.getD s.itph.toNat 0)) 0 { s with itph := s.itph + 1 }) :=
  congrArg Host.Outcome.next ((withStore_ready h).trans ((if_pos hv).trans (if_pos hp)))

theorem exec_iterNext_decode {s : State} (h : s.ready = true) (hv : s.itv = true) (hp : 3 ≤ s.itph.toNat) :
    exec .iterNext s = .next (iterDecode s) :=
  congrArg Host.Outcome.next ((withStore_ready h).trans ((if_pos hv).trans (if_neg (Nat.not_lt.mpr hp))))

theorem iterDecode_value {s : State} {v w : Nat} {cur : Word}
    (h : decNext .store s.store s.nwords.toNat s.itw.toNat s.itcur = .value v w cur) :
    iterDecode s = finishWith (word v) 0 { s with itw := word w, itcur := cur } := by
  rw [iterDecode, h]

theorem iterDecode_ended {s : State} {w : Nat} {cur : Word}
    (h : decNext .store s.store s.nwords.toNat s.itw.toNat s.itcur = .ended w cur) :
    iterDecode s = finishIndet { s with itw := word w, itcur := cur } := by
  rw [iterDecode, h]

/-- Settles O32, clause by clause. -/
theorem iterNextGivesTheImplicitPrimes : Obligations.IterNextGivesTheImplicitPrimes :=
  fun _ => ⟨exec_iterNext_implicit, exec_iterNext_noCursor, exec_iterNext_empty⟩

/-- Clearing the lowest bit takes away the one bit at its position (R11). -/
theorem clearLowest_eq_of_lowest {w : Word} {b : Nat} (hb : w.getLsbD b = true)
    (hlow : ∀ c, c < b → w.getLsbD c = false) : clearLowest w = w &&& ~~~(1#64 <<< b) := by
  have hne : w ≠ 0 := fun h => not_bit_of_zero (h ▸ hb)
  refine BitVec.eq_of_getLsbD_eq fun i hi => ?_
  rw [clearLowest_getLsbD hne, tz_unique hb hlow, BitVec.getLsbD_and, BitVec.getLsbD_not,
    getLsbD_one_shiftLeft hi]
  simp [hi]

/-- A cursor with bits left yields its lowest lane and stays in its word (R151, R155). -/
theorem iterDecode_current {s : State} {b : Nat} (hb : s.itcur.getLsbD b = true)
    (hlow : ∀ c, c < b → s.itcur.getLsbD c = false) :
    iterDecode s =
      finishWith (word (240 * s.itw.toNat + offset b)) 0 { s with itcur := s.itcur &&& ~~~(1#64 <<< b) } := by
  have hne : s.itcur ≠ 0 := fun h => not_bit_of_zero (h ▸ hb)
  rw [iterDecode_value (decNext_of_ne_zero .store s.store _ _ hne), tz_unique hb hlow,
    clearLowest_eq_of_lowest hb hlow, word_toNat]

/-- A cursor without bits goes on to the next nonzero word (R151, R155). -/
theorem iterDecode_skip {s : State} {w b : Nat} (hcur : s.itcur = 0) (hw : s.itw.toNat < w) (hn : w < s.nwords.toNat)
    (hz : ∀ u, s.itw.toNat < u → u < w → wordAt .store s.store u = 0)
    (hb : (wordAt .store s.store w).getLsbD b = true)
    (hlow : ∀ c, c < b → (wordAt .store s.store w).getLsbD c = false) :
    iterDecode s = finishWith (word (240 * w + offset b)) 0
      { s with itw := word w, itcur := wordAt .store s.store w &&& ~~~(1#64 <<< b) } := by
  have hne : wordAt .store s.store w ≠ 0 := fun h => not_bit_of_zero (h ▸ hb)
  rw [iterDecode_value (hcur.symm ▸ decNext_skip .store s.store _ _ _ hw hn hz hne), tz_unique hb hlow,
    clearLowest_eq_of_lowest hb hlow]

/-- With no bit and no nonzero word left the iterator ends at NWORDS (R151, R155). -/
theorem iterDecode_exhausted {s : State} (hcur : s.itcur = 0)
    (hz : ∀ u, s.itw.toNat < u → u < s.nwords.toNat → wordAt .store s.store u = 0) :
    iterDecode s = finishIndet { s with itw := s.nwords, itcur := 0 } := by
  have hd : decNext .store s.store s.nwords.toNat s.itw.toNat s.itcur = .ended s.nwords.toNat 0 := by
    rw [hcur]; exact decNext_ended .store s.store _ _ hz
  rw [iterDecode_ended hd, word_toNat]

/-- Settles O33: each clause is one outcome of the decode step. -/
theorem iterNextDecodesTheNextLane : Obligations.IterNextDecodesTheNextLane := by
  intro s hr hv hp
  rw [exec_iterNext_decode hr hv (by rw [hp]; decide)]
  refine ⟨fun b hb hlow => ?_, fun w b hcur hw hn hz hb hlow => ?_, fun hcur hz => ?_⟩
  · rw [iterDecode_current hb hlow]; rfl
  · rw [iterDecode_skip hcur hw hn hz hb hlow]; rfl
  · rw [iterDecode_exhausted hcur hz]; rfl

/-! ## After the end -/

/-- The iterator has ended: the cursor is valid and decoding, and what an exhausted decode step writes is in place
already (R24, R155, R156). -/
structure IterEnded (t : State) : Prop where
  ready : t.ready = true
  valid : t.itv = true
  phase : 3 ≤ t.itph.toNat
  settled : finishIndet { t with itw := t.nwords, itcur := 0 } = t

theorem IterEnded.itw_eq {t : State} (h : IterEnded t) : t.itw = t.nwords := (congrArg State.itw h.settled).symm
theorem IterEnded.itcur_eq {t : State} (h : IterEnded t) : t.itcur = 0 := (congrArg State.itcur h.settled).symm
theorem IterEnded.res0_eq {t : State} (h : IterEnded t) : t.res0 = 0 := (congrArg State.res0 h.settled).symm
theorem IterEnded.res1_eq {t : State} (h : IterEnded t) : t.res1 = 0 := (congrArg State.res1 h.settled).symm
theorem IterEnded.rv_eq {t : State} (h : IterEnded t) : t.rv = false := (congrArg State.rv h.settled).symm
theorem IterEnded.err_eq {t : State} (h : IterEnded t) : t.err = .none := (congrArg State.err h.settled).symm

/-- The ended iterator is a fixed point of ITER_NEXT (R156). -/
theorem IterEnded.next {t : State} (h : IterEnded t) : exec .iterNext t = .next t := by
  have hz : ∀ u, t.itw.toNat < u → u < t.nwords.toNat → wordAt .store t.store u = 0 := fun u hlo hhi => by
    rw [h.itw_eq] at hlo; omega
  rw [exec_iterNext_decode h.ready h.valid h.phase, iterDecode_exhausted h.itcur_eq hz, h.settled]

theorem IterEnded.repeatNext {t : State} (h : IterEnded t) (n : Nat) : repeatCommand .iterNext n t = t := by
  induction n with
  | zero => rfl
  | succ n ih => rw [repeatCommand, h.next]; exact ih

/-- A decode step that ends leaves an ended iterator. -/
theorem iterEnded_of_decNext {s : State} {w : Nat} {cur : Word} (hr : s.ready = true) (hv : s.itv = true)
    (hp : 3 ≤ s.itph.toNat) (hd : decNext .store s.store s.nwords.toNat s.itw.toNat s.itcur = .ended w cur) :
    IterEnded (iterDecode s) := by
  rw [iterDecode_ended hd]
  obtain ⟨_, he⟩ | ⟨_, _, _, _, _, _, he⟩ | ⟨_, _, he⟩ :=
    decNext_cases .store s.store s.nwords.toNat s.itw.toNat s.itcur <;> rw [he] at hd <;> cases hd
  rw [word_toNat]
  exact ⟨hr, hv, hp, rfl⟩

/-- ITER_NEXT without an error and without a value is the end: only the decode step completes so (R154, R155). -/
theorem iterEnded_of_iterNext {s t : State} (h : exec .iterNext s = .next t) (he : t.err = .none)
    (hrv : t.rv = false) : IterEnded t := by
  cases hr : s.ready with
  | false => rw [exec_iterNext_empty hr] at h; cases h; cases he
  | true =>
    cases hv : s.itv with
    | false => rw [exec_iterNext_noCursor hr hv] at h; cases h; cases he
    | true =>
      rcases Nat.lt_or_ge s.itph.toNat 3 with hp | hp
      · rw [exec_iterNext_implicit hr hv hp] at h; cases h; cases hrv
      · rw [exec_iterNext_decode hr hv hp] at h
        cases h
        cases hd : decNext .store s.store s.nwords.toNat s.itw.toNat s.itcur with
        | value v w cur => rw [iterDecode_value hd] at hrv; cases hrv
        | ended w cur => exact iterEnded_of_decNext hr hv hp hd

/-- Settles O34: the end is a fixed point. -/
theorem exhaustedIteratorStaysExhausted : Obligations.ExhaustedIteratorStaysExhausted := by
  intro s t h he hrv
  have hend := iterEnded_of_iterNext h he hrv
  exact ⟨hend.valid, hend.itw_eq, hend.itcur_eq, hend.res0_eq, hend.res1_eq, hend.repeatNext⟩

end Sys2Proof.Machine
end

section
/-! PROOFS. The stored lanes against the primes, and the iteration from ITER_START to its end (spec/10_state.md R32,
R42, spec/42_decoder.md R157). -/

namespace Sys2Proof.Machine

/-! ## How many primes a store holds -/

/-- The lanes of a word are the residues mod 240 that are coprime to 30, in order (R102). -/
theorem map_offset_range :
    (List.range 64).map offset = (List.range 240).filter fun r => Nat.gcd r 30 == 1 := by decide

/-- A word whose lanes say `P` of their residues counts the residues with `P` that have a lane. -/
theorem popcount_eq_count {w : Word} {P : Nat → Prop} [DecidablePred P]
    (h : ∀ b < 64, w.getLsbD b = true ↔ P (offset b)) :
    popcount w = Nat.count (fun r => Nat.gcd r 30 = 1 ∧ P r) 240 := by
  calc popcount w
    _ = (List.range 64).countP ((fun r => decide (P r)) ∘ offset) :=
        List.countP_congr fun b hb => by simpa using h b (List.mem_range.mp hb)
    _ = ((List.range 240).filter fun r => Nat.gcd r 30 == 1).countP fun r => decide (P r) := by
        rw [← List.countP_map, map_offset_range]
    _ = Nat.count (fun r => Nat.gcd r 30 = 1 ∧ P r) 240 := by
        rw [List.countP_filter, Nat.count]
        exact List.countP_congr fun r _ => by simp [and_comm]

/-- The set lanes of the first words are the primes below them that have a lane (R32, R42). -/
theorem StoreExact.storedBelow_eq {s : State} (h : StoreExact s) {i : Nat} (hi : i ≤ s.nwords.toNat) :
    storedBelow s i = Nat.count (fun p => Nat.gcd p 30 = 1 ∧ Nat.Prime p) (240 * i) := by
  induction i with
  | zero => rfl
  | succ i ih =>
    have hgcd : ∀ r, Nat.gcd (240 * i + r) 30 = Nat.gcd r 30 := fun r => gcd_thirty_congr (by omega)
    have hword := popcount_eq_count (P := fun r => Nat.Prime (240 * i + r)) fun b hb => h i b hi hb
    rw [storedBelow_succ, ih (by omega), hword, Nat.mul_succ, Nat.count_add]
    simp only [hgcd]

/-- Only 2, 3 and 5 have no lane (R101, R223). -/
theorem count_prime_of_seven_le {m : Nat} (hm : 7 ≤ m) :
    Nat.count Nat.Prime m = 3 + Nat.count (fun p => Nat.gcd p 30 = 1 ∧ Nat.Prime p) m := by
  induction m, hm using Nat.le_induction with
  | base => decide
  | succ m hm ih =>
    have hiff : (Nat.gcd m 30 = 1 ∧ Nat.Prime m) ↔ Nat.Prime m :=
      ⟨And.right, fun hp => ⟨gcd_thirty_of_prime hp hm, hp⟩⟩
    rw [Nat.count_succ, Nat.count_succ, ih, if_congr hiff rfl rfl, Nat.add_assoc]

/-- An exact store holds the primes from 7 to below LIMIT, so with 2, 3 and 5 there are as many as below LIMIT, or
below 7 when LIMIT = 0 (R30, R42). -/
theorem InvExact.count_prime {s : State} (h : InvExact s) :
    Nat.count Nat.Prime (max 7 s.limit.toNat) = 3 + storedPrimes s := by
  obtain ⟨hinv, hexact⟩ := h
  have hstored := hexact.storedBelow_eq (Nat.le_refl s.nwords.toNat)
  rw [count_prime_of_seven_le (Nat.le_max_left ..), storedPrimes, hstored, hinv.limitIs]
  rcases Nat.eq_zero_or_pos s.nwords.toNat with h0 | hpos
  · rw [h0]; decide
  · rw [Nat.max_eq_right (by omega)]

/-- The `k`-th prime is among 2, 3, 5 and the stored ones exactly when it is below LIMIT, or below 7. -/
theorem InvExact.nth_prime_lt_iff {s : State} (h : InvExact s) (k : Nat) :
    Nat.nth Nat.Prime k < max 7 s.limit.toNat ↔ k < 3 + storedPrimes s := by
  rw [← h.count_prime, Nat.lt_nth_iff_count_lt Nat.infinite_setOfPred_prime]

theorem seven_le_nth_prime_iff (k : Nat) : 7 ≤ Nat.nth Nat.Prime k ↔ 3 ≤ k := by
  rw [← Nat.nth_prime_three_eq_seven, Nat.nth_le_nth Nat.infinite_setOfPred_prime]

/-- The primes from 7 to below LIMIT by their numbers among all primes. -/
theorem InvExact.prime_lt_limit_iff {s : State} (h : InvExact s) (p : Nat) :
    (7 ≤ p ∧ Nat.Prime p ∧ p < s.limit.toNat) ↔
      ∃ k, 3 ≤ k ∧ k < 3 + storedPrimes s ∧ Nat.nth Nat.Prime k = p := by
  constructor
  · rintro ⟨h7, hp, hlt⟩
    have hnth : Nat.nth Nat.Prime (Nat.count Nat.Prime p) = p := Nat.nth_count hp
    refine ⟨_, ?_, ?_, hnth⟩
    · rwa [← seven_le_nth_prime_iff, hnth]
    · rw [← h.nth_prime_lt_iff, hnth]; omega
  · rintro ⟨k, h3, hk, rfl⟩
    have h7 := (seven_le_nth_prime_iff k).mpr h3
    have hlt := (h.nth_prime_lt_iff k).mpr hk
    exact ⟨h7, Nat.prime_nth_prime k, by omega⟩

/-- A whole decode of an exact store yields the primes from 7 to below LIMIT (R42, R159). -/
theorem InvExact.mem_decodeAll_iff {s : State} (h : InvExact s) (p : Nat) :
    p ∈ decodeAll .store s.store s.nwords.toNat ↔ 7 ≤ p ∧ Nat.Prime p ∧ p < s.limit.toNat := by
  obtain ⟨hinv, hexact⟩ := h
  rw [Machine.mem_decodeAll_iff, hinv.limitIs]
  constructor
  · rintro ⟨j, b, hj, hb, hbit, rfl⟩
    have hp := (hexact j b hj hb).mp hbit
    have := offset_lt hb
    exact ⟨seven_le_of_prime hp (lane_coprime j hb), hp, by omega⟩
  · rintro ⟨h7, hp, hlt⟩
    obtain ⟨b, hb, hlane⟩ := lane_of_gcd (gcd_thirty_of_prime hp h7)
    have hj : p / 240 < s.nwords.toNat := Nat.div_lt_of_lt_mul hlt
    exact ⟨_, b, hj, hb, (hexact _ b hj hb).mpr (hlane ▸ hp), hlane⟩

/-! ## One element -/

/-- The iterator has given the first `k` primes and has those up to the `total`-th still to give. -/
structure IterAt (total k : Nat) (u : State) : Prop where
  ready : u.ready = true
  valid : u.itv = true
  phase : u.itph.toNat = min k 3
  pending : ∀ p, Pending .store u.store u.nwords.toNat u.itw.toNat u.itcur p ↔
    ∃ j, max k 3 ≤ j ∧ j < total ∧ Nat.nth Nat.Prime j = p

/-- ITER_NEXT gives the `k`-th prime and goes on to the next (R154, R155). -/
def GivesPrime (total k : Nat) (u : State) : Prop :=
  ∃ t, exec .iterNext u = .next t ∧ IterAt total (k + 1) t ∧ t.rv = true ∧ t.res0 = word (Nat.nth Nat.Prime k)

theorem implicitPrimes_getD {k : Nat} (hk : k < 3) : implicitPrimes.getD k 0 = Nat.nth Nat.Prime k := by
  match k, hk with
  | 0, _ => exact Nat.nth_prime_zero_eq_two.symm
  | 1, _ => exact Nat.nth_prime_one_eq_three.symm
  | 2, _ => exact Nat.nth_prime_two_eq_five.symm

/-- After ITER_START everything is still to come (R152). -/
theorem IterAt.ofIterStart {s t : State} (h : InvExact s) (hr : s.ready = true) (ht : exec .iterStart s = .next t) :
    IterAt (3 + storedPrimes s) 0 t := by
  rw [exec_iterStart_ready hr] at ht
  cases ht
  refine ⟨hr, rfl, rfl, fun p => ?_⟩
  calc Pending .store s.store s.nwords.toNat 0 (cursorWord .store s.store s.nwords.toNat 0) p
    _ ↔ p ∈ decodeAll .store s.store s.nwords.toNat := (mem_decodeFrom_iff (pendingBound_start ..) p).symm
    _ ↔ 7 ≤ p ∧ Nat.Prime p ∧ p < s.limit.toNat := h.mem_decodeAll_iff p
    _ ↔ ∃ k, max 0 3 ≤ k ∧ k < 3 + storedPrimes s ∧ Nat.nth Nat.Prime k = p := h.prime_lt_limit_iff p

/-- The first three elements (R154). -/
theorem IterAt.next_implicit {total k : Nat} {u : State} (h : IterAt total k u) (hk : k < 3) :
    GivesPrime total k u := by
  obtain ⟨hr, hv, hp, hpend⟩ := h
  rw [Nat.min_eq_left (by omega)] at hp
  refine ⟨_, exec_iterNext_implicit hr hv (hp ▸ hk), ⟨hr, hv, ?_, ?_⟩, rfl, ?_⟩
  · rw [finishWith_itph, BitVec.toNat_add, hp, Nat.min_eq_left (by omega)]
    exact Nat.mod_eq_of_lt (by simp; omega)
  · rwa [Nat.max_eq_right (by omega)] at hpend ⊢
  · rw [finishWith_res0, hp, implicitPrimes_getD hk]

/-- A decode step stays in its word or goes to one below `n` (R151). -/
theorem decNext_value_word {item : Item} {a : List Word} {n w v w' : Nat} {cur cur' : Word}
    (h : decNext item a n w cur = .value v w' cur') : w' = w ∨ w' < n := by
  obtain ⟨_, he⟩ | ⟨_, _, _, hn, _, _, he⟩ | ⟨_, _, he⟩ := decNext_cases item a n w cur <;> rw [he] at h <;> cases h
  · exact .inl rfl
  · exact .inr hn

/-- An element after the first three: the least pending number is the next prime (R155). -/
theorem IterAt.next_decode {total k : Nat} {u : State} (h : IterAt total k u) (hk : 3 ≤ k) (hlt : k < total) :
    GivesPrime total k u := by
  obtain ⟨hr, hv, hp, hpend⟩ := h
  rw [Nat.min_eq_right hk] at hp
  rw [Nat.max_eq_left hk] at hpend
  have hmono := Nat.nth_strictMono Nat.infinite_setOfPred_prime
  obtain ⟨v, w, cur, hd, htake, hleast, _⟩ | ⟨_, _, _, hno⟩ :=
    decNext_pending .store u.store u.nwords.toNat u.itw.toNat u.itcur
  · have hw : (word w).toNat = w := toNat_word <| by have := decNext_value_word hd; omega
    have hval : v = Nat.nth Nat.Prime k := by
      obtain ⟨j, hj, _, hjv⟩ := (hpend v).mp ((htake v).mpr (.inl rfl))
      obtain heq | hlater := (htake _).mp ((hpend _).mpr ⟨k, Nat.le_refl k, hlt, rfl⟩)
      · exact heq.symm
      · have : Nat.nth Nat.Prime k ≤ Nat.nth Nat.Prime j := hmono.monotone hj
        have := hleast _ hlater
        omega
    refine ⟨_, (exec_iterNext_decode hr hv hp.ge).trans (congrArg _ (iterDecode_value hd)),
      ⟨hr, hv, hp.trans (Nat.min_eq_right (by omega)).symm, fun p => ?_⟩, rfl, congrArg word hval⟩
    rw [Nat.max_eq_left (by omega)]
    show Pending .store u.store u.nwords.toNat (word w).toNat cur p ↔ _
    rw [hw]
    constructor
    · intro hlater
      obtain ⟨j, hj, hjt, rfl⟩ := (hpend p).mp ((htake p).mpr (.inr hlater))
      have hgt := hleast _ hlater
      rw [hval, hmono.lt_iff_lt] at hgt
      exact ⟨j, hgt, hjt, rfl⟩
    · rintro ⟨j, hj, hjt, rfl⟩
      refine ((htake _).mp ((hpend _).mpr ⟨j, by omega, hjt, rfl⟩)).resolve_left fun heq => ?_
      rw [hval] at heq
      exact absurd (hmono.injective heq) (by omega)
  · exact absurd ((hpend _).mpr ⟨k, Nat.le_refl k, hlt, rfl⟩) (hno _)

theorem IterAt.next {total k : Nat} {u : State} (h : IterAt total k u) (hk : k < total) : GivesPrime total k u :=
  (Nat.lt_or_ge k 3).elim h.next_implicit fun h3 => h.next_decode h3 hk

/-- After the last element comes the end (R156). -/
theorem IterAt.next_ended {total : Nat} {u : State} (h : IterAt total total u) (h3 : 3 ≤ total) :
    ∃ t, exec .iterNext u = .next t ∧ IterEnded t := by
  obtain ⟨hr, hv, hp, hpend⟩ := h
  rw [Nat.min_eq_right h3] at hp
  obtain ⟨v, _, _, _, htake, _⟩ | ⟨_, _, hd, _⟩ :=
    decNext_pending .store u.store u.nwords.toNat u.itw.toNat u.itcur
  · obtain ⟨j, hj, hjt, _⟩ := (hpend v).mp ((htake v).mpr (.inl rfl))
    omega
  · exact ⟨_, exec_iterNext_decode hr hv hp.ge, iterEnded_of_decNext hr hv hp.ge hd⟩

/-! ## The whole iteration -/

theorem repeatCommand_succ_of_next {i : Instr} {n : Nat} {s t : State} (h : exec i (repeatCommand i n s) = .next t) :
    repeatCommand i (n + 1) s = t := by
  rw [repeatCommand_succ, h, stateOr]

theorem repeatCommand_add (i : Instr) (m n : Nat) (s : State) :
    repeatCommand i (m + n) s = repeatCommand i n (repeatCommand i m s) := by
  induction n with
  | zero => rfl
  | succ n ih => rw [← Nat.add_assoc, repeatCommand_succ, ih, ← repeatCommand_succ]

theorem IterAt.repeatNext {total : Nat} {t : State} (h : IterAt total 0 t) {k : Nat} (hk : k ≤ total) :
    IterAt total k (repeatCommand .iterNext k t) := by
  induction k with
  | zero => exact h
  | succ k ih =>
    obtain ⟨u, hu, hat, _⟩ := (ih (by omega)).next hk
    rwa [repeatCommand_succ_of_next hu]

/-- Every element in its turn. -/
theorem IterAt.yields {total : Nat} {t : State} (h : IterAt total 0 t) {k : Nat} (hk : k < total) :
    (repeatCommand .iterNext (k + 1) t).rv = true ∧
      (repeatCommand .iterNext (k + 1) t).res0 = word (Nat.nth Nat.Prime k) := by
  obtain ⟨u, hu, _, hres⟩ := (h.repeatNext hk.le).next hk
  rwa [repeatCommand_succ_of_next hu]

/-- And the end from then on. -/
theorem IterAt.ends {total : Nat} {t : State} (h : IterAt total 0 t) (h3 : 3 ≤ total) {k : Nat} (hk : total ≤ k) :
    IterEnded (repeatCommand .iterNext (k + 1) t) := by
  obtain ⟨u, hu, hend⟩ := (h.repeatNext (Nat.le_refl total)).next_ended h3
  rw [show k + 1 = total + 1 + (k - total) by omega, repeatCommand_add, repeatCommand_succ_of_next hu,
    hend.repeatNext]
  exact hend

/-- Settles O35: the run of ITER_NEXT gives the primes by their numbers, and as many as the store holds with 2, 3
and 5. -/
theorem iterationYieldsThePrimesInOrder : Obligations.IterationYieldsThePrimesInOrder := by
  intro s t h hr ht
  have hstart := IterAt.ofIterStart h hr ht
  refine ⟨fun k hk => ?_, fun p h7 hp => ⟨fun hlt => ?_, ?_⟩, fun k hk => ?_⟩
  · obtain ⟨hrv, hres⟩ := hstart.yields hk
    have hfit := (h.nth_prime_lt_iff k).mpr hk
    exact ⟨hrv, by rw [hres, toNat_word (by omega)]⟩
  · obtain ⟨k, _, hk⟩ := (h.prime_lt_limit_iff p).mp ⟨h7, hp, hlt⟩
    exact ⟨k, hk⟩
  · rintro ⟨k, hk, rfl⟩
    have := (h.nth_prime_lt_iff k).mpr hk
    omega
  · have hend := hstart.ends (Nat.le_add_right ..) hk
    exact ⟨hend.rv_eq, hend.err_eq, hend.res0_eq, hend.res1_eq⟩

end Sys2Proof.Machine
end

section
/-! PROOFS. The two builds (spec/43_sieve_build.md R171, R182-R190): how each ends, what a successful one leaves in
STORE and PFX, and how many primes that is. -/

namespace Sys2Proof.Machine

/-! ## How a build ends -/

/-- Command `i` is a build from `s`, to the number `bound` (R171, R187). -/
def IsBuild (i : Instr) (s : State) (bound : Nat) : Prop :=
  i = .buildLimit ∧ bound = s.larg0.toNat ∨ i = .buildNprimes ∧ bound = nprimesBound s.cfg s.larg0.toNat

theorem exists_isBuild {i : Instr} (hi : i ∈ [.buildLimit, .buildNprimes]) (s : State) :
    ∃ bound, IsBuild i s bound := by
  simp only [List.mem_cons, List.not_mem_nil, or_false] at hi
  obtain rfl | rfl := hi
  · exact ⟨_, .inl ⟨rfl, rfl⟩⟩
  · exact ⟨_, .inr ⟨rfl, rfl⟩⟩

section
variable {i : Instr} {s : State} {bound : Nat}

theorem IsBuild.exec_eq (h : IsBuild i s bound) :
    exec i s = .next (if s.ready then raise .state s else build bound s) := by
  obtain ⟨rfl, rfl⟩ | ⟨rfl, rfl⟩ := h <;> rfl

theorem IsBuild.exec_of_ready (h : IsBuild i s bound) (hr : s.ready = true) : exec i s = .next (raise .state s) := by
  rw [h.exec_eq, if_pos hr]

theorem IsBuild.exec_of_capacity (h : IsBuild i s bound) (hr : s.ready = false)
    (hw : s.cfg.maxWords < storeWords bound) : exec i s = .next (raise .capacity s) := by
  rw [h.exec_eq, if_neg (by simp [hr]), build, if_pos hw]

theorem IsBuild.exec_of_fits (h : IsBuild i s bound) (hr : s.ready = false) (hw : storeWords bound ≤ s.cfg.maxWords) :
    exec i s = .next (publishStore (storeWords bound) (constructStore (storeWords bound) s)) := by
  rw [h.exec_eq, if_neg (by simp [hr]), build, if_neg (Nat.not_lt.mpr hw)]

/-- A build that ends without error has fitted and published its store (R171, R183). -/
theorem IsBuild.published {t : State} (h : IsBuild i s bound) (ht : exec i s = .next t) (he : t.err = .none) :
    storeWords bound ≤ s.cfg.maxWords ∧
      t = publishStore (storeWords bound) (constructStore (storeWords bound) s) := by
  cases hr : s.ready with
  | true =>
    cases (h.exec_of_ready hr).symm.trans ht
    cases he
  | false =>
    rcases Nat.lt_or_ge s.cfg.maxWords (storeWords bound) with hw | hw
    · cases (h.exec_of_capacity hr hw).symm.trans ht
      cases he
    · cases (h.exec_of_fits hr hw).symm.trans ht
      exact ⟨hw, rfl⟩

end

theorem storeWords_eq (bound : Nat) : storeWords bound = (bound + 239) / 240 := by
  unfold storeWords ceilDiv
  omega

theorem le_storeWords (bound : Nat) : bound ≤ 240 * storeWords bound := by
  rw [storeWords_eq]
  omega

/-! ## What a construction leaves -/

theorem constructStore_store_length (w : Nat) {s : State} (h : 1 ≤ s.cfg.segmentLen) :
    (constructStore w s).store.length = w := by
  obtain ⟨_, _, _, _, store, he, hl⟩ := constructStore_shape w s h
  rw [he]
  exact hl

/-- An array is determined by its length when its set lanes are the primes. -/
theorem PrimeLanes.eq_of_length_eq {item : Item} {a c : List Word} (ha : PrimeLanes item a) (hc : PrimeLanes item c)
    (hl : a.length = c.length) : a = c := by
  refine List.ext_getElem hl fun j hja hjc => BitVec.eq_of_getLsbD_eq fun b hb => ?_
  have hlane := (ha j b hja hb).trans (hc j b hjc hb).symm
  rw [wordAt_lt hja, wordAt_lt hjc] at hlane
  exact Bool.eq_iff_iff.mpr hlane

/-- STORE depends on the number of words alone (R185). -/
theorem constructStore_store_eq (w : Nat) {s s' : State} (h : 1 ≤ s.cfg.segmentLen) (h' : 1 ≤ s'.cfg.segmentLen) :
    (constructStore w s).store = (constructStore w s').store :=
  (constructStore_primeLanes w s).eq_of_length_eq (constructStore_primeLanes w s')
    ((constructStore_store_length w h).trans (constructStore_store_length w h').symm)

/-- The published words are the constructed ones, so the closed form of R42 holds of them (R185). -/
theorem storeExact_publishStore {w : Nat} {s : State} (hwf : s.cfg.wf = true) (hw : w ≤ s.cfg.maxWords) :
    StoreExact (publishStore w (constructStore w s)) := by
  obtain ⟨hseg, _, hcap⟩ := cfgWf_bounds hwf
  intro j b hj hb
  have hjw : j < w := hj.trans_eq (toNat_word (by omega))
  exact constructStore_primeLanes w s j b (by rwa [constructStore_store_length w hseg]) hb

/-- Everything a published construction leaves, field by field (R183, R189). -/
theorem publishStore_constructStore (w : Nat) {s : State} (h : 1 ≤ s.cfg.segmentLen) :
    publishStore w (constructStore w s) = { s with
      ready := true
      limit := word (240 * w)
      nwords := word w
      store := (constructStore w s).store
      pfx := prefixCounts 0 (constructStore w s).store
      scr := drawWords .scr s.draws s.cfg.segmentLen
      small := []
      track := []
      ntrack := (Config.draw .ntrack s.draws 0).toNat
      draws := s.draws + 1
      err := .none
      rv := false
      busy := false } := by
  obtain ⟨_, _, _, _, _, he, _⟩ := constructStore_shape w s h
  rw [he]
  rfl

/-- Entry `j` of the prefix counts of a store whose lanes are fewer than 2^64 (R182). -/
theorem wordAt_prefixCounts {s : State} {j : Nat} (hj : j < s.store.length) (hcap : 64 * s.store.length < 2 ^ 64) :
    (wordAt .pfx (prefixCounts 0 s.store) j).toNat = storedBelow s (j + 1) := by
  have hle := storedBelow_le s (j + 1)
  have htake := storedBelow_eq_take (Nat.succ_le_of_lt hj)
  rw [wordAt, prefixCounts_getD 0 s.store j hj, Nat.zero_add, ← htake]
  exact toNat_word (hle.trans_lt (by omega))

/-! ## How many primes a build stores -/

/-- The primes below an exact store's end are 2, 3, 5 and the stored ones (R32, R42). -/
theorem StoreExact.count_prime {s : State} (h : StoreExact s) (hpos : 0 < s.nwords.toNat) :
    Nat.count Nat.Prime (240 * s.nwords.toNat) = 3 + storedPrimes s := by
  rw [count_prime_of_seven_le (by omega), storedPrimes, h.storedBelow_eq (Nat.le_refl _)]

theorem not_prime_two_forty_mul (k : Nat) : ¬ Nat.Prime (240 * k) := fun hp => by
  have h2 := (Nat.prime_dvd_prime_iff_eq Nat.prime_two hp).mp ⟨120 * k, by omega⟩
  omega

/-- An exact store that reaches the n-th prime knows n primes: no prime is a multiple of 240, so it lies below the
store's end. -/
theorem StoreExact.le_storedPrimes {s : State} (h : StoreExact s) {n : Nat} (hn : 1 ≤ n)
    (hle : Nat.nth Nat.Prime (n - 1) ≤ 240 * s.nwords.toNat) : n ≤ 3 + storedPrimes s := by
  have hp := Nat.prime_nth_prime (n - 1)
  have hpos : 0 < s.nwords.toNat := by have := hp.pos; omega
  have hne : Nat.nth Nat.Prime (n - 1) ≠ 240 * s.nwords.toNat := fun he => not_prime_two_forty_mul _ (he ▸ hp)
  have hcount := (Nat.lt_nth_iff_count_lt Nat.infinite_setOfPred_prime).mpr (Nat.lt_of_le_of_ne hle hne)
  rw [h.count_prime hpos] at hcount
  omega

/-- V-B6 at 100 needs the reference definition there only. -/
theorem nprimesBound_hundred (c : Config) (h : c.boundOverrides.lookup 100 = none) : nprimesBound c 100 = 613 := by
  obtain ⟨_, _, _, h100⟩ := nprimesBound_of_nil { c with boundOverrides := [] } rfl
  rw [← h100, nprimesBound_of_none c 100 h, nprimesBound_of_none _ 100 List.lookup_nil]

/-! ## The statements -/

/-- Settles O39: the error-free endings of a build are the published constructions. -/
theorem builtStoreHoldsExactlyThePrimes : Obligations.BuiltStoreHoldsExactlyThePrimes := by
  intro i s t hwf hi ht he
  obtain ⟨bound, hb⟩ := exists_isBuild hi s
  obtain ⟨hw, rfl⟩ := hb.published ht he
  exact storeExact_publishStore hwf hw

/-- Settles O40: the two runs end alike, and where they publish, an exact store of the same length is the same
store. -/
theorem buildIgnoresSegmentLength : Obligations.BuildIgnoresSegmentLength := by
  intro i s t u m hi hwf hm ht hu
  obtain ⟨bound, hb⟩ := exists_isBuild hi s
  have hb' : IsBuild i { s with cfg := { s.cfg with segmentLen := m } } bound := hb
  cases hr : s.ready with
  | true =>
    cases (hb.exec_of_ready hr).symm.trans ht
    cases (hb'.exec_of_ready hr).symm.trans hu
    exact ⟨rfl, rfl, rfl, rfl, rfl, rfl⟩
  | false =>
    rcases Nat.lt_or_ge s.cfg.maxWords (storeWords bound) with hw | hw
    · cases (hb.exec_of_capacity hr hw).symm.trans ht
      cases (hb'.exec_of_capacity hr hw).symm.trans hu
      exact ⟨rfl, rfl, rfl, rfl, rfl, rfl⟩
    · cases (hb.exec_of_fits hr hw).symm.trans ht
      cases (hb'.exec_of_fits hr hw).symm.trans hu
      have hstore := constructStore_store_eq (storeWords bound)
        (s := { s with cfg := { s.cfg with segmentLen := m } }) hm (cfgWf_bounds hwf).1
      exact ⟨hstore, congrArg (prefixCounts 0) hstore, rfl, rfl, rfl, rfl⟩

/-- Settles O41: the ascending pass keeps the length and leaves the primes. -/
theorem smallSieveIsExact : Obligations.SmallSieveIsExact := by
  intro n _
  refine ⟨smallSieve_length n, fun j b hj hb => ?_⟩
  exact smallSieve_primeLanes n j b (by rwa [smallSieve_length]) hb

/-- Settles O44: the store is exact and reaches the bound, which is not below the n-th prime. -/
theorem buildNprimesReachesTheCount : Obligations.BuildNprimesReachesTheCount := by
  intro s t hwf ht he
  have hb : IsBuild .buildNprimes s (nprimesBound s.cfg s.larg0.toNat) := .inr ⟨rfl, rfl⟩
  obtain ⟨hw, rfl⟩ := hb.published ht he
  constructor
  · rcases Nat.eq_zero_or_pos s.larg0.toNat with h0 | hpos
    · rw [h0]
      exact Nat.zero_le _
    · obtain ⟨_, _, hcap⟩ := cfgWf_bounds hwf
      have hreach := (nth_prime_le_nprimesBound s.cfg _ hpos).trans (le_storeWords _)
      refine (storeExact_publishStore hwf hw).le_storedPrimes hpos (hreach.trans_eq ?_)
      exact congrArg (240 * ·) (toNat_word (by omega)).symm
  · intro h100 hnone
    have hbound : nprimesBound s.cfg s.larg0.toNat = 613 := by
      rw [h100]
      exact nprimesBound_hundred s.cfg hnone
    rw [hbound]
    exact ⟨rfl, rfl⟩

/-- Settles O37: the fields of a published construction, and its lengths and counts. -/
theorem buildCompletes : Obligations.BuildCompletes := by
  intro i s bound w hwf hr hb hw hfit
  rw [← storeWords_eq] at hw
  subst hw
  obtain ⟨hseg, _, hcap⟩ := cfgWf_bounds hwf
  have hlen := constructStore_store_length (storeWords bound) hseg
  refine ⟨(constructStore (storeWords bound) s).store, prefixCounts 0 (constructStore (storeWords bound) s).store,
    drawWords .scr s.draws s.cfg.segmentLen, [], [], (Config.draw .ntrack s.draws 0).toNat, s.draws + 1,
    ?_, hlen, (prefixCounts_length ..).trans hlen, drawWords_length .., by omega, fun j hj => ?_⟩
  · rw [IsBuild.exec_of_fits hb hr hfit, publishStore_constructStore _ hseg]
    rfl
  · exact wordAt_prefixCounts (by omega) (by omega)

/-- Settles O38, by the two error endings. -/
theorem buildErrors : Obligations.BuildErrors := by
  intro i s bound hb
  exact ⟨IsBuild.exec_of_ready hb, IsBuild.exec_of_capacity hb⟩

end Sys2Proof.Machine
end

section
/-! PROOFS. The facade's commands that answer from the registers and the arrays alone (spec/44_facade.md R210-R213,
R220), what a query may write, and the two lifecycle commands (R211, R222). -/

namespace Sys2Proof.Machine

/-! ## The lifecycle -/

/-- Settles O20: NOP only completes. -/
theorem nopOnlyClearsErrAndRv : Obligations.NopOnlyClearsErrAndRv :=
  ⟨by decide, by decide, fun _ => rfl⟩

/-- Settles O53: CLEAR holds no word of STORE and PFX any longer. -/
theorem clearReturnsToEmpty : Obligations.ClearReturnsToEmpty :=
  ⟨by decide, fun _ => ⟨[], [], rfl⟩⟩

/-! ## What a query may write -/

/-- The query commands of R210. -/
def queries : List Instr := [.qLimit, .qNumPrimes, .isPrime, .nthPrime, .rankFind, .storeWord, .storeGet]

theorem exec_query_empty {i : Instr} {s : State} (hi : i ∈ queries) (hr : s.ready = false) :
    exec i s = .next (raise .noStore s) := by
  simp only [queries, List.mem_cons, List.not_mem_nil, or_false] at hi
  obtain rfl | rfl | rfl | rfl | rfl | rfl | rfl := hi <;> exact congrArg Host.Outcome.next (withStore_empty hr)

/-- No query is there for a write to SCR, the cursor or STORE. -/
theorem not_writer_of_query {i : Instr} (hi : i ∈ queries) :
    i ∉ [.scrFill, .scrSetOn, .scrSetOff, .scrWriteWord] ∧ i ∉ [.iterStart, .iterSeek] ∧
      i ∉ [.buildLimit, .buildNprimes] := by
  revert hi
  cases i <;> decide

/-- Of the ways to complete, a query has only those that leave a result or an error. -/
theorem Completion.of_query {s t : State} {i : Instr} (h : Completion s i t) (hi : i ∈ queries) :
    ∃ r0 r1 v e, t = { s with res0 := r0, res1 := r1, rv := v, err := e, busy := false } := by
  obtain ⟨hscr, hcursor, hbuild⟩ := not_writer_of_query hi
  cases h with
  | raised _ e => exact ⟨s.res0, s.res1, false, e, rfl⟩
  | answered _ r0 r1 => exact ⟨r0, r1, true, .none, rfl⟩
  | indeterminate => exact ⟨0, 0, false, .none, rfl⟩
  | scratchWritten _ _ hw => exact absurd hw hscr
  | cursorPlaced _ _ _ hw => exact absurd hw hcursor
  | built _ _ hw => exact absurd hw hbuild
  | nop | wheelStarted | wheelTurned | implicitPrime | decodedValue | decodedEnd | cleared =>
    exact absurd hi (by decide)

/-- Settles O47: a query completes in one of its own ways, and behind the READY check. -/
theorem queriesWriteOnlyTheirResult : Obligations.QueriesWriteOnlyTheirResult := by
  intro i s hi
  refine ⟨fun _ => ?_, exec_query_empty hi⟩
  obtain ⟨t, ht⟩ := exec_is_next i s
  obtain ⟨r0, r1, v, e, rfl⟩ := (exec_completion ht).of_query hi
  exact ⟨r0, r1, v, e, ht⟩

/-! ## The counts and the words -/

/-- How many lanes are set before word `i`, as R217 reads it from PFX. -/
theorem Inv.pfx_before {s : State} (h : Inv s) {i : Nat} (hi : i ≤ s.nwords.toNat) :
    (if 0 < i then (wordAt .pfx s.pfx (i - 1)).toNat else 0) = storedBelow s i := by
  cases i with
  | zero => rfl
  | succ i => exact (if_pos i.succ_pos).trans (h.pfx_eq hi)

/-- TOTAL is the number of set lanes (R32). -/
theorem Inv.totalPrimes_eq {s : State} (h : Inv s) : totalPrimes s = storedPrimes s :=
  h.pfx_before (Nat.le_refl _)

theorem exec_qLimit_ready {s : State} (hr : s.ready = true) :
    exec .qLimit s = .next (finishWith s.limit s.nwords s) :=
  congrArg Host.Outcome.next (withStore_ready hr)

theorem exec_qNumPrimes_ready {s : State} (h : Inv s) (hr : s.ready = true) :
    exec .qNumPrimes s = .next (finishWith (word (3 + storedPrimes s)) (word (storedPrimes s)) s) := by
  rw [← h.totalPrimes_eq]
  exact congrArg Host.Outcome.next (withStore_ready hr)

/-- The number of primes known fits a result word (R7, R213). -/
theorem Inv.three_add_storedPrimes_lt {s : State} (h : Inv s) : 3 + storedPrimes s < 2 ^ 64 := by
  obtain ⟨_, _, hcap⟩ := cfgWf_bounds h.cfgWf
  have hcount : storedPrimes s ≤ 64 * s.nwords.toNat := storedBelow_le s _
  have := h.nwordsLe
  omega

/-- Settles O46, by the READY check and the count of the store. -/
theorem limitAndCountQueries : Obligations.LimitAndCountQueries :=
  ⟨by decide, by decide, fun _ => ⟨exec_qLimit_ready,
    fun hr h => ⟨exec_qNumPrimes_ready h hr, h.three_add_storedPrimes_lt⟩,
    fun hr => ⟨exec_query_empty (by decide) hr, exec_query_empty (by decide) hr⟩⟩⟩

theorem exec_storeWord_inside {s : State} (hr : s.ready = true) (hi : s.larg0.toNat < s.nwords.toNat) :
    exec .storeWord s =
      .next (finishWith (wordAt .store s.store s.larg0.toNat) (wordAt .pfx s.pfx s.larg0.toNat) s) :=
  congrArg Host.Outcome.next ((withStore_ready hr).trans (if_neg (Nat.not_le.mpr hi)))

theorem exec_storeWord_beyond {s : State} (hr : s.ready = true) (hi : s.nwords.toNat ≤ s.larg0.toNat) :
    exec .storeWord s = .next (raise .range s) :=
  congrArg Host.Outcome.next ((withStore_ready hr).trans (if_pos hi))

/-- Settles O52, clause by clause. -/
theorem storeWordReadsWordAndCount : Obligations.StoreWordReadsWordAndCount :=
  ⟨by decide, fun _ => ⟨exec_storeWord_inside, exec_storeWord_beyond, exec_query_empty (by decide)⟩⟩

end Sys2Proof.Machine
end

section
/-! PROOFS. The rank functions (spec/44_facade.md R217-R219, R221): where the `m`-th set lane lies, that the reference
binary search finds its word, and which prime it is. -/

namespace Sys2Proof.Machine

/-! ## The word and the rank of a set lane -/

/-- The `m`-th set lane, counted from 0, is the `r`-th one of word `i`, the first whose count exceeds `m` (R217). -/
structure RankAt (s : State) (m i r : Nat) : Prop where
  inside : i < s.nwords.toNat
  exceeds : m < (wordAt .pfx s.pfx i).toNat
  least : ∀ j, j < i → (wordAt .pfx s.pfx j).toNat ≤ m
  counted : storedBelow s i + r = m
  inWord : r < popcount (wordAt .store s.store i)

theorem RankAt.word_ne_zero {s : State} {m i r : Nat} (h : RankAt s m i r) : wordAt .store s.store i ≠ 0 := by
  intro h0
  have hpop := h.inWord
  rw [h0, show popcount (0 : Word) = 0 from popcount_zero] at hpop
  exact absurd hpop (Nat.not_lt_zero r)

/-- There is such a word for every set lane: the last entry of PFX counts them all (R32, R217). -/
theorem Inv.rankIndex_found {s : State} (h : Inv s) {m : Nat} (hm : m < storedPrimes s) :
    ∃ i, rankIndex s.pfx s.nwords.toNat m = some i ∧ i < s.nwords.toNat ∧ m < (wordAt .pfx s.pfx i).toNat ∧
      ∀ j, j < i → (wordAt .pfx s.pfx j).toNat ≤ m := by
  obtain hfound | ⟨_, hnone⟩ := rankIndex_cases s.pfx s.nwords.toNat m
  · exact hfound
  · have htotal := h.pfx_before (Nat.le_refl s.nwords.toNat)
    rw [← storedPrimes] at htotal
    split at htotal
    · have := hnone (s.nwords.toNat - 1) (by omega)
      omega
    · omega

theorem Inv.rankFind_found {s : State} (h : Inv s) {m : Nat} (hm : m < storedPrimes s) :
    ∃ i r, rankFind s m = some (i, r) ∧ RankAt s m i r := by
  obtain ⟨i, hfind, hi, hlt, hleast⟩ := h.rankIndex_found hm
  have hbefore := h.pfx_before hi.le
  have hle : storedBelow s i ≤ m := by
    rw [← hbefore]
    split
    · exact hleast _ (by omega)
    · exact Nat.zero_le m
  have hword : m < storedBelow s i + popcount (wordAt .store s.store i) := by
    rwa [← storedBelow_succ, ← h.pfx_eq hi]
  refine ⟨i, m - storedBelow s i, ?_, hi, hlt, hleast, by omega, by omega⟩
  rw [rankFind, hfind, ← hbefore]

theorem exec_rankFind_found {s : State} (h : Inv s) (hr : s.ready = true) (hm : s.larg0.toNat < storedPrimes s) :
    ∃ i r, exec .rankFind s = .next (finishWith (word i) (word r) s) ∧ RankAt s s.larg0.toNat i r := by
  obtain ⟨i, r, hfind, hrank⟩ := h.rankFind_found hm
  rw [← h.totalPrimes_eq] at hm
  refine ⟨i, r, congrArg Host.Outcome.next ((withStore_ready hr).trans ?_), hrank⟩
  refine (if_neg (Nat.not_le.mpr hm)).trans ?_
  rw [operand0, hfind]

theorem exec_rankFind_beyond {s : State} (h : Inv s) (hr : s.ready = true) (hm : storedPrimes s ≤ s.larg0.toNat) :
    exec .rankFind s = .next (finishIndet s) := by
  rw [← h.totalPrimes_eq] at hm
  exact congrArg Host.Outcome.next ((withStore_ready hr).trans (if_pos hm))

/-- Settles O50, from the place of the `m`-th set lane. -/
theorem rankFindLocatesTheLane : Obligations.RankFindLocatesTheLane := by
  refine ⟨by decide, fun s => ⟨fun h hr hm => ?_, exec_rankFind_beyond, exec_query_empty (by decide)⟩⟩
  obtain ⟨i, r, hexec, hrank⟩ := exec_rankFind_found h hr hm
  exact ⟨i, r, hexec, hrank.inside, hrank.exceeds, hrank.least, hrank.counted, hrank.word_ne_zero, hrank.inWord⟩

/-! ## The reference binary search -/

/-- While the answer `k` lies in `lo..hi` the search keeps it there, and `hi - lo` probes are enough (R221). -/
theorem rankSearchLoop_eq {pfx : List Word} {m k n : Nat} (hbelow : ∀ j, j < k → (wordAt .pfx pfx j).toNat ≤ m)
    (habove : ∀ j, k ≤ j → j < n → m < (wordAt .pfx pfx j).toNat) {fuel lo hi : Nat} (hlo : lo ≤ k)
    (hhi : k ≤ hi) (hn : hi < n) (hf : hi ≤ lo + fuel) : rankSearchLoop pfx m fuel lo hi = k := by
  induction fuel generalizing lo hi with
  | zero => exact Nat.le_antisymm hlo (hhi.trans hf)
  | succ fuel ih =>
    rw [rankSearchLoop]
    split
    · split
      · have hmid : k ≤ (lo + hi) / 2 := by
          by_contra hlt
          have := hbelow _ (Nat.lt_of_not_le hlt)
          omega
        exact ih hlo hmid (by omega) (by omega)
      · have hmid : (lo + hi) / 2 < k := by
          by_contra hge
          have := habove _ (Nat.le_of_not_lt hge) (by omega)
          omega
        exact ih hmid hhi hn (by omega)
    · omega

/-- Settles O51: on a non-decreasing index every entry from the least exceeding one on exceeds `m`. -/
theorem binarySearchFindsTheRankIndex : Obligations.BinarySearchFindsTheRankIndex := by
  rintro pfx n m hmono ⟨i, hi, hlt⟩
  obtain ⟨k, hfind, hk, hexceeds, hbelow⟩ | ⟨_, hnone⟩ := rankIndex_cases pfx n m
  · have habove : ∀ j, k ≤ j → j < n → m < (wordAt .pfx pfx j).toNat := fun j hkj hj =>
      hexceeds.trans_le (hmono k j hkj hj)
    rw [hfind, rankSearch, rankSearchLoop_eq hbelow habove (Nat.zero_le k) (by omega) (by omega) (by omega)]
  · exact absurd hlt (Nat.not_lt.mpr (hnone i hi))

/-! ## The prime of a set lane -/

/-- The lanes below lane `b` are the residues below its own that are coprime to 30, in order (R102). -/
theorem map_offset_range_below {b : Nat} (hb : b < 64) :
    (List.range b).map offset = (List.range (offset b)).filter fun r => Nat.gcd r 30 == 1 := by
  have hlanes : ((List.range b).map offset).Pairwise (· < ·) :=
    List.pairwise_map.mpr (List.pairwise_lt_range.imp_of_mem fun _ hd hcd =>
      offset_lt_offset hcd ((List.mem_range.mp hd).trans hb))
  refine hlanes.eq_of_mem_iff (List.pairwise_lt_range.filter _) fun r => ?_
  simp only [List.mem_map, List.mem_range, List.mem_filter, beq_iff_eq]
  constructor
  · rintro ⟨c, hc, rfl⟩
    exact ⟨offset_lt_offset hc hb, offset_coprime (hc.trans hb)⟩
  · rintro ⟨hr, hg⟩
    obtain ⟨c, hc, rfl⟩ := lane_of_coprime r (hr.trans (offset_lt hb)) hg
    refine ⟨c, Nat.lt_of_not_le fun hbc => ?_, rfl⟩
    obtain rfl | hlt := hbc.eq_or_lt
    · exact absurd hr (Nat.lt_irrefl _)
    · exact absurd hr (offset_lt_offset hlt hc).le.not_gt

/-- As `popcount_eq_count`, for the part of a word below lane `b`. -/
theorem countP_lanes_below {w : Word} {P : Nat → Prop} [DecidablePred P] {b : Nat} (hb : b < 64)
    (h : ∀ c < 64, w.getLsbD c = true ↔ P (offset c)) :
    (List.range b).countP (fun c => w.getLsbD c) = Nat.count (fun r => Nat.gcd r 30 = 1 ∧ P r) (offset b) := by
  calc (List.range b).countP (fun c => w.getLsbD c)
    _ = (List.range b).countP ((fun r => decide (P r)) ∘ offset) :=
        List.countP_congr fun c hc => by simpa using h c ((List.mem_range.mp hc).trans hb)
    _ = ((List.range (offset b)).filter fun r => Nat.gcd r 30 == 1).countP fun r => decide (P r) := by
        rw [← List.countP_map, map_offset_range_below hb]
    _ = Nat.count (fun r => Nat.gcd r 30 = 1 ∧ P r) (offset b) := by
        rw [List.countP_filter, Nat.count]
        exact List.countP_congr fun r _ => by simp [and_comm]

/-- The primes below a lane's number that have a lane are the set lanes before it (R42). -/
theorem StoreExact.count_below_lane {s : State} (h : StoreExact s) {i b : Nat} (hi : i < s.nwords.toNat)
    (hb : b < 64) :
    Nat.count (fun p => Nat.gcd p 30 = 1 ∧ Nat.Prime p) (240 * i + offset b) =
      storedBelow s i + (List.range b).countP fun c => (wordAt .store s.store i).getLsbD c := by
  have hgcd : ∀ r, Nat.gcd (240 * i + r) 30 = Nat.gcd r 30 := fun r => gcd_thirty_congr (by omega)
  rw [countP_lanes_below (P := fun r => Nat.Prime (240 * i + r)) hb fun c hc => h i c hi hc,
    h.storedBelow_eq hi.le, Nat.count_add]
  simp only [hgcd]

/-- The `m`-th set lane of an exact store is that of the prime after 2, 3, 5 and `m` others (R218). -/
theorem RankAt.primeAtRank_eq {s : State} {m i r : Nat} (h : RankAt s m i r) (hexact : StoreExact s) :
    primeAtRank s (i, r) = Nat.nth Nat.Prime (3 + m) := by
  obtain ⟨hb, hset, hbelow⟩ := select_spec _ r h.inWord
  have hp : Nat.Prime (primeAtRank s (i, r)) := (hexact i _ h.inside hb).mp hset
  have h7 : 7 ≤ primeAtRank s (i, r) := seven_le_of_prime hp (lane_coprime i hb)
  have hcount : Nat.count Nat.Prime (primeAtRank s (i, r)) = 3 + m := by
    rw [count_prime_of_seven_le h7, primeAtRank, hexact.count_below_lane h.inside hb, hbelow, h.counted]
  rw [← hcount, Nat.nth_count hp]

theorem exec_nthPrime_implicit {s : State} (hr : s.ready = true) (hn : s.larg0.toNat < 3) :
    exec .nthPrime s = .next (finishWith (word (Nat.nth Nat.Prime s.larg0.toNat)) 0 s) := by
  rw [← implicitPrimes_getD hn]
  exact congrArg Host.Outcome.next ((withStore_ready hr).trans (if_pos hn))

theorem exec_nthPrime_stored {s : State} (h : InvExact s) (hr : s.ready = true) (h3 : 3 ≤ s.larg0.toNat)
    (hn : s.larg0.toNat - 3 < storedPrimes s) :
    exec .nthPrime s = .next (finishWith (word (Nat.nth Nat.Prime s.larg0.toNat)) 0 s) := by
  obtain ⟨hinv, hexact⟩ := h
  obtain ⟨i, r, hfind, hrank⟩ := hinv.rankFind_found hn
  rw [← hinv.totalPrimes_eq] at hn
  refine congrArg Host.Outcome.next ((withStore_ready hr).trans
    ((if_neg (Nat.not_lt.mpr h3)).trans ((if_neg (Nat.not_le.mpr hn)).trans ?_)))
  have hprime : primeAtRank s (i, r) = Nat.nth Nat.Prime s.larg0.toNat := by
    rw [hrank.primeAtRank_eq hexact, Nat.add_sub_cancel' h3]
  rw [operand0, hfind, ← hprime]

theorem exec_nthPrime_beyond {s : State} (h : Inv s) (hr : s.ready = true) (hn : 3 + storedPrimes s ≤ s.larg0.toNat) :
    exec .nthPrime s = .next (finishIndet s) := by
  rw [← h.totalPrimes_eq] at hn
  have h3 : ¬ operand0 s < 3 := by simp only [operand0]; omega
  have hbeyond : operand0 s - 3 ≥ totalPrimes s := by simp only [operand0]; omega
  exact congrArg Host.Outcome.next ((withStore_ready hr).trans ((if_neg h3).trans (if_pos hbeyond)))

/-- Settles O49: 2, 3 and 5 stand by themselves, and the prime after `m` stored ones is at the `m`-th set lane. -/
theorem nthPrimeGivesTheNthPrime : Obligations.NthPrimeGivesTheNthPrime := by
  intro s h hr
  refine ⟨fun hn => ⟨?_, ?_⟩, exec_nthPrime_beyond h.1 hr⟩
  · rcases Nat.lt_or_ge s.larg0.toNat 3 with h3 | h3
    · exact exec_nthPrime_implicit hr h3
    · exact exec_nthPrime_stored h hr h3 (by omega)
  · have := (h.nth_prime_lt_iff _).mpr hn
    omega

end Sys2Proof.Machine
end

section
/-! PROOFS. IS_PRIME (spec/44_facade.md R214-R216): below LIMIT the lane decides, and from there to LIMIT² the trial by
2, 3, 5 and the stored primes. -/

namespace Sys2Proof.Machine

/-! ## Below LIMIT -/

theorem mem_implicitPrimes_iff (p : Nat) : p ∈ implicitPrimes ↔ Nat.Prime p ∧ p < 7 := by
  have hsmall : ∀ q < 7, q ∈ implicitPrimes ↔ Nat.Prime q := by decide
  rcases Nat.lt_or_ge p 7 with hlt | hge
  · simp only [hsmall p hlt, hlt, and_true]
  · simp only [implicitPrimes, List.mem_cons, List.not_mem_nil, or_false]
    omega

/-- A number below LIMIT that has no lane is 2, 3, 5 or no prime, and a lane holds its number's primality (R42). -/
theorem InvExact.codecGet_eq {s : State} (h : InvExact s) {n : Nat} (hn : n < s.limit.toNat)
    (hnot : n ∉ implicitPrimes) : codecGet .store s.store n = decide (Nat.Prime n) := by
  obtain ⟨hinv, hexact⟩ := h
  by_cases hg : Nat.gcd n 30 = 1
  · obtain ⟨b, hb, hlane⟩ := lane_of_gcd hg
    have hi : n / 240 < s.nwords.toNat := Nat.div_lt_of_lt_mul (hinv.limitIs ▸ hn)
    rw [hlane, codecGet_lane .store s.store _ hb, Bool.eq_iff_iff, hexact _ b hi hb, decide_eq_true_iff]
  · have hp : ¬ Nat.Prime n := fun hp =>
      hg (gcd_thirty_of_prime hp (Nat.le_of_not_lt fun hlt => hnot ((mem_implicitPrimes_iff n).mpr ⟨hp, hlt⟩)))
    rw [codecGet_of_not_coprime .store s.store hg, decide_eq_false hp]

/-! ## The trial -/

/-- The divisors of the trial (R216). -/
def trialPrimes (s : State) : List Nat := implicitPrimes ++ decodeAll .store s.store s.nwords.toNat

/-- They are the primes below LIMIT, or below 7 when LIMIT = 0. -/
theorem InvExact.mem_trialPrimes_iff {s : State} (h : InvExact s) (p : Nat) :
    p ∈ trialPrimes s ↔ Nat.Prime p ∧ p < max 7 s.limit.toNat := by
  rw [trialPrimes, List.mem_append, mem_implicitPrimes_iff, h.mem_decodeAll_iff, lt_max_iff]
  constructor
  · rintro (⟨hp, hlt⟩ | ⟨_, hp, hlt⟩)
    · exact ⟨hp, .inl hlt⟩
    · exact ⟨hp, .inr hlt⟩
  · rintro ⟨hp, hlt⟩
    by_cases h7 : p < 7
    · exact .inl ⟨hp, h7⟩
    · exact .inr ⟨by omega, hp, by omega⟩

theorem InvExact.trialPrimes_pairwise {s : State} (h : InvExact s) : (trialPrimes s).Pairwise (· < ·) := by
  refine List.pairwise_append.mpr ⟨by decide, decodeAll_pairwise .., fun p hp q hq => ?_⟩
  obtain ⟨_, hlt⟩ := (mem_implicitPrimes_iff p).mp hp
  obtain ⟨hge, _⟩ := (h.mem_decodeAll_iff q).mp hq
  omega

/-- The least prime factor of a composite number up to LIMIT² is one of the divisors: it is at most LIMIT, which is a
multiple of 240 and so no prime (R30). -/
theorem InvExact.minFac_mem_trialPrimes {s : State} (h : InvExact s) {n : Nat} (h2 : 2 ≤ n)
    (hsq : n.minFac * n.minFac ≤ n) (hn : n ≤ s.limit.toNat * s.limit.toNat) : n.minFac ∈ trialPrimes s := by
  have hp : Nat.Prime n.minFac := Nat.minFac_prime (by omega)
  have hle : n.minFac ≤ s.limit.toNat := Nat.mul_self_le_mul_self_iff.mp (hsq.trans hn)
  have hne : n.minFac ≠ s.limit.toNat := by
    intro he
    have hlimit := h.1.limitIs
    have htwo : 2 = n.minFac := (Nat.prime_dvd_prime_iff_eq Nat.prime_two hp).mp (by omega)
    omega
  exact (h.mem_trialPrimes_iff _).mpr ⟨hp, by omega⟩

/-- Up to LIMIT² the trial decides primality (R216). -/
theorem InvExact.trial_eq {s : State} (h : InvExact s) {n : Nat} (hn : n ≤ s.limit.toNat * s.limit.toNat) :
    trial s n = decide (Nat.Prime n) := by
  unfold trial
  split
  · exact (decide_eq_false fun hp => absurd hp.two_le (by omega)).symm
  · have hfalse := trialBy_eq_false_iff n (trialPrimes s) h.trialPrimes_pairwise
    rw [← trialPrimes]
    by_cases hp : Nat.Prime n
    · rw [decide_eq_true hp, ← Bool.not_eq_false, hfalse]
      rintro ⟨p, hmem, hsq, hdvd⟩
      obtain ⟨hprime, _⟩ := (h.mem_trialPrimes_iff p).mp hmem
      obtain rfl := (Nat.prime_dvd_prime_iff_eq hprime hp).mp hdvd
      exact absurd hsq (Nat.not_le.mpr (Nat.lt_mul_self_iff.mpr hp.one_lt))
    · have hsq : n.minFac * n.minFac ≤ n := by
        have := Nat.minFac_sq_le_self (n := n) (by omega) hp
        rwa [pow_two] at this
      rw [decide_eq_false hp, hfalse]
      exact ⟨_, h.minFac_mem_trialPrimes (by omega) hsq hn, hsq, n.minFac_dvd⟩

/-! ## The command -/

/-- `isp(n)` is the primality of `n` for 2, 3, 5 and all numbers up to LIMIT² (R214). -/
theorem InvExact.primality_det {s : State} (h : InvExact s) {n : Nat}
    (hn : n ∈ implicitPrimes ∨ n ≤ s.limit.toNat * s.limit.toNat) :
    primality s n = some (decide (Nat.Prime n)) := by
  by_cases hmem : n ∈ implicitPrimes
  · obtain ⟨hp, _⟩ := (mem_implicitPrimes_iff n).mp hmem
    rw [primality, if_pos (List.contains_iff_mem.mpr hmem), decide_eq_true hp]
  · have hle := hn.resolve_left hmem
    rw [primality, if_neg (List.contains_iff_mem.not.mpr hmem), if_pos hle, h.trial_eq hle]
    split
    · rw [h.codecGet_eq ‹_› hmem]
    · rfl

theorem primality_indet {s : State} {n : Nat} (hn : ¬ (n ∈ implicitPrimes ∨ n ≤ s.limit.toNat * s.limit.toNat)) :
    primality s n = none := by
  obtain ⟨hnot, hgt⟩ := not_or.mp hn
  have hge : ¬ n < s.limit.toNat := fun hlt => hgt (hlt.le.trans (Nat.le_mul_self _))
  rw [primality, if_neg (List.contains_iff_mem.not.mpr hnot), if_neg hge, if_neg hgt]

theorem exec_isPrime_of_det {s : State} {b : Bool} (hr : s.ready = true) (h : primality s s.larg0.toNat = some b) :
    exec .isPrime s = .next (finishWith (bitWord b) 0 s) := by
  refine congrArg Host.Outcome.next ((withStore_ready hr).trans ?_)
  rw [operand0, h]

theorem exec_isPrime_of_indet {s : State} (hr : s.ready = true) (h : primality s s.larg0.toNat = none) :
    exec .isPrime s = .next (finishIndet s) := by
  refine congrArg Host.Outcome.next ((withStore_ready hr).trans ?_)
  rw [operand0, h]

theorem bitWord_decide (p : Prop) [Decidable p] : bitWord (decide p) = if p then 1 else 0 := by
  simp only [bitWord, decide_eq_true_iff]

/-- Settles O48, from what `isp` says of each number. -/
theorem isPrimeDecidesPrimality : Obligations.IsPrimeDecidesPrimality := by
  intro s h hr
  rw [pow_two]
  refine ⟨fun hn => ?_, fun hn => exec_isPrime_of_indet hr (primality_indet hn)⟩
  rw [exec_isPrime_of_det hr (h.primality_det hn), bitWord_decide]
  rfl

end Sys2Proof.Machine
end

section
/-! PROOFS. Which condition raises which error, and that an error is all that such a completion leaves
(spec/60_exceptions.md R242-R246). -/

namespace Sys2Proof.Machine

/-! ## The conditions -/

/-- The ten commands behind the READY check (R210, R244). -/
def storeCommands : List Instr :=
  [.storeGet, .iterStart, .iterSeek, .iterNext, .qLimit, .qNumPrimes, .isPrime, .nthPrime, .rankFind, .storeWord]

/-- Completing command `i` from `s` raises the error: one constructor per check of R244 and R245, under what the
checks before it leave (R246). -/
inductive Raises (s : State) : Instr → Err → Prop
  | noStore {i : Instr} (hi : i ∈ storeCommands) (hr : s.ready = false) : Raises s i .noStore
  | buildReady {i : Instr} (hi : i ∈ [.buildLimit, .buildNprimes]) (hr : s.ready = true) : Raises s i .state
  | noCursor (hr : s.ready = true) (hv : s.itv = false) : Raises s .iterNext .state
  | noWheel (hv : s.wv = false) : Raises s .wheelNext .state
  | wheelDomain (h : ¬ wheelOperandsOk s.larg0.toNat s.larg1.toNat = true) : Raises s .wheelNew .operand
  | storeGetRange (hr : s.ready = true) (h : s.limit.toNat ≤ s.larg0.toNat) : Raises s .storeGet .range
  | scratchIndex {i : Instr} (hi : i ∈ [.scrGet, .scrSetOn, .scrSetOff])
      (h : 240 * s.cfg.segmentLen ≤ s.larg0.toNat) : Raises s i .range
  | scratchWord {i : Instr} (hi : i ∈ [.scrReadWord, .scrWriteWord]) (h : s.cfg.segmentLen ≤ s.larg0.toNat) :
      Raises s i .range
  | seekRange (hr : s.ready = true) (h : s.nwords.toNat < s.larg0.toNat) : Raises s .iterSeek .range
  | storeWordRange (hr : s.ready = true) (h : s.nwords.toNat ≤ s.larg0.toNat) : Raises s .storeWord .range
  | capacity {i : Instr} {bound : Nat} (hb : IsBuild i s bound) (hr : s.ready = false)
      (hw : s.cfg.maxWords < storeWords bound) : Raises s i .capacity

/-! ## A condition that holds is what the command ends in -/

theorem exec_storeCommand_empty {i : Instr} {s : State} (hi : i ∈ storeCommands) (hr : s.ready = false) :
    exec i s = .next (raise .noStore s) := by
  simp only [storeCommands, List.mem_cons, List.not_mem_nil, or_false] at hi
  obtain rfl | rfl | rfl | rfl | rfl | rfl | rfl | rfl | rfl | rfl := hi <;>
    exact congrArg Host.Outcome.next (withStore_empty hr)

theorem exec_scratchIndex_outside {i : Instr} {s : State} (hi : i ∈ [.scrGet, .scrSetOn, .scrSetOff])
    (h : 240 * s.cfg.segmentLen ≤ s.larg0.toNat) : exec i s = .next (raise .range s) := by
  simp only [List.mem_cons, List.not_mem_nil, or_false] at hi
  obtain rfl | rfl | rfl := hi <;> exact congrArg Host.Outcome.next (withScratchIndex_outside _ h)

theorem exec_scratchWord_outside {i : Instr} {s : State} (hi : i ∈ [.scrReadWord, .scrWriteWord])
    (h : s.cfg.segmentLen ≤ s.larg0.toNat) : exec i s = .next (raise .range s) := by
  simp only [List.mem_cons, List.not_mem_nil, or_false] at hi
  obtain rfl | rfl := hi <;> exact congrArg Host.Outcome.next (withScratchWord_outside _ h)

theorem Raises.exec_eq {i : Instr} {s : State} {e : Err} (h : Raises s i e) : exec i s = .next (raise e s) := by
  cases h with
  | noStore hi hr => exact exec_storeCommand_empty hi hr
  | buildReady hi hr =>
    obtain ⟨_, hb⟩ := exists_isBuild hi s
    exact hb.exec_of_ready hr
  | noCursor hr hv => exact exec_iterNext_noCursor hr hv
  | noWheel hv => exact exec_wheelNext_invalid hv
  | wheelDomain h => exact exec_wheelNew_rejected h
  | storeGetRange hr h => exact congrArg Host.Outcome.next ((withStore_ready hr).trans (if_pos h))
  | scratchIndex hi h => exact exec_scratchIndex_outside hi h
  | scratchWord hi h => exact exec_scratchWord_outside hi h
  | seekRange hr h => exact exec_iterSeek_beyond hr h
  | storeWordRange hr h => exact exec_storeWord_beyond hr h
  | capacity hb hr hw => exact hb.exec_of_capacity hr hw

/-! ## An error that a command ends in has its condition -/

/-- If `t` holds an error, `s` meets a condition under which command `i` raises it. -/
def ErrorExplained (s : State) (i : Instr) (t : State) : Prop := t.err ≠ .none → Raises s i t.err

section
variable {s t go : State} {i : Instr}

theorem ErrorExplained.ofNone (h : t.err = .none) : ErrorExplained s i t := fun he => absurd h he

theorem Raises.explained {e : Err} (h : Raises s i e) : ErrorExplained s i (raise e s) := fun _ => h

theorem ErrorExplained.ite {a b : State} {c : Prop} [Decidable c] (ha : c → ErrorExplained s i a)
    (hb : ¬ c → ErrorExplained s i b) : ErrorExplained s i (if c then a else b) := by
  split
  · exact ha ‹_›
  · exact hb ‹_›

theorem ErrorExplained.withStore (hi : i ∈ storeCommands) (h : s.ready = true → ErrorExplained s i go) :
    ErrorExplained s i (withStore s go) := by
  obtain ⟨hr, he⟩ | ⟨hr, he⟩ := withStore_cases s go <;> rw [he]
  · exact h hr
  · exact (Raises.noStore hi hr).explained

theorem ErrorExplained.withScratchIndex (hi : i ∈ [.scrGet, .scrSetOn, .scrSetOff]) (h : go.err = .none) :
    ErrorExplained s i (withScratchIndex s go) := by
  obtain ⟨_, he⟩ | ⟨hge, he⟩ := withScratchIndex_cases s go <;> rw [he]
  · exact .ofNone h
  · exact (Raises.scratchIndex hi hge).explained

theorem ErrorExplained.withScratchWord (hi : i ∈ [.scrReadWord, .scrWriteWord]) (h : go.err = .none) :
    ErrorExplained s i (withScratchWord s go) := by
  obtain ⟨_, he⟩ | ⟨hge, he⟩ := withScratchWord_cases s go <;> rw [he]
  · exact .ofNone h
  · exact (Raises.scratchWord hi hge).explained

theorem ErrorExplained.build {bound : Nat} (hi : i ∈ [.buildLimit, .buildNprimes]) (hb : IsBuild i s bound) :
    ErrorExplained s i (if s.ready then raise .state s else build bound s) := by
  refine .ite (fun hr => (Raises.buildReady hi hr).explained) fun hr => ?_
  obtain ⟨hw, he⟩ | ⟨_, he⟩ := build_cases bound s <;> rw [he]
  · exact (Raises.capacity hb (Bool.eq_false_iff.mpr hr) hw).explained
  · exact .ofNone rfl

theorem iterDecode_err (s : State) : (iterDecode s).err = .none := by
  unfold iterDecode
  split <;> rfl

theorem exec_explained (h : exec i s = .next t) : ErrorExplained s i t := by
  cases i <;> injection h with h <;> subst h
  case nop | codecMap | scrFill | clear => exact .ofNone rfl
  case storeGet =>
    exact .withStore (by decide) fun hr => .ite (fun h => (Raises.storeGetRange hr h).explained) fun _ => .ofNone rfl
  case scrGet | scrSetOn | scrSetOff => exact .withScratchIndex (by decide) rfl
  case scrReadWord | scrWriteWord => exact .withScratchWord (by decide) rfl
  case wheelNew => exact .ite (fun _ => .ofNone rfl) fun h => (Raises.wheelDomain h).explained
  case wheelNext =>
    exact .ite (fun _ => .ofNone rfl) fun h => (Raises.noWheel (Bool.eq_false_iff.mpr h)).explained
  case iterStart | qLimit | qNumPrimes => exact .withStore (by decide) fun _ => .ofNone rfl
  case iterSeek =>
    exact .withStore (by decide) fun hr => .ite (fun h => (Raises.seekRange hr h).explained) fun _ => .ofNone rfl
  case iterNext =>
    exact .withStore (by decide) fun hr => .ite
      (fun _ => .ite (fun _ => .ofNone rfl) fun _ => .ofNone (iterDecode_err s))
      fun hv => (Raises.noCursor hr (Bool.eq_false_iff.mpr hv)).explained
  case buildLimit => exact .build (by decide) (.inl ⟨rfl, rfl⟩)
  case buildNprimes => exact .build (by decide) (.inr ⟨rfl, rfl⟩)
  case isPrime =>
    refine .withStore (by decide) fun _ => ?_
    split <;> exact .ofNone rfl
  case nthPrime =>
    refine .withStore (by decide) fun _ => .ite (fun _ => .ofNone rfl) fun _ => .ite (fun _ => .ofNone rfl) fun _ => ?_
    split <;> exact .ofNone rfl
  case rankFind =>
    refine .withStore (by decide) fun _ => .ite (fun _ => .ofNone rfl) fun _ => ?_
    split <;> exact .ofNone rfl
  case storeWord =>
    exact .withStore (by decide) fun hr => .ite (fun h => (Raises.storeWordRange hr h).explained) fun _ => .ofNone rfl

/-! ## Precise errors -/

theorem exec_eq_raise_of_err (h : exec i s = .next t) (he : t.err ≠ .none) : t = raise t.err s := by
  injection h.symm.trans (exec_explained h he).exec_eq

theorem engineStep_eq_raise_of_err (h : engineStep s = .next t) (he : t.err ≠ .none) : t = raise t.err s := by
  obtain ⟨i, u, _, hx, hu⟩ | ⟨_, _, hu⟩ := engineStep_cases s
  · injection h.symm.trans hu with htu
    subst htu
    exact exec_eq_raise_of_err hx he
  · injection h.symm.trans hu with htu
    subst htu
    rfl

/-! ## Each code -/

theorem exec_err_eq_iff (e : Err) (h : exec i s = .next t) (he : e ≠ .none) : t.err = e ↔ Raises s i e := by
  constructor
  · rintro rfl
    exact exec_explained h he
  · intro hraise
    injection h.symm.trans hraise.exec_eq with ht
    rw [ht, raise_err]

theorem not_raises_illegal : ¬ Raises s i .illegal := nofun

theorem raises_noStore_iff : Raises s i .noStore ↔ s.ready = false ∧ i ∈ storeCommands :=
  ⟨fun | .noStore hi hr => ⟨hr, hi⟩, fun ⟨hr, hi⟩ => .noStore hi hr⟩

theorem raises_state_iff : Raises s i .state ↔ (s.ready = true ∧ i ∈ [.buildLimit, .buildNprimes]) ∨
    (s.ready = true ∧ s.itv = false ∧ i = .iterNext) ∨ (s.wv = false ∧ i = .wheelNext) := by
  constructor
  · intro h
    cases h with
    | buildReady hi hr => exact .inl ⟨hr, hi⟩
    | noCursor hr hv => exact .inr (.inl ⟨hr, hv, rfl⟩)
    | noWheel hv => exact .inr (.inr ⟨hv, rfl⟩)
  · rintro (⟨hr, hi⟩ | ⟨hr, hv, rfl⟩ | ⟨hv, rfl⟩)
    · exact .buildReady hi hr
    · exact .noCursor hr hv
    · exact .noWheel hv

theorem raises_operand_iff : Raises s i .operand ↔ i = .wheelNew ∧
    ¬ (1 ≤ s.larg0.toNat ∧ s.larg0.toNat ≤ 3074457345618258602 ∧ s.larg0.toNat ∣ s.larg1.toNat ∧
      Nat.Coprime (s.larg1.toNat / s.larg0.toNat) 30) := by
  rw [← wheelOperandsOk_iff]
  exact ⟨fun | .wheelDomain h => ⟨rfl, h⟩, fun ⟨hi, h⟩ => hi ▸ .wheelDomain h⟩

theorem raises_range_iff : Raises s i .range ↔
    (i = .storeGet ∧ s.ready = true ∧ s.limit.toNat ≤ s.larg0.toNat) ∨
    (i ∈ [.scrGet, .scrSetOn, .scrSetOff] ∧ 240 * s.cfg.segmentLen ≤ s.larg0.toNat) ∨
    (i ∈ [.scrReadWord, .scrWriteWord] ∧ s.cfg.segmentLen ≤ s.larg0.toNat) ∨
    (i = .iterSeek ∧ s.ready = true ∧ s.nwords.toNat < s.larg0.toNat) ∨
    (i = .storeWord ∧ s.ready = true ∧ s.nwords.toNat ≤ s.larg0.toNat) := by
  constructor
  · intro h
    cases h with
    | storeGetRange hr h => exact .inl ⟨rfl, hr, h⟩
    | scratchIndex hi h => exact .inr (.inl ⟨hi, h⟩)
    | scratchWord hi h => exact .inr (.inr (.inl ⟨hi, h⟩))
    | seekRange hr h => exact .inr (.inr (.inr (.inl ⟨rfl, hr, h⟩)))
    | storeWordRange hr h => exact .inr (.inr (.inr (.inr ⟨rfl, hr, h⟩)))
  · rintro (⟨rfl, hr, h⟩ | ⟨hi, h⟩ | ⟨hi, h⟩ | ⟨rfl, hr, h⟩ | ⟨rfl, hr, h⟩)
    · exact .storeGetRange hr h
    · exact .scratchIndex hi h
    · exact .scratchWord hi h
    · exact .seekRange hr h
    · exact .storeWordRange hr h

theorem raises_capacity_iff : Raises s i .capacity ↔ s.ready = false ∧
    ((i = .buildLimit ∧ s.cfg.maxWords < (s.larg0.toNat + 239) / 240) ∨
     (i = .buildNprimes ∧ s.cfg.maxWords < (nprimesBound s.cfg s.larg0.toNat + 239) / 240)) := by
  rw [← storeWords_eq, ← storeWords_eq]
  constructor
  · intro h
    cases h with
    | capacity hb hr hw =>
      obtain ⟨hi, rfl⟩ | ⟨hi, rfl⟩ := hb
      · exact ⟨hr, .inl ⟨hi, hw⟩⟩
      · exact ⟨hr, .inr ⟨hi, hw⟩⟩
  · rintro ⟨hr, ⟨hi, hw⟩ | ⟨hi, hw⟩⟩
    · exact .capacity (.inl ⟨hi, rfl⟩) hr hw
    · exact .capacity (.inr ⟨hi, rfl⟩) hr hw

end

/-- Settles O18: what ends in an error is `raise` of that error. -/
theorem errorsArePrecise : Obligations.ErrorsArePrecise :=
  ⟨fun _ _ _ => exec_eq_raise_of_err, fun _ _ => engineStep_eq_raise_of_err⟩

/-- Settles O19: an error code is there exactly when its condition is, code by code. -/
theorem errorsComeFromTheirCommands : Obligations.ErrorsComeFromTheirCommands :=
  ⟨⟨rfl, rfl, rfl, rfl, rfl, rfl, rfl⟩, fun _ _ _ h =>
    ⟨mt (exec_err_eq_iff .illegal h nofun).mp not_raises_illegal,
      (exec_err_eq_iff .noStore h nofun).trans raises_noStore_iff,
      (exec_err_eq_iff .state h nofun).trans raises_state_iff,
      (exec_err_eq_iff .operand h nofun).trans raises_operand_iff,
      (exec_err_eq_iff .range h nofun).trans raises_range_iff,
      (exec_err_eq_iff .capacity h nofun).trans raises_capacity_iff⟩⟩

end Sys2Proof.Machine
end

section
/-! PROOFS. A command in flight under every host, and its completion (spec/60_exceptions.md R240,
spec/70_reset_and_hazards.md R291). -/

namespace Sys2Proof.Machine

/-! ## Who moves -/

theorem engineMoves_of_due {s : State} (hb : s.busy = true) (hd : s.delay = 0) : engineMoves s = true := by
  simp [engineMoves, hb, hd]

theorem engineMoves_of_waiting {s : State} {n : Nat} (hd : s.delay = n + 1) : engineMoves s = false := by
  simp [engineMoves, hd]

theorem step_of_due {s : State} (hb : s.busy = true) (hd : s.delay = 0) : step s = engineStep s :=
  if_pos (engineMoves_of_due hb hd)

theorem engineStep_of_decode {s : State} {i : Instr} (h : decode s.lcmd = .ok i) : engineStep s = exec i s := by
  rw [engineStep, h]

theorem decode_encode (i : Instr) : decode (encode i) = .ok i := (decode_eq_ok_iff_encode _ i).mpr rfl

theorem withFetchWord_toNat (s : State) (c : Word) : s.withFetchWord 64 c.toNat = latchCommand s c := by
  rw [State.withFetchWord, Nat.mod_eq_of_lt c.isLt, BitVec.ofNat_toNat, BitVec.setWidth_eq]

/-- Settles O6: the engine is due, and the latched word is the command's own. -/
theorem stepRunsTheDecodedCommand : Obligations.StepRunsTheDecodedCommand := by
  refine ⟨fun s i hb hd hi => (step_of_due hb hd).trans (engineStep_of_decode hi), fun s i => ?_⟩
  rw [withFetchWord_toNat, step_of_due rfl rfl]
  exact engineStep_of_decode (decode_encode i)

/-! ## A host step while a command is in flight -/

/-- No register write touches the latch or the delay of a command in flight (R29, R241). -/
theorem writeReg_latch_of_busy {s : State} (r : Reg) (v : Word) (h : s.busy = true) :
    (writeReg s r v).lcmd = s.lcmd ∧ (writeReg s r v).larg0 = s.larg0 ∧ (writeReg s r v).larg1 = s.larg1 ∧
      (writeReg s r v).delay = s.delay := by
  cases r
  case cmd =>
    obtain ⟨_, he⟩ | ⟨_, _, he⟩ | ⟨_, hidle, _⟩ := writeCmd_cases s v
    · rw [writeReg, he]; exact ⟨rfl, rfl, rfl, rfl⟩
    · rw [writeReg, he]; exact ⟨rfl, rfl, rfl, rfl⟩
    · exact false_ne_true_bit hidle h rfl
  case status => rw [writeReg, writeStatus_eq]; exact ⟨rfl, rfl, rfl, rfl⟩
  all_goals exact ⟨rfl, rfl, rfl, rfl⟩

theorem StepKind.keeps_command {s t : State} (hk : StepKind s t) (hb : s.busy = true)
    (hm : engineMoves s = false) (hr : ¬ resetsNext s) :
    t.busy = true ∧ t.lcmd = s.lcmd ∧ t.larg0 = s.larg0 ∧ t.larg1 = s.larg1 ∧ t.delay = s.delay - 1 := by
  cases hk with
  | completes _ hc => exact false_ne_true_bit hm hc.1 rfl
  | illegal hm' => exact false_ne_true_bit hm hm' rfl
  | reset _ hreset => exact absurd hreset hr
  | write off v rest =>
    rw [tick_of_busy hb]
    exact ⟨writeReg_busy_of_busy _ v hb, writeReg_latch_of_busy _ v hb⟩
  | hostOnly =>
    rw [tick_of_busy hb]
    exact ⟨hb, rfl, rfl, rfl, rfl⟩

/-! ## The completion -/

theorem engineStep_completes (s : State) : ∃ t, engineStep s = .next t ∧ t.busy = false := by
  obtain ⟨_, t, _, hx, ht⟩ | ⟨_, _, ht⟩ := engineStep_cases s
  · exact ⟨t, ht, (exec_completion hx).busy_eq⟩
  · exact ⟨_, ht, rfl⟩

theorem run_succ_of_next (M : Host.Core) {n : Nat} {s t : M.State} (h : M.step s = .next t) :
    M.run (n + 1) s = M.run n t := by
  rw [Host.Core.run, h]

theorem run_one_of_due {s : State} (hb : s.busy = true) (hd : s.delay = 0) : core.run 1 s = engineStep s := by
  obtain ⟨t, ht, _⟩ := engineStep_completes s
  rw [run_succ_of_next core ((step_of_due hb hd).trans ht), ht]
  rfl

theorem step_waiting_done {s : State} {n : Nat} (hb : s.busy = true) (hd : s.delay = n + 1) (hh : s.host = .done) :
    step s = .next { s with delay := n } := by
  have hh' : (tick s).host = .done := (tick_host s).trans hh
  rw [step_of_host (engineMoves_of_waiting hd), hostStep, hh']
  simp only [tick_of_busy hb, hd, Nat.add_sub_cancel]

/-- Under a host that does nothing more, the command completes after its delay. -/
theorem run_to_completion (n : Nat) {s : State} (hb : s.busy = true) (hd : s.delay = n) (hh : s.host = .done) :
    core.run (n + 1) s = engineStep { s with delay := 0 } := by
  induction n generalizing s with
  | zero =>
    have hs : { s with delay := 0 } = s := by rw [← hd]
    rw [hs]
    exact run_one_of_due hb hd
  | succ n ih =>
    rw [run_succ_of_next core (step_waiting_done hb hd hh)]
    exact ih hb rfl hh

/-- Settles O8: what each kind of host step keeps, and an induction on the delay. -/
theorem acceptedCommandCompletes : Obligations.AcceptedCommandCompletes := by
  refine ⟨fun n s t hb hd hr hs => ?_, fun _ => step_of_due, fun n _ => run_to_completion n, engineStep_completes⟩
  have hkeeps := (step_kind hs).keeps_command hb (engineMoves_of_waiting hd) hr
  rwa [hd] at hkeeps

end Sys2Proof.Machine
end

section
/-! PROOFS. Reads while a command is in flight (spec/70_reset_and_hazards.md R282, spec/20_memory.md R56). -/

namespace Sys2Proof.Machine

theorem statusWord_of_busy {s : State} (h : s.busy = true) :
    ∃ rv itv wv err, statusWord s = packStatus true s.ready rv itv wv s.ovr s.fatal err :=
  ⟨_, _, _, _, if_pos h⟩

/-- The STATUS fields that R282 specifies while BUSY = 1, at their bits. -/
theorem statusWord_busy_bits {s : State} (h : s.busy = true) :
    (statusWord s).getLsbD 0 = true ∧ (statusWord s).getLsbD 1 = s.ready ∧ (statusWord s).getLsbD 5 = s.ovr ∧
    (statusWord s).getLsbD 6 = s.fatal := by
  obtain ⟨rv, itv, wv, err, he⟩ := statusWord_of_busy h
  obtain ⟨hbusy, hready, _, _, _, hovr, hfatal, _⟩ := packStatus_bits true s.ready rv itv wv s.ovr s.fatal err
  rw [he]
  exact ⟨hbusy, hready, hovr, hfatal⟩

/-- A read while a command is in flight only moves the host on and passes one step of the delay. -/
theorem step_read_waiting {s : State} {off : Nat} {rest : HostProg} (hb : s.busy = true) (hd : s.delay ≠ 0)
    (hh : s.host = .rd (s.cfg.regBase + off) 8 rest) (hoff : off < 256) (hal : off % 8 = 0) :
    step s = .next (deliver (regAt off) (readReg { s with delay := s.delay - 1, host := rest } (regAt off))
      { s with delay := s.delay - 1, host := rest }) := by
  obtain ⟨n, hn⟩ := Nat.exists_eq_succ_of_ne_zero hd
  rw [step_read (engineMoves_of_waiting hn) hh hoff hal, tick_of_busy hb]

/-- Settles O11: the step delivers what the register holds, and STATUS by its layout while BUSY = 1. -/
theorem busyReadsAreHarmless : Obligations.BusyReadsAreHarmless := by
  intro s off rest hb hd hh hoff hal
  refine ⟨_, step_read_waiting hb hd hh hoff hal, ?_, ?_, ?_, ?_, ?_, ?_⟩
  · rintro rfl; rfl
  · rintro rfl
    exact statusWord_busy_bits (s := { s with delay := s.delay - 1, host := rest }) hb
  · rintro rfl; rfl
  · rintro rfl; rfl
  · rintro rfl; rfl
  · rintro rfl; rfl

/-- The premises of O11 hold together: a host is about to read STATUS while a command is in flight. -/
theorem busyReadsAreHarmless_premises : ∃ (s : State) (rest : HostProg),
    s.busy = true ∧ s.delay ≠ 0 ∧ s.host = .rd (s.cfg.regBase + 0x10) 8 rest :=
  ⟨{ State.reset with busy := true, delay := 1, host := .rd (State.reset.cfg.regBase + 0x10) 8 .done }, .done,
    rfl, Nat.one_ne_zero, rfl⟩

end Sys2Proof.Machine
end
